-- ==== Sys2Proof/Word.lean ====
section
/-!
DEFINITION. The word types of the block and the value notation of spec/00_scope.md R9: `u(v)`, `s(v)` and `w(n)`.
-/
namespace Sys2Proof

/-- A 32-bit word: register values, addresses, the program counter, immediates (R7, R9). -/
abbrev Word := BitVec 32

/-- A register index, 5 bits (R12, R46). -/
abbrev Reg := BitVec 5

/-- A decoded instruction word, 64 bits (R81). -/
abbrev Diw := BitVec 64

/-- `u(v)` of R9, as an exact integer. -/
def uval (v : Word) : Int := (v.toNat : Int)

/-- `s(v)` of R9: the two's-complement value. -/
def sval (v : Word) : Int := v.toInt

/-- `w(n)` of R9: the word whose unsigned value is `n mod 2^32`. -/
def word (n : Int) : Word := BitVec.ofInt 32 n

end Sys2Proof
end

