-- ==== Sys2Proof/Syntax.lean ====
section
/-!
DEFINITION. The instructions: one constructor per row of spec/opcode_table.json (spec/30_encoding.md R83). Arguments stand in the order
of the assembler form of R85; an argument exists exactly for the fields the format uses, so an unset field has no argument.
-/
namespace Sys2Proof

inductive Instr where
  -- format N (R240)
  | nop
  -- format R: `op rd, rs, rt` (R171-R176)
  | add (rd rs rt : Reg)
  | sub (rd rs rt : Reg)
  | and (rd rs rt : Reg)
  | or (rd rs rt : Reg)
  | slt (rd rs rt : Reg)
  | nor (rd rs rt : Reg)
  -- format I: `op rt, rs, imm` (R177-R180)
  | addi (rt rs : Reg) (imm : Word)
  | andi (rt rs : Reg) (imm : Word)
  | ori (rt rs : Reg) (imm : Word)
  | slti (rt rs : Reg) (imm : Word)
  -- format RR: `op rs, rt` (R191, R192)
  | mult (rs rt : Reg)
  | div (rs rt : Reg)
  -- format RD: `op rd` (R193, R194)
  | mfhi (rd : Reg)
  | mflo (rd : Reg)
  -- format I: `op rt, rs, imm` (R201-R203)
  | sll (rt rs : Reg) (imm : Word)
  | srl (rt rs : Reg) (imm : Word)
  | sra (rt rs : Reg) (imm : Word)
  -- format LS: `op rt, imm(rs)` (R211, R212)
  | lw (rt rs : Reg) (imm : Word)
  | sw (rt rs : Reg) (imm : Word)
  -- format J: `op label` (R228, R229); the argument is a label identifier (R89)
  | j (label : Word)
  | jal (label : Word)
  -- format JR: `jr rs` (R230)
  | jr (rs : Reg)
  -- format B: `op rs, rt, label` (R222-R227)
  | beq (rs rt : Reg) (label : Word)
  | bne (rs rt : Reg) (label : Word)
  | blt (rs rt : Reg) (label : Word)
  | bgt (rs rt : Reg) (label : Word)
  | ble (rs rt : Reg) (label : Word)
  | bge (rs rt : Reg) (label : Word)
  deriving DecidableEq, Repr

end Sys2Proof
end

