-- ==== Sys2Proof/Decode.lean ====
section
/-!
DEFINITION. The decoded instruction word (spec/30_encoding.md): its layout (R81), the tags (R83), the formats (R85), the legality rule
(R92) as a total decoder that rejects by name, the class tables (R86, R87),
the label an instruction names (R89) with its lookup, and the encoder written from the
same tables.
-/
namespace Sys2Proof

/-- Why a word is no instruction (R92): the model's names for the three ways a word can be illegal. -/
inductive DecodeError where
  /-- tag 0x1D, 0x1E or 0x1F (R84) -/
  | reservedTag
  /-- a bit of [43:32] is set (R82) -/
  | reservedBitsSet
  /-- a field the format marks 0 is not 0 (R85, R92) -/
  | unusedFieldSet
  deriving DecidableEq, Repr

/-- The fields of a word (R81). -/
structure Fields where
  opc : BitVec 5
  rs : Reg
  rt : Reg
  rd : Reg
  zero : BitVec 12
  imm : Word
  deriving DecidableEq, Repr

/-- The layout of R81, read. -/
def splitDiw (d : Diw) : Fields :=
  { opc := d.extractLsb' 59 5, rs := d.extractLsb' 54 5, rt := d.extractLsb' 49 5, rd := d.extractLsb' 44 5,
    zero := d.extractLsb' 32 12, imm := d.extractLsb' 0 32 }

/-- The layout of R81, written: `opc` in the top bits, `imm` in the low ones. -/
def joinDiw (f : Fields) : Diw :=
  (f.opc ++ f.rs ++ f.rt ++ f.rd ++ f.zero ++ f.imm : BitVec 64)

/-- An instruction whose format marks some fields 0: it stands when they are (R92). -/
def whenUnset (unset : Bool) (i : Instr) : Except DecodeError Instr :=
  if unset then .ok i else .error .unusedFieldSet

/-! The formats of R85. -/

def formatN (f : Fields) (i : Instr) : Except DecodeError Instr :=
  whenUnset (f.rs == 0 && f.rt == 0 && f.rd == 0 && f.imm == 0) i

def formatR (f : Fields) (mk : Reg → Reg → Reg → Instr) : Except DecodeError Instr :=
  whenUnset (f.imm == 0) (mk f.rd f.rs f.rt)

def formatI (f : Fields) (mk : Reg → Reg → Word → Instr) : Except DecodeError Instr :=
  whenUnset (f.rd == 0) (mk f.rt f.rs f.imm)

def formatRR (f : Fields) (mk : Reg → Reg → Instr) : Except DecodeError Instr :=
  whenUnset (f.rd == 0 && f.imm == 0) (mk f.rs f.rt)

def formatRD (f : Fields) (mk : Reg → Instr) : Except DecodeError Instr :=
  whenUnset (f.rs == 0 && f.rt == 0 && f.imm == 0) (mk f.rd)

def formatLS (f : Fields) (mk : Reg → Reg → Word → Instr) : Except DecodeError Instr :=
  whenUnset (f.rd == 0) (mk f.rt f.rs f.imm)

def formatJ (f : Fields) (mk : Word → Instr) : Except DecodeError Instr :=
  whenUnset (f.rs == 0 && f.rt == 0 && f.rd == 0) (mk f.imm)

def formatJR (f : Fields) (mk : Reg → Instr) : Except DecodeError Instr :=
  whenUnset (f.rt == 0 && f.rd == 0 && f.imm == 0) (mk f.rs)

def formatB (f : Fields) (mk : Reg → Reg → Word → Instr) : Except DecodeError Instr :=
  whenUnset (f.rd == 0) (mk f.rs f.rt f.imm)

/-- The opcode map of R83, with the format of each tag; the other tags are reserved (R84). -/
def decodeByTag (f : Fields) : Except DecodeError Instr :=
  match f.opc.toNat with
  | 0x00 => formatN f .nop
  | 0x01 => formatR f .add
  | 0x02 => formatR f .sub
  | 0x03 => formatR f .and
  | 0x04 => formatR f .or
  | 0x05 => formatR f .slt
  | 0x06 => formatR f .nor
  | 0x07 => formatI f .addi
  | 0x08 => formatI f .andi
  | 0x09 => formatI f .ori
  | 0x0A => formatI f .slti
  | 0x0B => formatRR f .mult
  | 0x0C => formatRR f .div
  | 0x0D => formatRD f .mfhi
  | 0x0E => formatRD f .mflo
  | 0x0F => formatI f .sll
  | 0x10 => formatI f .srl
  | 0x11 => formatI f .sra
  | 0x12 => formatLS f .lw
  | 0x13 => formatLS f .sw
  | 0x14 => formatJ f .j
  | 0x15 => formatJ f .jal
  | 0x16 => formatJR f .jr
  | 0x17 => formatB f .beq
  | 0x18 => formatB f .bne
  | 0x19 => formatB f .blt
  | 0x1A => formatB f .bgt
  | 0x1B => formatB f .ble
  | 0x1C => formatB f .bge
  | _ => .error .reservedTag

/-- Decoding a word: total, and refusing by name every word that is not legal (R92). -/
def decode (d : Diw) : Except DecodeError Instr :=
  let f := splitDiw d
  if f.zero = 0 then decodeByTag f else .error .reservedBitsSet

/-- The mnemonic of an instruction, as spec/opcode_table.json spells it. -/
def Instr.mnemonic : Instr → String
  | .nop => "nop"
  | .add _ _ _ => "add"
  | .sub _ _ _ => "sub"
  | .and _ _ _ => "and"
  | .or _ _ _ => "or"
  | .slt _ _ _ => "slt"
  | .nor _ _ _ => "nor"
  | .addi _ _ _ => "addi"
  | .andi _ _ _ => "andi"
  | .ori _ _ _ => "ori"
  | .slti _ _ _ => "slti"
  | .mult _ _ => "mult"
  | .div _ _ => "div"
  | .mfhi _ => "mfhi"
  | .mflo _ => "mflo"
  | .sll _ _ _ => "sll"
  | .srl _ _ _ => "srl"
  | .sra _ _ _ => "sra"
  | .lw _ _ _ => "lw"
  | .sw _ _ _ => "sw"
  | .j _ => "j"
  | .jal _ => "jal"
  | .jr _ => "jr"
  | .beq _ _ _ => "beq"
  | .bne _ _ _ => "bne"
  | .blt _ _ _ => "blt"
  | .bgt _ _ _ => "bgt"
  | .ble _ _ _ => "ble"
  | .bge _ _ _ => "bge"

/-- The opcode tag (R83). -/
def Instr.tag : Instr → BitVec 5
  | .nop => 0x00
  | .add _ _ _ => 0x01
  | .sub _ _ _ => 0x02
  | .and _ _ _ => 0x03
  | .or _ _ _ => 0x04
  | .slt _ _ _ => 0x05
  | .nor _ _ _ => 0x06
  | .addi _ _ _ => 0x07
  | .andi _ _ _ => 0x08
  | .ori _ _ _ => 0x09
  | .slti _ _ _ => 0x0A
  | .mult _ _ => 0x0B
  | .div _ _ => 0x0C
  | .mfhi _ => 0x0D
  | .mflo _ => 0x0E
  | .sll _ _ _ => 0x0F
  | .srl _ _ _ => 0x10
  | .sra _ _ _ => 0x11
  | .lw _ _ _ => 0x12
  | .sw _ _ _ => 0x13
  | .j _ => 0x14
  | .jal _ => 0x15
  | .jr _ => 0x16
  | .beq _ _ _ => 0x17
  | .bne _ _ _ => 0x18
  | .blt _ _ _ => 0x19
  | .bgt _ _ _ => 0x1A
  | .ble _ _ _ => 0x1B
  | .bge _ _ _ => 0x1C

/-- The `rs` field, 0 where the format leaves it unset (R85, R91). -/
def Instr.rs : Instr → Reg
  | .nop => 0
  | .add _ rs _ => rs
  | .sub _ rs _ => rs
  | .and _ rs _ => rs
  | .or _ rs _ => rs
  | .slt _ rs _ => rs
  | .nor _ rs _ => rs
  | .addi _ rs _ => rs
  | .andi _ rs _ => rs
  | .ori _ rs _ => rs
  | .slti _ rs _ => rs
  | .mult rs _ => rs
  | .div rs _ => rs
  | .mfhi _ => 0
  | .mflo _ => 0
  | .sll _ rs _ => rs
  | .srl _ rs _ => rs
  | .sra _ rs _ => rs
  | .lw _ rs _ => rs
  | .sw _ rs _ => rs
  | .j _ => 0
  | .jal _ => 0
  | .jr rs => rs
  | .beq rs _ _ => rs
  | .bne rs _ _ => rs
  | .blt rs _ _ => rs
  | .bgt rs _ _ => rs
  | .ble rs _ _ => rs
  | .bge rs _ _ => rs

/-- The `rt` field, 0 where the format leaves it unset (R85, R91). -/
def Instr.rt : Instr → Reg
  | .nop => 0
  | .add _ _ rt => rt
  | .sub _ _ rt => rt
  | .and _ _ rt => rt
  | .or _ _ rt => rt
  | .slt _ _ rt => rt
  | .nor _ _ rt => rt
  | .addi rt _ _ => rt
  | .andi rt _ _ => rt
  | .ori rt _ _ => rt
  | .slti rt _ _ => rt
  | .mult _ rt => rt
  | .div _ rt => rt
  | .mfhi _ => 0
  | .mflo _ => 0
  | .sll rt _ _ => rt
  | .srl rt _ _ => rt
  | .sra rt _ _ => rt
  | .lw rt _ _ => rt
  | .sw rt _ _ => rt
  | .j _ => 0
  | .jal _ => 0
  | .jr _ => 0
  | .beq _ rt _ => rt
  | .bne _ rt _ => rt
  | .blt _ rt _ => rt
  | .bgt _ rt _ => rt
  | .ble _ rt _ => rt
  | .bge _ rt _ => rt

/-- The `rd` field, 0 where the format leaves it unset (R85, R91). -/
def Instr.rd : Instr → Reg
  | .nop => 0
  | .add rd _ _ => rd
  | .sub rd _ _ => rd
  | .and rd _ _ => rd
  | .or rd _ _ => rd
  | .slt rd _ _ => rd
  | .nor rd _ _ => rd
  | .addi _ _ _ => 0
  | .andi _ _ _ => 0
  | .ori _ _ _ => 0
  | .slti _ _ _ => 0
  | .mult _ _ => 0
  | .div _ _ => 0
  | .mfhi rd => rd
  | .mflo rd => rd
  | .sll _ _ _ => 0
  | .srl _ _ _ => 0
  | .sra _ _ _ => 0
  | .lw _ _ _ => 0
  | .sw _ _ _ => 0
  | .j _ => 0
  | .jal _ => 0
  | .jr _ => 0
  | .beq _ _ _ => 0
  | .bne _ _ _ => 0
  | .blt _ _ _ => 0
  | .bgt _ _ _ => 0
  | .ble _ _ _ => 0
  | .bge _ _ _ => 0

/-- The `imm` field: the immediate, or the label identifier, or 0 where unset (R85, R88, R89). -/
def Instr.imm : Instr → Word
  | .nop => 0
  | .add _ _ _ => 0
  | .sub _ _ _ => 0
  | .and _ _ _ => 0
  | .or _ _ _ => 0
  | .slt _ _ _ => 0
  | .nor _ _ _ => 0
  | .addi _ _ imm => imm
  | .andi _ _ imm => imm
  | .ori _ _ imm => imm
  | .slti _ _ imm => imm
  | .mult _ _ => 0
  | .div _ _ => 0
  | .mfhi _ => 0
  | .mflo _ => 0
  | .sll _ _ imm => imm
  | .srl _ _ imm => imm
  | .sra _ _ imm => imm
  | .lw _ _ imm => imm
  | .sw _ _ imm => imm
  | .j label => label
  | .jal label => label
  | .jr _ => 0
  | .beq _ _ label => label
  | .bne _ _ label => label
  | .blt _ _ label => label
  | .bgt _ _ label => label
  | .ble _ _ label => label
  | .bge _ _ label => label

/-- The label map: label identifiers with their 32-bit PC values (R50). The first entry of an identifier counts. -/
abbrev LabelMap := List (Word × Word)

/-- `LABELS(id)`, or `none` where the map has no entry (R50, R221). -/
def labelTarget : LabelMap → Word → Option Word
  | [], _ => none
  | (l, t) :: m, id => if l = id then some t else labelTarget m id

/-- The label identifier a J or B format instruction uses (R85, R89). -/
def Instr.label? : Instr → Option Word
  | .nop => none
  | .add _ _ _ => none
  | .sub _ _ _ => none
  | .and _ _ _ => none
  | .or _ _ _ => none
  | .slt _ _ _ => none
  | .nor _ _ _ => none
  | .addi _ _ _ => none
  | .andi _ _ _ => none
  | .ori _ _ _ => none
  | .slti _ _ _ => none
  | .mult _ _ => none
  | .div _ _ => none
  | .mfhi _ => none
  | .mflo _ => none
  | .sll _ _ _ => none
  | .srl _ _ _ => none
  | .sra _ _ _ => none
  | .lw _ _ _ => none
  | .sw _ _ _ => none
  | .j l => some l
  | .jal l => some l
  | .jr _ => none
  | .beq _ _ l => some l
  | .bne _ _ l => some l
  | .blt _ _ l => some l
  | .bgt _ _ l => some l
  | .ble _ _ l => some l
  | .bge _ _ l => some l

/-- The control-flow opcodes (R87). -/
def Instr.isControlFlow : Instr → Bool
  | .nop => false
  | .add _ _ _ => false
  | .sub _ _ _ => false
  | .and _ _ _ => false
  | .or _ _ _ => false
  | .slt _ _ _ => false
  | .nor _ _ _ => false
  | .addi _ _ _ => false
  | .andi _ _ _ => false
  | .ori _ _ _ => false
  | .slti _ _ _ => false
  | .mult _ _ => false
  | .div _ _ => false
  | .mfhi _ => false
  | .mflo _ => false
  | .sll _ _ _ => false
  | .srl _ _ _ => false
  | .sra _ _ _ => false
  | .lw _ _ _ => false
  | .sw _ _ _ => false
  | .j _ => true
  | .jal _ => true
  | .jr _ => true
  | .beq _ _ _ => true
  | .bne _ _ _ => true
  | .blt _ _ _ => true
  | .bgt _ _ _ => true
  | .ble _ _ _ => true
  | .bge _ _ _ => true

/-- `dest(I)` (R13) by the class table of R86: rd for the R class, rt for the I/load class, 0 for the no-result class. -/
def Instr.dest : Instr → Reg
  | .nop => 0
  | .add rd _ _ => rd
  | .sub rd _ _ => rd
  | .and rd _ _ => rd
  | .or rd _ _ => rd
  | .slt rd _ _ => rd
  | .nor rd _ _ => rd
  | .addi rt _ _ => rt
  | .andi rt _ _ => rt
  | .ori rt _ _ => rt
  | .slti rt _ _ => rt
  | .mult _ _ => 0
  | .div _ _ => 0
  | .mfhi rd => rd
  | .mflo rd => rd
  | .sll rt _ _ => rt
  | .srl rt _ _ => rt
  | .sra rt _ _ => rt
  | .lw rt _ _ => rt
  | .sw _ _ _ => 0
  | .j _ => 0
  | .jal _ => 0
  | .jr _ => 0
  | .beq _ _ _ => 0
  | .bne _ _ _ => 0
  | .blt _ _ _ => 0
  | .bgt _ _ _ => 0
  | .ble _ _ _ => 0
  | .bge _ _ _ => 0

/-- The instruction is `lw`, the only one whose result is not ready after execute (R131, R210). -/
def Instr.isLw : Instr → Bool
  | .nop => false
  | .add _ _ _ => false
  | .sub _ _ _ => false
  | .and _ _ _ => false
  | .or _ _ _ => false
  | .slt _ _ _ => false
  | .nor _ _ _ => false
  | .addi _ _ _ => false
  | .andi _ _ _ => false
  | .ori _ _ _ => false
  | .slti _ _ _ => false
  | .mult _ _ => false
  | .div _ _ => false
  | .mfhi _ => false
  | .mflo _ => false
  | .sll _ _ _ => false
  | .srl _ _ _ => false
  | .sra _ _ _ => false
  | .lw _ _ _ => true
  | .sw _ _ _ => false
  | .j _ => false
  | .jal _ => false
  | .jr _ => false
  | .beq _ _ _ => false
  | .bne _ _ _ => false
  | .blt _ _ _ => false
  | .bgt _ _ _ => false
  | .ble _ _ _ => false
  | .bge _ _ _ => false

/-- The fields of an instruction's word (R81, R83, R85). -/
def encodeFields (i : Instr) : Fields :=
  { opc := i.tag, rs := i.rs, rt := i.rt, rd := i.rd, zero := 0, imm := i.imm }

/-- The word of an instruction. -/
def encode (i : Instr) : Diw := joinDiw (encodeFields i)

/-- The instruction the decoder reads from a table row's bits: one 64-bit word, bits above `nbits` zero (R81, R93). -/
def decodeTableWord (nbits w : Nat) : Option Instr :=
  if nbits ≤ 64 then (decode (BitVec.ofNat 64 (w % 2 ^ nbits))).toOption else none

end Sys2Proof
end

