-- ==== Sys2Proof/Config.lean ====
section
/-!
DEFINITION. The fixed parameters of the block (spec/00_scope.md R7). The arguments of the block that the host supplies (the store, the
label map, MAX_CYCLES) are fields of `Machine.State`, since a run carries them; see notes/assumptions/3.md and 4.md.
-/
namespace Sys2Proof.Config

/-- The program-size bound: a store of `2^30` words or more is refused (R7, R284 item 1). -/
def storeLimit : Nat := 2 ^ 30

/-- LINK, the register `jal` writes (R7, R229). -/
def linkReg : Reg := 31

/-- DESIGN CHOICE (notes/assumptions/4.md, unsafe): the MAX_CYCLES of `State.reset`; the spec leaves it open (R7, D20). -/
def resetMaxCycles : Nat := 10000

end Sys2Proof.Config
end

