-- ==== Sys2Proof/WellFormed.lean ====
section
/-!
DEFINITION. What a program must satisfy beyond the shape of its instructions (spec/70_reset_and_hazards.md R284): it fits the store, and
every label identifier of a J or B format instruction has an entry in the label map. Register indices and immediates are well formed by
their types; illegal words never become an `Instr` (Sys2Proof/Decode.lean).
-/
namespace Sys2Proof

/-- The label an instruction uses, if any, has an entry (R284 item 3). -/
def Instr.wellFormed (labels : LabelMap) (i : Instr) : Bool :=
  match i.label? with
  | none => true
  | some l => (labelTarget labels l).isSome

/-- A store of `n` words fits (R284 item 1). -/
def storeSizeOk (n : Nat) : Bool := decide (n < Config.storeLimit)

/-- A program the block accepts, as instructions (R284). -/
def programWellFormed (labels : LabelMap) (prog : List Instr) : Bool :=
  storeSizeOk prog.length && prog.all (Instr.wellFormed labels)

end Sys2Proof
end

