-- ==== Sys2Proof/Machine/State.lean ====
section
/-!
DEFINITION. The state of the block (spec/10_state.md), its faults and refusals, and the state after reset
(spec/70_reset_and_hazards.md R280).
-/
namespace Sys2Proof.Machine

/-- How the run stands (R43). -/
inductive Status where
  | running
  | done
  | cycleLimit
  deriving DecidableEq, Repr

/-- The two non-fatal conditions that are reported (R44, R250). -/
inductive ReportKind where
  | divByZero
  | invalidShift
  deriving DecidableEq, Repr

/-- A log entry (R44): the condition, the address of the reporting instruction, the cycle it executed in. -/
structure Report where
  kind : ReportKind
  pc : Word
  cycle : Nat
  deriving DecidableEq, Repr

/-- An in-flight record (R46). `instr` holds op, rs, rt, rd and imm; `result` is `none` for NONE. -/
structure Record where
  instr : Instr
  pc : Word
  rsVal : Word
  rtVal : Word
  result : Option Word
  deriving DecidableEq, Repr

/-- A pipeline slot: `none` is BUBBLE (R45). -/
abbrev Slot := Option Record

/-- The data memory (R48, R61): the cells that do not hold 0, by address, addresses strictly rising. A cell is one 32-bit word; the
spec gives the memory no bytes (notes/assumptions/2.md). -/
abbrev Memory := List (Nat × Word)

structure State where
  /-- general registers (R30, R31) -/
  regs : Vector Word 32
  /-- accumulators (R39) -/
  hi : Word
  lo : Word
  /-- program counter (R35) -/
  pc : Word
  /-- fetch-bubble flag (R40) -/
  fb : Bool
  /-- performance counters (R41) -/
  cycles : Nat
  instructionsRetired : Nat
  stalls : Nat
  fetched : Nat
  branchFetched : Nat
  /-- R43 -/
  status : Status
  /-- report log, oldest first (R44) -/
  log : List Report
  /-- the five slots (R45) -/
  slotIF : Slot
  slotID : Slot
  slotEX : Slot
  slotMEM : Slot
  slotWB : Slot
  /-- data memory (R48) -/
  dmem : Memory
  /-- configuration (R7, R283), never changed by a step: the instruction store (R49), the label map (R50), MAX_CYCLES (R148) -/
  prog : List Diw
  labels : LabelMap
  maxCycles : Nat
  deriving DecidableEq, Repr

/-- Why the machine stops. -/
inductive Fault where
  /-- Raised by `step` in a state whose status is CycleLimit: the block has stopped for good (R148, R255). Safe. -/
  | cycleLimit
  /-- Raised by the memory stage for a `lw` or `sw` whose result field is NONE: the spec gives no address to use. No run reaches such a
  state (notes/assumptions/8.md). Safe. -/
  | noEffectiveAddress
  deriving DecidableEq, Repr

/-- Why a step has no meaning. -/
inductive Refusal where
  /-- An instruction without a meaning yet; raised by `exec` alone. Safe. -/
  | notModelled (mnemonic : String)
  /-- The pre-run check `ProgramTooLarge`, code 1 (R250, R284): the store has `n` words. Safe: the spec says no run exists. -/
  | programTooLarge (n : Nat)
  /-- The pre-run check `IllegalInstruction`, code 2 (R250, R284): the first illegal word of the store. Safe. -/
  | illegalInstruction (index : Nat)
  /-- The pre-run check `UnresolvedLabel`, code 3 (R250, R284): the first word whose label has no entry. Also raised by decode when it
  meets such a record, which no run does (notes/assumptions/9.md). Safe. -/
  | unresolvedLabel (index : Nat)
  /-- MAX_CYCLES is 0, which R284 excludes; the name is the model's (notes/assumptions/6.md). Safe. -/
  | maxCyclesNotPositive
  deriving DecidableEq, Repr

/-- The state after reset for a configuration the host gave (R280). -/
def State.resetWith (prog : List Diw) (labels : LabelMap) (maxCycles : Nat) : State :=
  { regs := Vector.replicate 32 0
    hi := 0
    lo := 0
    pc := 0
    fb := false
    cycles := 0
    instructionsRetired := 0
    stalls := 0
    fetched := 0
    branchFetched := 0
    status := if prog = [] then .done else .running
    log := []
    slotIF := none
    slotID := none
    slotEX := none
    slotMEM := none
    slotWB := none
    dmem := []
    prog := prog
    labels := labels
    maxCycles := maxCycles }

/-- Right after reset, before the host has given a program: the empty store and label map (DESIGN CHOICE, notes/assumptions/3.md) and the
MAX_CYCLES of notes/assumptions/4.md (DESIGN CHOICE). With N = 0 the status is Done (R280). -/
def State.reset : State := State.resetWith [] [] Config.resetMaxCycles

end Sys2Proof.Machine
end

