-- ==== Sys2Proof/Machine/Ops.lean ====
section
/-!
DEFINITION. The named operations over registers, data memory, the report log, the program counter and the counters
(spec/00_scope.md R10, R11).

The block takes no exception and returns from none (spec/60_exceptions.md R256, R257). What stands in that place is the REPORT, one shared
operation: `appendReport` (R251).
-/
namespace Sys2Proof.Machine

/-- Sequencing of parts of a cycle: a fault or a refusal of the first part is that of the whole. -/
def andThen {α β : Type} (o : Host.Outcome α Fault Refusal) (f : α → Host.Outcome β Fault Refusal) : Host.Outcome β Fault Refusal :=
  match o with
  | .next a => f a
  | .fault r => .fault r
  | .refused r => .refused r

/-! Registers -/

/-- `x[r]` (R10): register 0 reads 0 (R31). -/
def readReg (s : State) (r : Reg) : Word :=
  if r = 0 then 0 else s.regs[r.toNat]'r.isLt

/-- `x[r] <- v` (R10): a write to register 0 is discarded (R31). -/
def writeReg (s : State) (r : Reg) (v : Word) : State :=
  if r = 0 then s else { s with regs := s.regs.set r.toNat v r.isLt }

/-! Data memory -/

/-- What a cell that the list does not hold reads as (R48, R65). -/
def unlistedCell : Word := 0

/-- The cell at an address (R65). -/
def memRead : Memory → Nat → Word
  | [], _ => unlistedCell
  | (b, u) :: m, a => if b = a then u else memRead m a

/-- Setting one cell (R65), keeping the list canonical. -/
def memWrite : Memory → Nat → Word → Memory
  | [], a, v => if v = unlistedCell then [] else [(a, v)]
  | (b, u) :: m, a, v =>
    if a < b then (if v = unlistedCell then (b, u) :: m else (a, v) :: (b, u) :: m)
    else if a = b then (if v = unlistedCell then m else (a, v) :: m)
    else (b, u) :: memWrite m a v

/-- The canonical form from address `lo` up: addresses strictly rising, within 32 bits, no cell that reads as an unlisted one. -/
def Memory.wfFrom : Nat → Memory → Bool
  | _, [] => true
  | lo, (a, v) :: m => decide (lo ≤ a) && decide (a < 2 ^ 32) && decide (v ≠ unlistedCell) && Memory.wfFrom (a + 1) m

/-- The memory is in canonical form. -/
def Memory.wf (m : Memory) : Bool := Memory.wfFrom 0 m

/-- `MemRead(a, 4)` (R10): every word address names a cell and none faults (R61, R63). -/
def loadWord (s : State) (a : Word) : Word := memRead s.dmem a.toNat

/-- `MemWrite(a, 4, v)` (R10): exactly the one cell changes (R61, R65). -/
def storeWord (s : State) (a v : Word) : State := { s with dmem := memWrite s.dmem a.toNat v }

/-! Reports (R11, R251): appended during the execute stage, stamped with the value `cycles` takes at the end of the cycle (R44, R252). -/

def appendReport (k : ReportKind) (r : Record) (s : State) : State :=
  { s with log := s.log ++ [{ kind := k, pc := r.pc, cycle := s.cycles + 1 }] }

/-! Program counter and fetch -/

/-- `pc[31:2]` as the store index (R114); the port `imem_index` of R8. -/
def imemIndex (pc : Word) : BitVec 30 := pc.extractLsb' 2 30

/-- The word of the store that `pc` addresses, if `pc` is not exhausted (R114). -/
def fetchedWord (s : State) : Option Diw := s.prog[(imemIndex s.pc).toNat]?

/-- `pc` is exhausted (R114). -/
def exhausted (s : State) : Bool := decide (s.prog.length ≤ (imemIndex s.pc).toNat)

/-- The record a fetch at `pc` makes of an instruction (R46, R90, R112): its address is 4 times the store index. -/
def fetchedRecord (i : Instr) (pc : Word) : Record :=
  { instr := i, pc := word (4 * ((imemIndex pc).toNat : Int)), rsVal := 0, rtVal := 0, result := none }

/-- What a fetch that returns `i` does to `pc` and the counters (R113, R115). -/
def countFetch (i : Instr) (s : State) : State :=
  { s with
    pc := word (uval s.pc + 4)
    fetched := s.fetched + 1
    branchFetched := if i.isControlFlow then s.branchFetched + 1 else s.branchFetched }

/-- One more cycle counted (R140 step 7). -/
def countCycle (s : State) : State := { s with cycles := s.cycles + 1 }

/-- The status codes (R250), port `status` of R8. -/
def statusCode : Status → Nat
  | .running => 0
  | .done => 1
  | .cycleLimit => 2

/-- The report codes (R250), port `report` of R8. -/
def reportCode : ReportKind → Nat
  | .divByZero => 1
  | .invalidShift => 2

/-- The codes of the configuration errors (R250); the model's own refusals have none. -/
def refusalCode : Refusal → Option Nat
  | .programTooLarge _ => some 1
  | .illegalInstruction _ => some 2
  | .unresolvedLabel _ => some 3
  | _ => none

end Sys2Proof.Machine
end

