-- ==== Sys2Proof/Machine/Configure.lean ====
section
/-!
DEFINITION. The configuration: the pre-run checks (spec/70_reset_and_hazards.md R284, spec/60_exceptions.md R259, R260) and placing a word
where the next fetch reads it.
-/
namespace Sys2Proof.Machine

/-- The store index of the first illegal word, counting from `k` (R259). -/
def firstIllegal (k : Nat) : List Diw → Option Nat
  | [] => none
  | d :: ds => match decode d with
    | .ok _ => firstIllegal (k + 1) ds
    | .error _ => some k

/-- The store index of the first word whose label has no entry, counting from `k` (R259). -/
def firstUnresolved (labels : LabelMap) (k : Nat) : List Diw → Option Nat
  | [] => none
  | d :: ds => match decode d with
    | .ok i => if i.wellFormed labels then firstUnresolved labels (k + 1) ds else some k
    | .error _ => firstUnresolved labels (k + 1) ds

/-- The pre-run checks in the order of R259; `none` when the configuration is accepted. The whole store is checked, including words a
run never reaches (R284). -/
def preRunRefusal (prog : List Diw) (labels : LabelMap) (maxCycles : Nat) : Option Refusal :=
  if storeSizeOk prog.length = false then some (.programTooLarge prog.length)
  else match firstIllegal 0 prog with
    | some k => some (.illegalInstruction k)
    | none => match firstUnresolved labels 0 prog with
      | some k => some (.unresolvedLabel k)
      | none => if maxCycles = 0 then some .maxCyclesNotPositive else none

/-- The state's configuration is one the spec accepts (R284). -/
def configured (s : State) : Bool := (preRunRefusal s.prog s.labels s.maxCycles).isNone

/-- The store with the word at index `k`, lengthened by `nop` words (0x0000000000000000, R240) where it is too short. -/
def placeWord : List Diw → Nat → Diw → List Diw
  | [], 0, d => [d]
  | [], k + 1, d => 0 :: placeWord [] k d
  | _ :: ds, 0, d => d :: ds
  | e :: ds, k + 1, d => e :: placeWord ds k d

/-- The label map, with an entry for the label of the word `d` where it has none: the address after the last word, `4*N` (D26). -/
def withLabelOf (labels : LabelMap) (n : Nat) (d : Diw) : LabelMap :=
  match decode d with
  | .error _ => labels
  | .ok i => match i.label? with
    | none => labels
    | some l => if (labelTarget labels l).isSome then labels else labels ++ [(l, word (4 * (n : Int)))]

/-- The state whose next cycle fetches `d` (notes/assumptions/10.md): `d` stands in the store at `pc`, the block runs, no bubble is armed
and nothing in ID can stall the fetch or redirect it. -/
def placeAtFetch (s : State) (d : Diw) : State :=
  let prog := placeWord s.prog (imemIndex s.pc).toNat d
  { s with
    prog := prog
    labels := withLabelOf s.labels prog.length d
    maxCycles := max s.maxCycles 1
    status := .running
    fb := false
    slotID := none }

end Sys2Proof.Machine
end

