-- ==== Sys2Proof/Machine/Flags.lean ====
section
/-!
DEFINITION. Comparisons. The block has no flags, condition codes or predicate registers (spec/10_state.md R38): conditional branches
compare two words in decode (R221), and `slt`/`slti` put 1 or 0 in a general register (R175, R180). The ordered compares are signed.
-/
namespace Sys2Proof.Machine

def condEq (a b : Word) : Bool := decide (a = b)
def condNe (a b : Word) : Bool := decide (a ≠ b)
def condLt (a b : Word) : Bool := decide (sval a < sval b)
def condGt (a b : Word) : Bool := decide (sval b < sval a)
def condLe (a b : Word) : Bool := decide (sval a ≤ sval b)
def condGe (a b : Word) : Bool := decide (sval b ≤ sval a)

/-- `c ? 1 : 0` as a word (R175, R180). -/
def boolWord (c : Bool) : Word := if c then 1 else 0

end Sys2Proof.Machine
end

