-- ==== Sys2Proof/Machine/Operands.lean ====
section
/-!
DEFINITION. The hazard detection and forwarding arbiter (spec/40_pipeline_engine.md sections 3 to 5): producers, decode-stage forwarding,
execute-stage forwarding and the load-use stall. Pure functions of the slots (R124).
-/
namespace Sys2Proof.Machine

/-- `some v` when the slot holds a producer of `r` (R13) and `v` is its result. -/
def producerOf (p : Slot) (r : Reg) : Option Word :=
  match p with
  | none => none
  | some rec => if r ≠ 0 ∧ rec.instr.dest = r then rec.result else none

/-- Decode-stage forwarding (R119): the nearest of `X1`, `M1`, `W0` that produces `r`, else the register file. -/
def operand (s : State) (x1 m1 w0 : Slot) (r : Reg) : Word :=
  if r = 0 then 0
  else match producerOf x1 r with
    | some v => v
    | none => match producerOf m1 r with
      | some v => v
      | none => match producerOf w0 r with
        | some v => v
        | none => readReg s r

/-- Operand capture (R118): both fields, for every opcode. -/
def capture (s : State) (x1 m1 w0 : Slot) (r : Record) : Record :=
  { r with rsVal := operand s x1 m1 w0 r.instr.rs, rtVal := operand s x1 m1 w0 r.instr.rt }

/-- The forwarding tags (R128). -/
inductive ForwardTag where
  | none
  | fromExecuteMemory
  | fromMemoryWriteback
  deriving DecidableEq, Repr

/-- Execute-stage forwarding tag of one register field, from the snapshot (R125). -/
def exTag (m0 w0 : Slot) (r : Reg) : ForwardTag :=
  if (producerOf m0 r).isSome then .fromExecuteMemory
  else if (producerOf w0 r).isSome then .fromMemoryWriteback
  else .none

/-- The result a slot carries. -/
def slotResult (p : Slot) : Option Word := p.bind Record.result

/-- Execute-stage forwarding value (R126): from the nearer producer after its memory step of this cycle. -/
def forwardValue (tag : ForwardTag) (m1 w0 : Slot) (own : Word) : Word :=
  match tag with
  | .none => own
  | .fromExecuteMemory => (slotResult m1).getD own
  | .fromMemoryWriteback => (slotResult w0).getD own

/-- Execute-stage forwarding of both fields, independently (R125, R126). -/
def forwardInto (m0 m1 w0 : Slot) (r : Record) : Record :=
  { r with
    rsVal := forwardValue (exTag m0 w0 r.instr.rs) m1 w0 r.rsVal
    rtVal := forwardValue (exTag m0 w0 r.instr.rt) m1 w0 r.rtVal }

/-- The slot holds a `lw` whose destination is a register field of `d` (R131). -/
def loadMatches (d : Record) (p : Slot) : Bool :=
  match p with
  | none => false
  | some rec => rec.instr.isLw && decide (rec.instr.rt ≠ 0) &&
      (decide (rec.instr.rt = d.instr.rs) || decide (rec.instr.rt = d.instr.rt))

/-- The load-use stall decision (R131), against the start-of-cycle EX and MEM occupants. -/
def loadUseStall (d x0 m0 : Slot) : Bool :=
  match d with
  | none => false
  | some rec => loadMatches rec x0 || loadMatches rec m0

end Sys2Proof.Machine
end

