-- ==== Sys2Proof/Machine/Stage.lean ====
section
/-!
DEFINITION. What an instruction is to the pipeline, and an instruction run alone.

`Stages` holds the part of an instruction's meaning that each stage function runs (spec/40_pipeline_engine.md R111). The cycle of
Sys2Proof/Machine/Cycle.lean and the meanings `exec…` use the same `Stages`, so an instruction means one thing.

`alone` is an instruction run by itself: fetched, decoded, executed, taken through memory, written back and retired, with nothing else in
the pipeline (notes/assumptions/1.md). It takes the six cycles of R300 and R240.
-/
namespace Sys2Proof.Machine

/-- The three stage functions an instruction has a part in; writeback is common to all (R138). The defaults are those of an instruction
that does nothing there (R120, R136, R231). -/
structure Stages where
  /-- branch resolution in decode (R221): the state after it, and the target when a branch or jump is taken -/
  resolve : State → Record → Host.Outcome (State × Option Word) Fault Refusal := fun s _ => .next (s, none)
  /-- execute (R134): the state after it, and the record's result -/
  execute : State → Record → State × Option Word := fun s r => (s, r.result)
  /-- memory (R136): the state after it, and the record's result -/
  memory : State → Record → Host.Outcome (State × Option Word) Fault Refusal := fun s r => .next (s, r.result)

/-- An instruction that only computes a result from its operands. -/
def computes (f : Record → Word) : Stages := { execute := fun s r => (s, some (f r)) }

/-- The writeback stage function (R138). -/
def writeback (s : State) (r : Record) : State :=
  match r.result with
  | none => s
  | some v => writeReg s r.instr.dest v

/-- A record leaving WB: writeback (R138), then retired and counted (R139). -/
def retire (s : State) (r : Record) : State :=
  { writeback s r with instructionsRetired := s.instructionsRetired + 1 }

/-- From the memory stage on, alone: the memory cycle, then the writeback cycle. -/
def finishFromMemory (m : Stages) (s : State) (r : Record) : Host.Outcome State Fault Refusal :=
  andThen (m.memory s r) fun p => .next (countCycle (retire (countCycle p.1) { r with result := p.2 }))

/-- From the execute stage on, alone. -/
def finishFromExecute (m : Stages) (s : State) (r : Record) : Host.Outcome State Fault Refusal :=
  finishFromMemory m (countCycle (m.execute s r).1) { r with result := (m.execute s r).2 }

/-- From the decode stage on, alone: operands come from the register file, a taken branch sets `pc` (R143), and a bubble armed in decode
is consumed in the same cycle (R144, R145). -/
def finishFromDecode (m : Stages) (s : State) (r : Record) : Host.Outcome State Fault Refusal :=
  andThen (m.resolve s (capture s none none none r)) fun p =>
    finishFromExecute m (countCycle { p.1 with pc := p.2.getD p.1.pc, fb := s.fb }) (capture s none none none r)

/-- An instruction alone: its fetch, one cycle in IF, then decode and the rest. A bubble armed at its fetch is consumed while it moves to
ID (R116, R144), so `fb` is as before. -/
def alone (i : Instr) (m : Stages) (s : State) : Host.Outcome State Fault Refusal :=
  finishFromDecode m (countCycle (countCycle (countFetch i s))) (fetchedRecord i s.pc)

end Sys2Proof.Machine
end

