-- ==== Sys2Proof/Machine/Alu.lean ====
section
/-!
DEFINITION. Arithmetic and logic (spec/41_alu.md). Every instruction computes one word in execute and writes it back (R170); nothing
reports an overflow.
-/
namespace Sys2Proof.Machine

/-- R171: `w(u(a) + u(b))` -/
def addStages : Stages := computes fun r => word (uval r.rsVal + uval r.rtVal)

def execAdd (rd rs rt : Reg) (s : State) : Host.Outcome State Fault Refusal := alone (.add rd rs rt) addStages s

/-- R172: `w(u(a) - u(b))` -/
def subStages : Stages := computes fun r => word (uval r.rsVal - uval r.rtVal)

def execSub (rd rs rt : Reg) (s : State) : Host.Outcome State Fault Refusal := alone (.sub rd rs rt) subStages s

/-- R173: `a & b` -/
def andStages : Stages := computes fun r => r.rsVal &&& r.rtVal

def execAnd (rd rs rt : Reg) (s : State) : Host.Outcome State Fault Refusal := alone (.and rd rs rt) andStages s

/-- R174: `a | b` -/
def orStages : Stages := computes fun r => r.rsVal ||| r.rtVal

def execOr (rd rs rt : Reg) (s : State) : Host.Outcome State Fault Refusal := alone (.or rd rs rt) orStages s

/-- R175: `(s(a) < s(b)) ? 1 : 0` -/
def sltStages : Stages := computes fun r => boolWord (condLt r.rsVal r.rtVal)

def execSlt (rd rs rt : Reg) (s : State) : Host.Outcome State Fault Refusal := alone (.slt rd rs rt) sltStages s

/-- R176: `~(a | b)` -/
def norStages : Stages := computes fun r => ~~~(r.rsVal ||| r.rtVal)

def execNor (rd rs rt : Reg) (s : State) : Host.Outcome State Fault Refusal := alone (.nor rd rs rt) norStages s

/-- R177: `w(u(a) + u(imm))` -/
def addiStages (imm : Word) : Stages := computes fun r => word (uval r.rsVal + uval imm)

def execAddi (rt rs : Reg) (imm : Word) (s : State) : Host.Outcome State Fault Refusal := alone (.addi rt rs imm) (addiStages imm) s

/-- R178: `a & imm` -/
def andiStages (imm : Word) : Stages := computes fun r => r.rsVal &&& imm

def execAndi (rt rs : Reg) (imm : Word) (s : State) : Host.Outcome State Fault Refusal := alone (.andi rt rs imm) (andiStages imm) s

/-- R179: `a | imm` -/
def oriStages (imm : Word) : Stages := computes fun r => r.rsVal ||| imm

def execOri (rt rs : Reg) (imm : Word) (s : State) : Host.Outcome State Fault Refusal := alone (.ori rt rs imm) (oriStages imm) s

/-- R180: `(s(a) < s(imm)) ? 1 : 0` -/
def sltiStages (imm : Word) : Stages := computes fun r => boolWord (condLt r.rsVal imm)

def execSlti (rt rs : Reg) (imm : Word) (s : State) : Host.Outcome State Fault Refusal := alone (.slti rt rs imm) (sltiStages imm) s

end Sys2Proof.Machine
end

