-- ==== Sys2Proof/Machine/Control.lean ====
section
/-!
DEFINITION. The branch resolution unit and the control-flow instructions (spec/45_control.md). All are resolved in decode (R220, R221)
and do nothing later (R231).
-/
namespace Sys2Proof.Machine

/-- Taking a branch or jump to a label (R221): the target is `LABELS(label)` verbatim. A label with no entry is refused before the run
(R284); a record that carries one all the same is refused here (notes/assumptions/9.md). -/
def takeLabel (label : Word) (s : State) (r : Record) : Host.Outcome (State × Option Word) Fault Refusal :=
  match labelTarget s.labels label with
  | some t => .next (s, some t)
  | none => .refused (.unresolvedLabel (imemIndex r.pc).toNat)

/-- Resolving a conditional branch (R221): not taken, it leaves `pc` as it is. -/
def branchResolve (cond : Word → Word → Bool) (label : Word) (s : State) (r : Record) :
    Host.Outcome (State × Option Word) Fault Refusal :=
  if cond r.rsVal r.rtVal then takeLabel label s r else .next (s, none)

/-- Resolving `jal` (R229): the link is the instruction's own address plus 4, written in decode. -/
def jalResolve (label : Word) (s : State) (r : Record) : Host.Outcome (State × Option Word) Fault Refusal :=
  takeLabel label (writeReg s Config.linkReg (word (uval r.pc + 4))) r

/-- Resolving `jr` (R230, R145): the target is the captured `rs` value, and a second bubble is armed. -/
def jrResolve (s : State) (r : Record) : Host.Outcome (State × Option Word) Fault Refusal :=
  .next ({ s with fb := true }, some r.rsVal)

/-- R228 -/
def jStages (label : Word) : Stages := { resolve := takeLabel label }

def execJ (label : Word) (s : State) : Host.Outcome State Fault Refusal := alone (.j label) (jStages label) s

/-- R229 -/
def jalStages (label : Word) : Stages := { resolve := jalResolve label }

def execJal (label : Word) (s : State) : Host.Outcome State Fault Refusal := alone (.jal label) (jalStages label) s

/-- R230 -/
def jrStages : Stages := { resolve := jrResolve }

def execJr (rs : Reg) (s : State) : Host.Outcome State Fault Refusal := alone (.jr rs) jrStages s

/-- R222 -/
def beqStages (label : Word) : Stages := { resolve := branchResolve condEq label }

def execBeq (rs rt : Reg) (label : Word) (s : State) : Host.Outcome State Fault Refusal := alone (.beq rs rt label) (beqStages label) s

/-- R223 -/
def bneStages (label : Word) : Stages := { resolve := branchResolve condNe label }

def execBne (rs rt : Reg) (label : Word) (s : State) : Host.Outcome State Fault Refusal := alone (.bne rs rt label) (bneStages label) s

/-- R224 -/
def bltStages (label : Word) : Stages := { resolve := branchResolve condLt label }

def execBlt (rs rt : Reg) (label : Word) (s : State) : Host.Outcome State Fault Refusal := alone (.blt rs rt label) (bltStages label) s

/-- R225 -/
def bgtStages (label : Word) : Stages := { resolve := branchResolve condGt label }

def execBgt (rs rt : Reg) (label : Word) (s : State) : Host.Outcome State Fault Refusal := alone (.bgt rs rt label) (bgtStages label) s

/-- R226 -/
def bleStages (label : Word) : Stages := { resolve := branchResolve condLe label }

def execBle (rs rt : Reg) (label : Word) (s : State) : Host.Outcome State Fault Refusal := alone (.ble rs rt label) (bleStages label) s

/-- R227 -/
def bgeStages (label : Word) : Stages := { resolve := branchResolve condGe label }

def execBge (rs rt : Reg) (label : Word) (s : State) : Host.Outcome State Fault Refusal := alone (.bge rs rt label) (bgeStages label) s

end Sys2Proof.Machine
end

