-- ==== Sys2Proof/Machine/LoadStore.lean ====
section
/-!
DEFINITION. Load and store word (spec/44_loadstore.md).
-/
namespace Sys2Proof.Machine

/-- The effective address (R210, R64): the sum wraps modulo 2^32. -/
def effectiveAddress (base imm : Word) : Word := word (uval base + uval imm)

/-- The execute step: the result field holds the address; no memory access happens (R210). -/
def addressExecute (imm : Word) (s : State) (r : Record) : State × Option Word :=
  (s, some (effectiveAddress r.rsVal imm))

/-- The memory step of `lw` (R136, R211): the loaded word replaces the address. -/
def loadMemory (s : State) (r : Record) : Host.Outcome (State × Option Word) Fault Refusal :=
  match r.result with
  | some a => .next (s, some (loadWord s a))
  | none => .fault .noEffectiveAddress

/-- The memory step of `sw` (R136, R212): the captured `rt` value is stored. -/
def storeMemory (s : State) (r : Record) : Host.Outcome (State × Option Word) Fault Refusal :=
  match r.result with
  | some a => .next (storeWord s a r.rtVal, some a)
  | none => .fault .noEffectiveAddress

/-- R211 -/
def lwStages (imm : Word) : Stages := { execute := addressExecute imm, memory := loadMemory }

def execLw (rt rs : Reg) (imm : Word) (s : State) : Host.Outcome State Fault Refusal := alone (.lw rt rs imm) (lwStages imm) s

/-- R212 -/
def swStages (imm : Word) : Stages := { execute := addressExecute imm, memory := storeMemory }

def execSw (rt rs : Reg) (imm : Word) (s : State) : Host.Outcome State Fault Refusal := alone (.sw rt rs imm) (swStages imm) s

end Sys2Proof.Machine
end

