-- ==== Sys2Proof/Machine/MulDiv.lean ====
section
/-!
DEFINITION. Multiply, divide and Hi/Lo moves (spec/42_muldiv.md). All work is done in execute (R190).
-/
namespace Sys2Proof.Machine

/-- Writing the accumulators (R39). -/
def setHiLo (s : State) (hi lo : Word) : State := { s with hi := hi, lo := lo }

/-- The exact signed product (R191); `q = p mod 2^64` splits into `w(q >> 32)` and `w(q)`. -/
def productHi (a b : Word) : Word := word (((sval a * sval b) % 2 ^ 64) >>> 32)
def productLo (a b : Word) : Word := word ((sval a * sval b) % 2 ^ 64)

/-- Quotient rounded toward zero, and the remainder with the sign of the dividend (R192). -/
def quotient (a b : Word) : Word := word (Int.tdiv (sval a) (sval b))
def remainder (a b : Word) : Word := word (Int.tmod (sval a) (sval b))

/-- The execute step of `mult` (R191): the result carried is LO, which nothing writes to a general register (R190). -/
def multExecute (s : State) (r : Record) : State × Option Word :=
  (setHiLo s (productHi r.rsVal r.rtVal) (productLo r.rsVal r.rtVal), some (productLo r.rsVal r.rtVal))

/-- The execute step of `div` (R192, R253): by zero, zeros and one report, and execution continues. -/
def divExecute (s : State) (r : Record) : State × Option Word :=
  if r.rtVal = 0 then (appendReport .divByZero r (setHiLo s 0 0), some 0)
  else (setHiLo s (remainder r.rsVal r.rtVal) (quotient r.rsVal r.rtVal), some (quotient r.rsVal r.rtVal))

/-- R191 -/
def multStages : Stages := { execute := multExecute }

def execMult (rs rt : Reg) (s : State) : Host.Outcome State Fault Refusal := alone (.mult rs rt) multStages s

/-- R192 -/
def divStages : Stages := { execute := divExecute }

def execDiv (rs rt : Reg) (s : State) : Host.Outcome State Fault Refusal := alone (.div rs rt) divStages s

/-- R193 -/
def mfhiStages : Stages := { execute := fun s _ => (s, some s.hi) }

def execMfhi (rd : Reg) (s : State) : Host.Outcome State Fault Refusal := alone (.mfhi rd) mfhiStages s

/-- R194 -/
def mfloStages : Stages := { execute := fun s _ => (s, some s.lo) }

def execMflo (rd : Reg) (s : State) : Host.Outcome State Fault Refusal := alone (.mflo rd) mfloStages s

end Sys2Proof.Machine
end

