-- ==== Sys2Proof/Machine/Nop.lean ====
section
/-!
DEFINITION. No-operation (spec/46_nop.md).
-/
namespace Sys2Proof.Machine

/-- R240 -/
def nopStages : Stages := {}

def execNop (s : State) : Host.Outcome State Fault Refusal := alone .nop nopStages s

end Sys2Proof.Machine
end

