-- ==== Sys2Proof/Machine/Shift.lean ====
section
/-!
DEFINITION. Shifts by the immediate amount (spec/43_shift.md).
-/
namespace Sys2Proof.Machine

/-- The distance of a shift by a non-negative amount. R200: an amount of 32 or more shifts every bit out, so it acts as 32 does
(notes/assumptions/12.md); the cap keeps the powers of two small. -/
def shiftDistance (imm : Word) : Nat := min (sval imm).toNat 32

/-- The execute step of a shift (R200, R254): a negative amount gives no result and one report. -/
def shiftExecute (f : Word → Nat → Word) (imm : Word) (s : State) (r : Record) : State × Option Word :=
  if sval imm < 0 then (appendReport .invalidShift r s, none)
  else (s, some (f r.rsVal (shiftDistance imm)))

/-- `w(u(a) << n)` (R201) -/
def shiftLeft (a : Word) (n : Nat) : Word := word (uval a * 2 ^ n)
/-- `w(u(a) >> n)` (R202) -/
def shiftRight (a : Word) (n : Nat) : Word := word (uval a >>> n)
/-- `w(s(a) >> n)` (R203) -/
def shiftRightSigned (a : Word) (n : Nat) : Word := word (sval a >>> n)

/-- R201 -/
def sllStages (imm : Word) : Stages := { execute := shiftExecute shiftLeft imm }

def execSll (rt rs : Reg) (imm : Word) (s : State) : Host.Outcome State Fault Refusal := alone (.sll rt rs imm) (sllStages imm) s

/-- R202 -/
def srlStages (imm : Word) : Stages := { execute := shiftExecute shiftRight imm }

def execSrl (rt rs : Reg) (imm : Word) (s : State) : Host.Outcome State Fault Refusal := alone (.srl rt rs imm) (srlStages imm) s

/-- R203 -/
def sraStages (imm : Word) : Stages := { execute := shiftExecute shiftRightSigned imm }

def execSra (rt rs : Reg) (imm : Word) (s : State) : Host.Outcome State Fault Refusal := alone (.sra rt rs imm) (sraStages imm) s

end Sys2Proof.Machine
end

