-- ==== Sys2Proof/Machine/StagesOf.lean ====
section
/-!
DEFINITION. The stage functions of each instruction, for the cycle: the same `Stages` its meaning is made of. One arm per constructor.
-/
namespace Sys2Proof.Machine

def stagesOf (i : Instr) : Stages :=
  match i with
  | .nop => nopStages
  | .add _ _ _ => addStages
  | .sub _ _ _ => subStages
  | .and _ _ _ => andStages
  | .or _ _ _ => orStages
  | .slt _ _ _ => sltStages
  | .nor _ _ _ => norStages
  | .addi _ _ imm => addiStages imm
  | .andi _ _ imm => andiStages imm
  | .ori _ _ imm => oriStages imm
  | .slti _ _ imm => sltiStages imm
  | .mult _ _ => multStages
  | .div _ _ => divStages
  | .mfhi _ => mfhiStages
  | .mflo _ => mfloStages
  | .sll _ _ imm => sllStages imm
  | .srl _ _ imm => srlStages imm
  | .sra _ _ imm => sraStages imm
  | .lw _ _ imm => lwStages imm
  | .sw _ _ imm => swStages imm
  | .j label => jStages label
  | .jal label => jalStages label
  | .jr _ => jrStages
  | .beq _ _ label => beqStages label
  | .bne _ _ label => bneStages label
  | .blt _ _ label => bltStages label
  | .bgt _ _ label => bgtStages label
  | .ble _ _ label => bleStages label
  | .bge _ _ label => bgeStages label

end Sys2Proof.Machine
end

