-- ==== Sys2Proof/Machine/Cycle.lean ====
section
/-!
DEFINITION. One clock cycle: the seven steps of spec/40_pipeline_engine.md R140, in its order, with every later step seeing what an
earlier one wrote.
-/
namespace Sys2Proof.Machine

/-- Step 2: the WB occupant is written back and retired (R138, R139). -/
def commitSlot (s : State) (w0 : Slot) : State :=
  match w0 with
  | none => s
  | some r => retire s r

/-- Step 3, memory stage function (R136). -/
def memorySlot (s : State) (m0 : Slot) : Host.Outcome (State × Slot) Fault Refusal :=
  match m0 with
  | none => .next (s, none)
  | some r => andThen ((stagesOf r.instr).memory s r) fun p => .next (p.1, some { r with result := p.2 })

/-- Step 3, execute stage function, with execute-stage forwarding (R134, R125, R126). -/
def executeSlot (s : State) (x0 m0 m1 w0 : Slot) : State × Slot :=
  match x0 with
  | none => (s, none)
  | some r =>
    let e := forwardInto m0 m1 w0 r
    (((stagesOf r.instr).execute s e).1, some { e with result := ((stagesOf r.instr).execute s e).2 })

/-- Step 5: decode with operand capture and branch resolution (R118-R121); a taken branch sets `pc` at once (R143). `jr` arms the
fetch bubble in its resolution (R145). -/
def decodeSlot (s : State) (d x1 m1 w0 : Slot) : Host.Outcome State Fault Refusal :=
  match d with
  | none => .next { s with slotEX := none }
  | some r =>
    let e := capture s x1 m1 w0 r
    andThen ((stagesOf r.instr).resolve s e) fun p => .next { p.1 with slotEX := some e, pc := p.2.getD p.1.pc }

/-- Step 6, second half: a bubble when one is armed (R144), else a fetch (R112-R116). An illegal word is refused before the run (R284)
and never met here in one. -/
def fetchSlot (s : State) : Host.Outcome State Fault Refusal :=
  if s.fb then .next { s with slotIF := none, fb := false }
  else match fetchedWord s with
    | none => .next { s with slotIF := none }
    | some d => match decode d with
      | .ok i => .next { countFetch i s with slotIF := some (fetchedRecord i s.pc), fb := i.isControlFlow }
      | .error _ => .refused (.illegalInstruction (imemIndex s.pc).toNat)

/-- All five slots hold BUBBLE. -/
def drained (s : State) : Bool :=
  s.slotIF.isNone && s.slotID.isNone && s.slotEX.isNone && s.slotMEM.isNone && s.slotWB.isNone

/-- Step 7: the cycle is counted, then the normal end is tested before the safety limit (R147, R148). -/
def endCycle (s : State) : State :=
  let t := countCycle s
  if exhausted t && drained t then { t with status := .done }
  else if t.maxCycles ≤ t.cycles then { t with status := .cycleLimit }
  else t

/-- Step 4, the stall path (R132): a bubble into EX, and steps 5 and 6 do not run. -/
def stallCycle (s : State) : State := { s with slotEX := none, stalls := s.stalls + 1 }

/-- Steps 5 and 6: ID into EX, IF into ID, then fetch or bubble (R142). -/
def advance (s : State) (x1 m1 w0 : Slot) : Host.Outcome State Fault Refusal :=
  andThen (decodeSlot s s.slotID x1 m1 w0) fun t => fetchSlot { t with slotID := t.slotIF }

/-- One cycle of a running block (R140). The snapshot of step 1 is `s.slotEX`, `s.slotMEM`, `s.slotWB` (R141). -/
def cycle (s : State) : Host.Outcome State Fault Refusal :=
  andThen (memorySlot (commitSlot s s.slotWB) s.slotMEM) fun p =>
    let x := executeSlot p.1 s.slotEX s.slotMEM p.2 s.slotWB
    let t := { x.1 with slotWB := p.2, slotMEM := x.2 }
    if loadUseStall t.slotID s.slotEX s.slotMEM then .next (endCycle (stallCycle t))
    else andThen (advance t x.2 p.2 s.slotWB) fun u => .next (endCycle u)

end Sys2Proof.Machine
end

