-- ==== Sys2Proof/Machine/Dispatch.lean ====
section
/-!
DEFINITION. The dispatch: the meaning of each instruction, run alone (see Sys2Proof/Machine/Stage.lean and notes/assumptions/1.md). One arm
per constructor.
-/
namespace Sys2Proof.Machine

def exec (i : Instr) (s : State) : Host.Outcome State Fault Refusal :=
  match i with
  | .nop => Sys2Proof.Machine.execNop s
  | .add rd rs rt => Sys2Proof.Machine.execAdd rd rs rt s
  | .sub rd rs rt => Sys2Proof.Machine.execSub rd rs rt s
  | .and rd rs rt => Sys2Proof.Machine.execAnd rd rs rt s
  | .or rd rs rt => Sys2Proof.Machine.execOr rd rs rt s
  | .slt rd rs rt => Sys2Proof.Machine.execSlt rd rs rt s
  | .nor rd rs rt => Sys2Proof.Machine.execNor rd rs rt s
  | .addi rt rs imm => Sys2Proof.Machine.execAddi rt rs imm s
  | .andi rt rs imm => Sys2Proof.Machine.execAndi rt rs imm s
  | .ori rt rs imm => Sys2Proof.Machine.execOri rt rs imm s
  | .slti rt rs imm => Sys2Proof.Machine.execSlti rt rs imm s
  | .mult rs rt => Sys2Proof.Machine.execMult rs rt s
  | .div rs rt => Sys2Proof.Machine.execDiv rs rt s
  | .mfhi rd => Sys2Proof.Machine.execMfhi rd s
  | .mflo rd => Sys2Proof.Machine.execMflo rd s
  | .sll rt rs imm => Sys2Proof.Machine.execSll rt rs imm s
  | .srl rt rs imm => Sys2Proof.Machine.execSrl rt rs imm s
  | .sra rt rs imm => Sys2Proof.Machine.execSra rt rs imm s
  | .lw rt rs imm => Sys2Proof.Machine.execLw rt rs imm s
  | .sw rt rs imm => Sys2Proof.Machine.execSw rt rs imm s
  | .j label => Sys2Proof.Machine.execJ label s
  | .jal label => Sys2Proof.Machine.execJal label s
  | .jr rs => Sys2Proof.Machine.execJr rs s
  | .beq rs rt label => Sys2Proof.Machine.execBeq rs rt label s
  | .bne rs rt label => Sys2Proof.Machine.execBne rs rt label s
  | .blt rs rt label => Sys2Proof.Machine.execBlt rs rt label s
  | .bgt rs rt label => Sys2Proof.Machine.execBgt rs rt label s
  | .ble rs rt label => Sys2Proof.Machine.execBle rs rt label s
  | .bge rs rt label => Sys2Proof.Machine.execBge rs rt label s

end Sys2Proof.Machine
end

