-- ==== Sys2Proof/Machine/HostPort.lean ====
section
/-!
DEFINITION. What the host sees and does (spec/00_scope.md R8): the fetch port, reset, the per-cycle snapshot (spec/60_exceptions.md R266)
and the final report (R267). Reading changes nothing (R285).
-/
namespace Sys2Proof.Machine

/-- Ports `imem_valid` and `imem_word` of R8. -/
def imemValid (s : State) : Bool := !exhausted s
def imemWord (s : State) : Option Diw := fetchedWord s

/-- Port `rst`: the synchronous reset (R280, R285); the configuration stays. -/
def hostReset (s : State) : State := State.resetWith s.prog s.labels s.maxCycles

/-- Before the first cycle the host checks the configuration and resets the block (R283, R284). -/
def boot (prog : List Diw) (labels : LabelMap) (maxCycles : Nat) : Host.Outcome State Fault Refusal :=
  match preRunRefusal prog labels maxCycles with
  | some r => .refused r
  | none => .next (State.resetWith prog labels maxCycles)

/-- An occupant by its opcode name, or `none` for BUBBLE (R266). -/
def occupant (p : Slot) : Option String := p.map fun r => r.instr.mnemonic

/-- The read-only snapshot (R266). -/
structure Snapshot where
  occupants : List (Option String)
  regs : List Word
  hi : Word
  lo : Word
  dmem : Memory
  pc : Word
  cycles : Nat
  instructionsRetired : Nat
  stalls : Nat
  fetched : Nat
  branchFetched : Nat
  status : Nat
  log : List Report
  deriving DecidableEq, Repr

def snapshot (s : State) : Snapshot :=
  { occupants := [occupant s.slotIF, occupant s.slotID, occupant s.slotEX, occupant s.slotMEM, occupant s.slotWB]
    regs := (List.range 32).map fun k => readReg s (BitVec.ofNat 5 k)
    hi := s.hi
    lo := s.lo
    dmem := s.dmem
    pc := s.pc
    cycles := s.cycles
    instructionsRetired := s.instructionsRetired
    stalls := s.stalls
    fetched := s.fetched
    branchFetched := s.branchFetched
    status := statusCode s.status
    log := s.log }

/-- An exact quotient, absent when the denominator is 0 (R42). -/
def ratio (a b : Nat) : Option Rat := if b = 0 then none else some ((a : Rat) / (b : Rat))

/-- The two derived figures (R42). -/
def cpi (s : State) : Option Rat := ratio s.cycles s.instructionsRetired
def branchFrequency (s : State) : Option Rat := ratio s.branchFetched s.fetched

/-- The final report (R267): it exists once the status is Done or CycleLimit. -/
structure FinalReport where
  cycles : Nat
  instructionsRetired : Nat
  stalls : Nat
  fetched : Nat
  branchFetched : Nat
  cpi : Option Rat
  branchFrequency : Option Rat
  deriving DecidableEq, Repr

def finalReport (s : State) : Option FinalReport :=
  if s.status = .running then none
  else some
    { cycles := s.cycles
      instructionsRetired := s.instructionsRetired
      stalls := s.stalls
      fetched := s.fetched
      branchFetched := s.branchFetched
      cpi := cpi s
      branchFrequency := branchFrequency s }

end Sys2Proof.Machine
end

