-- ==== Sys2Proof/Machine/Step.lean ====
section
/-!
DEFINITION. The step of the machine: one clock cycle (spec/00_scope.md R6, spec/40_pipeline_engine.md R140).
-/
namespace Sys2Proof.Machine

/-- A configuration the pre-run checks refuse has no run (R284), so a state that holds one has no step. While the status is Running one
cycle runs (R140); once it is Done nothing changes (R43), and at CycleLimit the block has stopped for good (R148, R255;
notes/assumptions/5.md). -/
def step (s : State) : Host.Outcome State Fault Refusal :=
  match preRunRefusal s.prog s.labels s.maxCycles with
  | some r => .refused r
  | none => match s.status with
    | .running => cycle s
    | .done => .next s
    | .cycleLimit => .fault .cycleLimit

/-- `s` with the word of a table row placed where the next cycle fetches (notes/assumptions/10.md). -/
def State.withFetchWord (s : State) (nbits w : Nat) : State :=
  placeAtFetch s (BitVec.ofNat 64 (w % 2 ^ nbits))

end Sys2Proof.Machine
end

