-- ==== Sys2Proof/Safety.lean ====
section
/-!
DEFINITION. The terms in which claims about runs are stated: what a program can see apart from timing, draining the pipeline, and the
invariants of the block. Sources: spec/70_reset_and_hazards.md sections 3 and 4, spec/40_pipeline_engine.md section 8.
-/
namespace Sys2Proof.Machine

/-! ## Results without timing -/

/-- What a run computes, apart from timing (spec/70, section 4): the cycle and stall counters, the cycle stamps of reports, and the
state of the pipeline are left out. -/
structure Arch where
  regs : Vector Word 32
  hi : Word
  lo : Word
  pc : Word
  dmem : Memory
  reports : List (ReportKind × Word)
  instructionsRetired : Nat
  fetched : Nat
  branchFetched : Nat
  deriving DecidableEq, Repr

def archOf (s : State) : Arch :=
  { regs := s.regs
    hi := s.hi
    lo := s.lo
    pc := s.pc
    dmem := s.dmem
    reports := s.log.map fun e => (e.kind, e.pc)
    instructionsRetired := s.instructionsRetired
    fetched := s.fetched
    branchFetched := s.branchFetched }

/-! ## Draining: the records in flight finish one after another, oldest first, and nothing is fetched -/

def drainMemory (s : State) (p : Slot) : Host.Outcome State Fault Refusal :=
  match p with
  | none => .next s
  | some r => finishFromMemory (stagesOf r.instr) s r

def drainExecute (s : State) (p : Slot) : Host.Outcome State Fault Refusal :=
  match p with
  | none => .next s
  | some r => finishFromExecute (stagesOf r.instr) s r

def drainDecode (s : State) (p : Slot) : Host.Outcome State Fault Refusal :=
  match p with
  | none => .next s
  | some r => finishFromDecode (stagesOf r.instr) s r

/-- The state once the records in flight have finished in program order (spec/70, section 3). -/
def drain (s : State) : Host.Outcome State Fault Refusal :=
  andThen (drainMemory (commitSlot s s.slotWB) s.slotMEM) fun a =>
    andThen (drainExecute a s.slotEX) fun b =>
      andThen (drainDecode b s.slotID) fun c => drainDecode c s.slotIF

/-- The instruction is `jal`. -/
def isJal : Instr → Bool
  | .jal _ => true
  | _ => false

/-- The instruction is `lw` or `sw`. -/
def isLoadOrStore : Instr → Bool
  | .lw _ _ _ => true
  | .sw _ _ _ => true
  | _ => false

/-- A Bool of the record in a slot, false for BUBBLE. -/
def slotHas (p : Slot) (f : Record → Bool) : Bool :=
  match p with
  | none => false
  | some r => f r

/-- The hazard of R294: `jal` is in ID and an older record that names register 31 as its destination has not reached WB. -/
def linkHazard (s : State) : Bool :=
  slotHas s.slotID (fun r => isJal r.instr) &&
    (slotHas s.slotEX (fun r => decide (r.instr.dest = Config.linkReg)) ||
      slotHas s.slotMEM (fun r => decide (r.instr.dest = Config.linkReg)))

/-! ## Invariants (each an abbreviation of a decidable proposition) -/

/-- The data memory is in canonical form (notes/assumptions/2.md). -/
abbrev MemoryOk (s : State) : Prop := Memory.wf s.dmem = true

/-- The stored register 0 is 0 (R31). -/
abbrev ZeroRegisterOk (s : State) : Prop := s.regs[0] = 0

/-- The slot holds a control-flow record. -/
def holdsControlFlow (p : Slot) : Bool := slotHas p fun r => r.instr.isControlFlow

/-- The fetch-bubble flag is armed exactly while IF holds a control-flow record (R116, R144), and behind a control-flow record in ID
stands a bubble (R152). -/
abbrev FetchFlagOk (s : State) : Prop :=
  s.fb = holdsControlFlow s.slotIF ∧ (holdsControlFlow s.slotID = true → s.slotIF = none)

/-- The record is what a fetch made of the word at its own address (R46, R90). -/
abbrev fromStore (prog : List Diw) (r : Record) : Prop :=
  r.pc = word (4 * ((imemIndex r.pc).toNat : Int)) ∧
    (prog[(imemIndex r.pc).toNat]?.bind fun d => (decode d).toOption) = some r.instr

/-- A property of the record in a slot, if there is one. -/
abbrev slotAll (p : Slot) (φ : Record → Prop) : Prop := ∀ r ∈ p, φ r

/-- Every record in flight comes from the store (R46, R47, R49). -/
abbrev RecordsOk (s : State) : Prop :=
  slotAll s.slotIF (fromStore s.prog) ∧ slotAll s.slotID (fromStore s.prog) ∧ slotAll s.slotEX (fromStore s.prog) ∧
    slotAll s.slotMEM (fromStore s.prog) ∧ slotAll s.slotWB (fromStore s.prog)

/-- The runtime fields are as the stages a record has passed leave them (R46): nothing captured before decode, no result before execute,
and an address for a `lw` or `sw` that has executed (R210). -/
abbrev RuntimeFieldsOk (s : State) : Prop :=
  slotAll s.slotIF (fun r => r.rsVal = 0 ∧ r.rtVal = 0 ∧ r.result = none) ∧
  slotAll s.slotID (fun r => r.rsVal = 0 ∧ r.rtVal = 0 ∧ r.result = none) ∧
  slotAll s.slotEX (fun r => r.result = none) ∧
  slotAll s.slotMEM (fun r => isLoadOrStore r.instr = true → r.result.isSome = true)

/-- The value captured for field `r` of the record in EX is the one the slots ahead of it and the register file give, and the slot just
ahead is no load of that register (R129, R133). -/
abbrev capturedOk (s : State) (r : Reg) (v : Word) : Prop :=
  v = operand s none s.slotMEM s.slotWB r ∧
    (r ≠ 0 → slotAll s.slotMEM fun p => p.instr.isLw = true → p.instr.dest ≠ r)

/-- Operand coherence of the record in EX (R129). -/
abbrev OperandsOk (s : State) : Prop :=
  slotAll s.slotEX fun r => capturedOk s r.instr.rs r.rsVal ∧ capturedOk s r.instr.rt r.rtVal

/-- 1 for an occupied slot. -/
def occupancy (p : Slot) : Nat := if p.isSome then 1 else 0

/-- Every instruction fetched is retired or still in flight (R47, R139), control-flow fetches are fetches, and a cycle makes at most one
fetch or one stall (R41, R301). -/
abbrev CountersOk (s : State) : Prop :=
  s.fetched = s.instructionsRetired + occupancy s.slotIF + occupancy s.slotID + occupancy s.slotEX + occupancy s.slotMEM +
      occupancy s.slotWB ∧
    s.branchFetched ≤ s.fetched ∧ s.stalls + s.fetched ≤ s.cycles

/-- The reports of a run have strictly increasing cycle fields, none later than now (R252). -/
abbrev LogOk (s : State) : Prop :=
  s.log.Pairwise (fun a b => a.cycle < b.cycle) ∧ ∀ e ∈ s.log, 0 < e.cycle ∧ e.cycle ≤ s.cycles

/-- The status says how the run stands (R43, R147, R148). -/
abbrev StatusOk (s : State) : Prop :=
  (s.status = .done → exhausted s = true ∧ drained s = true) ∧
    (s.status = .running → (exhausted s && drained s) = false ∧ s.cycles < s.maxCycles)

/-- All invariants of the block. -/
structure Inv (s : State) : Prop where
  memory : MemoryOk s
  zeroRegister : ZeroRegisterOk s
  fetchFlag : FetchFlagOk s
  records : RecordsOk s
  runtimeFields : RuntimeFieldsOk s
  operands : OperandsOk s
  counters : CountersOk s
  log : LogOk s
  status : StatusOk s

/-- A state that the block can step from: accepted configuration, running, invariants (R284, R43). -/
structure Live (s : State) : Prop where
  accepted : configured s = true
  running : s.status = .running
  inv : Inv s

end Sys2Proof.Machine
end

