-- ==== Sys2Proof/Certificates/Slice0/Obligations.lean ====
section
/-!
DEFINITION. The statements for the provers. The terms of `Sys2Proof.Claims` restate the spec's tables in bit-vector arithmetic, apart from
the model's own formulas. Where a statement rests on one of the spec's own decisions (D<n> of spec/92_eei_decisions.md) or on a choice of
the model (notes/assumptions/<n>.md), its docstring says so.
-/
namespace Sys2Proof.Claims
open Sys2Proof.Machine

/-! ## Vocabulary -/

/-- What running any instruction alone does beside its own effect: `pc` past it, six cycles (R300), fetched (R115), retired (R139). -/
def passed (i : Instr) (s : State) : State :=
  { s with
    pc := s.pc + 4
    cycles := s.cycles + 6
    fetched := s.fetched + 1
    branchFetched := s.branchFetched + (if i.isControlFlow then 1 else 0)
    instructionsRetired := s.instructionsRetired + 1 }

/-- The address of the instruction `pc` fetches: `pc` without its two low bits (R90, R114). -/
def ownAddress (pc : Word) : Word := pc &&& 0xFFFFFFFC#32

/-- An instruction of format R completes for all registers and states, and writes `f` of its sources. -/
def RegisterFormGives (mk : Reg → Reg → Reg → Instr) (f : Word → Word → Word) : Prop :=
  ∀ (s : State) (rd rs rt : Reg),
    exec (mk rd rs rt) s = .next (writeReg (passed (mk rd rs rt) s) rd (f (readReg s rs) (readReg s rt)))

/-- An instruction of format I completes for all registers, immediates and states, and writes `f` of its source and the immediate. -/
def ImmediateFormGives (mk : Reg → Reg → Word → Instr) (f : Word → Word → Word) : Prop :=
  ∀ (s : State) (rt rs : Reg) (imm : Word),
    exec (mk rt rs imm) s = .next (writeReg (passed (mk rt rs imm) s) rt (f (readReg s rs) imm))

/-- A shift by a non-negative amount completes and writes `f` of its source and the amount. -/
def ShiftGives (mk : Reg → Reg → Word → Instr) (f : Word → Nat → Word) : Prop :=
  ∀ (s : State) (rt rs : Reg) (imm : Word), imm.msb = false →
    exec (mk rt rs imm) s = .next (writeReg (passed (mk rt rs imm) s) rt (f (readReg s rs) imm.toNat))

/-- A shift by a negative amount completes, writes nothing and reports. -/
def NegativeShiftReports (mk : Reg → Reg → Word → Instr) : Prop :=
  ∀ (s : State) (rt rs : Reg) (imm : Word), imm.msb = true →
    exec (mk rt rs imm) s = .next { passed (mk rt rs imm) s with
      log := s.log ++ [{ kind := .invalidShift, pc := ownAddress s.pc, cycle := s.cycles + 4 }] }

/-- A conditional branch completes: not taken, it only passes; taken, `pc` is the label's value. -/
def BranchGives (mk : Reg → Reg → Word → Instr) (c : Word → Word → Bool) : Prop :=
  ∀ (s : State) (rs rt : Reg) (l : Word),
    (c (readReg s rs) (readReg s rt) = false → exec (mk rs rt l) s = .next (passed (mk rs rt l) s)) ∧
    (∀ t, c (readReg s rs) (readReg s rt) = true → labelTarget s.labels l = some t →
      exec (mk rs rt l) s = .next { passed (mk rs rt l) s with pc := t })

/-- A conditional branch that is taken to a label with no entry is refused, by the store index of the branch. -/
def BranchRefusesMissingLabel (mk : Reg → Reg → Word → Instr) (c : Word → Word → Bool) : Prop :=
  ∀ (s : State) (rs rt : Reg) (l : Word), labelTarget s.labels l = none → c (readReg s rs) (readReg s rt) = true →
    exec (mk rs rt l) s = .refused (.unresolvedLabel (s.pc.toNat / 4))

/-- The upper half of the signed 64-bit product (R191). -/
def productUpper (a b : Word) : Word := (a.signExtend 64 * b.signExtend 64).extractLsb' 32 32

/-- `if c then 1 else 0` as a word. -/
def oneIf (c : Bool) : Word := if c then 1 else 0

/-- The parts of the state that no instruction run alone changes: the flag, the slots, the status, the stall counter and the
configuration. -/
def SameControl (s t : State) : Prop :=
  t.fb = s.fb ∧ t.slotIF = s.slotIF ∧ t.slotID = s.slotID ∧ t.slotEX = s.slotEX ∧ t.slotMEM = s.slotMEM ∧ t.slotWB = s.slotWB ∧
    t.status = s.status ∧ t.stalls = s.stalls ∧ t.prog = s.prog ∧ t.labels = s.labels ∧ t.maxCycles = s.maxCycles

/-- Every cell of the data memory reads as before. -/
def SameMemory (s t : State) : Prop := ∀ a : Word, loadWord t a = loadWord s a

/-- Every general register reads as before. -/
def SameRegisters (s t : State) : Prop := ∀ q : Reg, readReg t q = readReg s q

/-- The instructions that write one general register at writeback (R86: the R class and the I/load class), with that register. -/
def registerTarget : Instr → Option Reg
  | .add rd _ _ => some rd
  | .sub rd _ _ => some rd
  | .and rd _ _ => some rd
  | .or rd _ _ => some rd
  | .slt rd _ _ => some rd
  | .nor rd _ _ => some rd
  | .addi rt _ _ => some rt
  | .andi rt _ _ => some rt
  | .ori rt _ _ => some rt
  | .slti rt _ _ => some rt
  | .mult _ _ => none
  | .div _ _ => none
  | .mfhi rd => some rd
  | .mflo rd => some rd
  | .sll rt _ _ => some rt
  | .srl rt _ _ => some rt
  | .sra rt _ _ => some rt
  | .lw rt _ _ => some rt
  | .sw _ _ _ => none
  | .nop => none
  | .j _ => none
  | .jal _ => none
  | .jr _ => none
  | .beq _ _ _ => none
  | .bne _ _ _ => none
  | .blt _ _ _ => none
  | .bgt _ _ _ => none
  | .ble _ _ _ => none
  | .bge _ _ _ => none

/-- The report an instruction makes for the `rt` value `b` (R250). -/
def reportOf (i : Instr) (b : Word) : Option ReportKind :=
  match i with
  | .div _ _ => if b = 0 then some .divByZero else none
  | .sll _ _ imm => if imm.msb then some .invalidShift else none
  | .srl _ _ imm => if imm.msb then some .invalidShift else none
  | .sra _ _ imm => if imm.msb then some .invalidShift else none
  | _ => none

/-- The result field an instruction leaves execute with, from its operand values `a`, `b` and the accumulators (the "Execute" lines of
spec/41 to spec/46). -/
def resultOf (i : Instr) (a b hi lo : Word) : Option Word :=
  match i with
  | .add _ _ _ => some (a + b)
  | .sub _ _ _ => some (a - b)
  | .and _ _ _ => some (a &&& b)
  | .or _ _ _ => some (a ||| b)
  | .slt _ _ _ => some (oneIf (a.slt b))
  | .nor _ _ _ => some (~~~(a ||| b))
  | .addi _ _ imm => some (a + imm)
  | .andi _ _ imm => some (a &&& imm)
  | .ori _ _ imm => some (a ||| imm)
  | .slti _ _ imm => some (oneIf (a.slt imm))
  | .mult _ _ => some (a * b)
  | .div _ _ => some (if b = 0 then 0 else a.sdiv b)
  | .mfhi _ => some hi
  | .mflo _ => some lo
  | .sll _ _ imm => if imm.msb then none else some (a <<< imm.toNat)
  | .srl _ _ imm => if imm.msb then none else some (a >>> imm.toNat)
  | .sra _ _ imm => if imm.msb then none else some (a.sshiftRight imm.toNat)
  | .lw _ _ imm => some (a + imm)
  | .sw _ _ imm => some (a + imm)
  | .nop => none
  | .j _ => none
  | .jal _ => none
  | .jr _ => none
  | .beq _ _ _ => none
  | .bne _ _ _ => none
  | .blt _ _ _ => none
  | .bgt _ _ _ => none
  | .ble _ _ _ => none
  | .bge _ _ _ => none

/-- `HI` and `LO` after an instruction has executed (R191, R192). -/
def accumulatorsOf (i : Instr) (a b hi lo : Word) : Word × Word :=
  match i with
  | .mult _ _ => (productUpper a b, a * b)
  | .div _ _ => if b = 0 then (0, 0) else (a.srem b, a.sdiv b)
  | _ => (hi, lo)

/-- Where a control-flow record with operand values `a`, `b` sends `pc`, or `none` when it is not taken (R221). -/
def targetOf (i : Instr) (a b : Word) (labels : LabelMap) : Option Word :=
  match i with
  | .j l => labelTarget labels l
  | .jal l => labelTarget labels l
  | .jr _ => some a
  | .beq _ _ l => if a = b then labelTarget labels l else none
  | .bne _ _ l => if a = b then none else labelTarget labels l
  | .blt _ _ l => if a.slt b then labelTarget labels l else none
  | .bgt _ _ l => if b.slt a then labelTarget labels l else none
  | .ble _ _ l => if a.sle b then labelTarget labels l else none
  | .bge _ _ l => if b.sle a then labelTarget labels l else none
  | _ => none

/-- No load-use stall this cycle (R131). -/
def NoStall (s : State) : Prop := loadUseStall s.slotID s.slotEX s.slotMEM = false

/-- Identity of a record: what never changes while it moves (R46). -/
def key (p : Slot) : Option (Instr × Word) := p.map fun r => (r.instr, r.pc)

/-- `t` is `s` with a fetch made at `p`: an instruction, or an empty fetch when `p` is exhausted (R112 to R116). -/
def FetchesAt (s t : State) (p : Word) : Prop :=
  match s.prog[p.toNat / 4]? with
  | none => t.slotIF = none ∧ t.pc = p ∧ t.fb = false ∧ t.fetched = s.fetched ∧ t.branchFetched = s.branchFetched
  | some d => ∃ i, decode d = .ok i ∧
      t.slotIF = some { instr := i, pc := ownAddress p, rsVal := 0, rtVal := 0, result := none } ∧
      t.pc = p + 4 ∧ t.fb = i.isControlFlow ∧ t.fetched = s.fetched + 1 ∧
      t.branchFetched = s.branchFetched + (if i.isControlFlow then 1 else 0)

/-- The rows of spec/opcode_table.json: mnemonic, match, mask. -/
def opcodeRows : List (String × Diw × Diw) :=
  [("nop", 0x0000000000000000, 0xFFFFFFFFFFFFFFFF),
   ("add", 0x0800000000000000, 0xF8000FFFFFFFFFFF),
   ("sub", 0x1000000000000000, 0xF8000FFFFFFFFFFF),
   ("and", 0x1800000000000000, 0xF8000FFFFFFFFFFF),
   ("or", 0x2000000000000000, 0xF8000FFFFFFFFFFF),
   ("slt", 0x2800000000000000, 0xF8000FFFFFFFFFFF)] ++
  [("nor", 0x3000000000000000, 0xF8000FFFFFFFFFFF),
   ("addi", 0x3800000000000000, 0xF801FFFF00000000),
   ("andi", 0x4000000000000000, 0xF801FFFF00000000),
   ("ori", 0x4800000000000000, 0xF801FFFF00000000),
   ("slti", 0x5000000000000000, 0xF801FFFF00000000),
   ("mult", 0x5800000000000000, 0xF801FFFFFFFFFFFF)] ++
  [("div", 0x6000000000000000, 0xF801FFFFFFFFFFFF),
   ("mfhi", 0x6800000000000000, 0xFFFE0FFFFFFFFFFF),
   ("mflo", 0x7000000000000000, 0xFFFE0FFFFFFFFFFF),
   ("sll", 0x7800000000000000, 0xF801FFFF00000000),
   ("srl", 0x8000000000000000, 0xF801FFFF00000000),
   ("sra", 0x8800000000000000, 0xF801FFFF00000000)] ++
  [("lw", 0x9000000000000000, 0xF801FFFF00000000),
   ("sw", 0x9800000000000000, 0xF801FFFF00000000),
   ("j", 0xA000000000000000, 0xFFFFFFFF00000000),
   ("jal", 0xA800000000000000, 0xFFFFFFFF00000000),
   ("jr", 0xB000000000000000, 0xF83FFFFFFFFFFFFF),
   ("beq", 0xB800000000000000, 0xF801FFFF00000000)] ++
  [("bne", 0xC000000000000000, 0xF801FFFF00000000),
   ("blt", 0xC800000000000000, 0xF801FFFF00000000),
   ("bgt", 0xD000000000000000, 0xF801FFFF00000000),
   ("ble", 0xD800000000000000, 0xF801FFFF00000000),
   ("bge", 0xE000000000000000, 0xF801FFFF00000000)]

/-- The instructions of a store that decodes, in order. -/
def decodedStore (prog : List Diw) : List Instr := prog.filterMap fun d => (decode d).toOption

/-- `b` names the destination of the load `a` (R131). -/
def usesLoad (a b : Instr) : Bool := a.isLw && decide (a.rt ≠ 0) && (decide (a.rt = b.rs) || decide (a.rt = b.rt))

end Sys2Proof.Claims

open Sys2Proof Sys2Proof.Machine Sys2Proof.Claims

/-! ## What each instruction does, run alone: result, frame and completion in one equation -/

/-- R240. That a `nop` carries no result rests on D33; that it is counted, on D21. -/
def Obligations.NopOnlyPasses : Prop :=
  ∀ s : State, exec .nop s = .next (passed .nop s)

/-- R171 to R176. Signed `slt` and wrapping rest on D10 and D32. -/
def Obligations.RegisterArithmeticGivesItsResult : Prop :=
  RegisterFormGives .add (fun a b => a + b) ∧ RegisterFormGives .sub (fun a b => a - b) ∧
  RegisterFormGives .and (fun a b => a &&& b) ∧ RegisterFormGives .or (fun a b => a ||| b) ∧
  RegisterFormGives .slt (fun a b => oneIf (a.slt b)) ∧ RegisterFormGives .nor (fun a b => ~~~(a ||| b))

/-- R177 to R180. The full 32-bit immediate rests on D4, signed `slti` on D10. -/
def Obligations.ImmediateArithmeticGivesItsResult : Prop :=
  ImmediateFormGives .addi (fun a i => a + i) ∧ ImmediateFormGives .andi (fun a i => a &&& i) ∧
  ImmediateFormGives .ori (fun a i => a ||| i) ∧ ImmediateFormGives .slti (fun a i => oneIf (a.slt i))

/-- R191. The signed product rests on D7. -/
def Obligations.MultGivesSignedProduct : Prop :=
  ∀ (s : State) (rs rt : Reg),
    exec (.mult rs rt) s = .next { passed (.mult rs rt) s with
      hi := productUpper (readReg s rs) (readReg s rt), lo := readReg s rs * readReg s rt }

/-- R192 and R253. Truncation rests on D6, the report's form on D14 and D15; alone, its cycle is the fourth of the six (R300). -/
def Obligations.DivGivesQuotientAndRemainderOrReports : Prop :=
  ∀ (s : State) (rs rt : Reg),
    (readReg s rt ≠ 0 →
      exec (.div rs rt) s = .next { passed (.div rs rt) s with
        hi := (readReg s rs).srem (readReg s rt), lo := (readReg s rs).sdiv (readReg s rt) }) ∧
    (readReg s rt = 0 →
      exec (.div rs rt) s = .next { passed (.div rs rt) s with
        hi := 0, lo := 0, log := s.log ++ [{ kind := .divByZero, pc := ownAddress s.pc, cycle := s.cycles + 4 }] })

/-- R193, R194. -/
def Obligations.MovesReadTheAccumulators : Prop :=
  ∀ (s : State) (rd : Reg),
    exec (.mfhi rd) s = .next (writeReg (passed (.mfhi rd) s) rd s.hi) ∧
    exec (.mflo rd) s = .next (writeReg (passed (.mflo rd) s) rd s.lo)

/-- R201 to R203, amount not negative; the amount is not masked (D5). -/
def Obligations.ShiftsGiveTheirResult : Prop :=
  ShiftGives .sll (fun a n => a <<< n) ∧ ShiftGives .srl (fun a n => a >>> n) ∧ ShiftGives .sra (fun a n => a.sshiftRight n)

/-- R200 and R254. That nothing is written rests on D13. -/
def Obligations.NegativeShiftsWriteNothingAndReport : Prop :=
  NegativeShiftReports .sll ∧ NegativeShiftReports .srl ∧ NegativeShiftReports .sra

/-- R211, R210. The wrapping address rests on D17. -/
def Obligations.LoadWordReadsItsCell : Prop :=
  ∀ (s : State) (rt rs : Reg) (imm : Word),
    exec (.lw rt rs imm) s = .next (writeReg (passed (.lw rt rs imm) s) rt (loadWord s (readReg s rs + imm)))

/-- R212, R210, R65: exactly the one cell changes, and nothing else than the passing. The wrapping address rests on D17. -/
def Obligations.StoreWordChangesOneCell : Prop :=
  ∀ (s : State) (rt rs : Reg) (imm : Word), MemoryOk s →
    ∃ m : Memory, exec (.sw rt rs imm) s = .next { passed (.sw rt rs imm) s with dmem := m } ∧
      Memory.wf m = true ∧
      ∀ a : Word, memRead m a.toNat = if a = effectiveAddress (readReg s rs) imm then readReg s rt else loadWord s a

/-- R63. -/
def Obligations.NoDataAddressFaults : Prop :=
  ∀ (s : State) (rt rs : Reg) (imm : Word),
    (∃ t, exec (.lw rt rs imm) s = .next t) ∧ (∃ t, exec (.sw rt rs imm) s = .next t)

/-- R222 to R227 with R221. The signed ordered compares rest on D10, the verbatim target on D27. -/
def Obligations.BranchesGoToTheirLabel : Prop :=
  BranchGives .beq (fun a b => a == b) ∧ BranchGives .bne (fun a b => a != b) ∧
  BranchGives .blt (fun a b => a.slt b) ∧ BranchGives .bgt (fun a b => b.slt a) ∧
  BranchGives .ble (fun a b => a.sle b) ∧ BranchGives .bge (fun a b => b.sle a)

/-- R228, R229. The link register and its value rest on D9, the verbatim target on D27. -/
def Obligations.JumpsGoToTheirLabel : Prop :=
  ∀ (s : State) (l t : Word), labelTarget s.labels l = some t →
    exec (.j l) s = .next { passed (.j l) s with pc := t } ∧
    exec (.jal l) s = .next { writeReg (passed (.jal l) s) 31 (ownAddress s.pc + 4) with pc := t }

/-- R230. Any value is used as it is (D27); alone, the bubbles `jr` arms are consumed before it retires. -/
def Obligations.JumpRegisterGoesToItsOperand : Prop :=
  ∀ (s : State) (rs : Reg), exec (.jr rs) s = .next { passed (.jr rs) s with pc := readReg s rs }

/-- The model's choice for a label with no entry, which the pre-run check of R284 keeps out of every run (notes/assumptions/9.md). -/
def Obligations.MissingLabelIsRefused : Prop :=
  (∀ (s : State) (l : Word), labelTarget s.labels l = none →
    exec (.j l) s = .refused (.unresolvedLabel (s.pc.toNat / 4)) ∧
    exec (.jal l) s = .refused (.unresolvedLabel (s.pc.toNat / 4))) ∧
  BranchRefusesMissingLabel .beq (fun a b => a == b) ∧ BranchRefusesMissingLabel .bne (fun a b => a != b) ∧
  BranchRefusesMissingLabel .blt (fun a b => a.slt b) ∧ BranchRefusesMissingLabel .bgt (fun a b => b.slt a) ∧
  BranchRefusesMissingLabel .ble (fun a b => a.sle b) ∧ BranchRefusesMissingLabel .bge (fun a b => b.sle a)

/-! ## Frames -/

/-- R86, R170, R211: an instruction that writes a register at writeback changes that register alone; a log entry comes only from a
negative shift. -/
def Obligations.RegisterWritersChangeOneRegister : Prop :=
  ∀ (i : Instr) (d : Reg) (s t : State), registerTarget i = some d → exec i s = .next t →
    (∀ q, q ≠ d → readReg t q = readReg s q) ∧ t.hi = s.hi ∧ t.lo = s.lo ∧ SameMemory s t ∧ SameControl s t ∧
      (reportOf i 1 = none → t.log = s.log)

/-- R190: `mult` and `div` change `HI` and `LO` alone; a log entry comes only from a zero divisor. -/
def Obligations.MultiplyDivideChangeOnlyAccumulators : Prop :=
  ∀ (i : Instr) (rs rt : Reg) (s t : State), i = .mult rs rt ∨ i = .div rs rt → exec i s = .next t →
    SameRegisters s t ∧ SameMemory s t ∧ SameControl s t ∧ (reportOf i (readReg s rt) = none → t.log = s.log)

/-- R231, R229, R240: control-flow instructions and `nop` change no register but the link register of `jal`, no accumulator, no cell and
no log entry. -/
def Obligations.ControlFlowChangesOnlyTheLink : Prop :=
  ∀ (i : Instr) (s t : State), i.isControlFlow = true ∨ i = .nop → exec i s = .next t →
    (∀ q, q ≠ 31 ∨ (∀ l, i ≠ .jal l) → readReg t q = readReg s q) ∧ t.hi = s.hi ∧ t.lo = s.lo ∧ t.log = s.log ∧
      SameMemory s t ∧ SameControl s t

/-- R31: register 0 reads 0, a write to it is discarded, it is never a producer and never causes a stall. -/
def Obligations.RegisterZeroIsInert : Prop :=
  (∀ s : State, readReg s 0 = 0) ∧ (∀ (s : State) (v : Word), writeReg s 0 v = s) ∧
  (∀ (i : Instr) (s t : State), exec i s = .next t → i.dest = 0 → (∀ l, i ≠ .jal l) → t.regs = s.regs) ∧
  (∀ p : Slot, producerOf p 0 = none) ∧
  (∀ (d : Record) (p : Record) (rs : Reg) (imm : Word), p.instr = .lw 0 rs imm → loadMatches d (some p) = false)

/-! ## Encoding -/

/-- R81, R83, R85: every instruction, with every operand value, survives encoding and decoding. The layout is D2. -/
def Obligations.DecodeOfEncodeIsTheInstruction : Prop :=
  ∀ i : Instr, decode (encode i) = .ok i

/-- R92: a legal word is the word of exactly one instruction. -/
def Obligations.EncodeOfDecodeIsTheWord : Prop :=
  ∀ (d : Diw) (i : Instr), decode d = .ok i → encode i = d

/-- The decoder and the rows of spec/opcode_table.json agree on every word: which words are instructions, and of which row. -/
def Obligations.DecoderAgreesWithTheOpcodeTable : Prop :=
  (∀ (d : Diw) (i : Instr), decode d = .ok i →
    ∃ row ∈ opcodeRows, row.1 = i.mnemonic ∧ d &&& row.2.2 = row.2.1) ∧
  (∀ d : Diw, ∀ row ∈ opcodeRows, d &&& row.2.2 = row.2.1 → ∃ i, decode d = .ok i ∧ i.mnemonic = row.1)

/-- R82, R84, R85, R92: what is no instruction is rejected, by name: a reserved bit set, a reserved tag, or, with the tag of a row of
spec/opcode_table.json, a field that the row's format marks 0 and that is not 0 (the mask of a row covers the tag, the reserved bits and
those fields). Which name comes first when several apply is the model's choice (notes/assumptions/11.md). -/
def Obligations.IllegalWordsAreRejectedByName : Prop :=
  (∀ d : Diw, d.extractLsb' 32 12 ≠ 0 → decode d = .error .reservedBitsSet) ∧
  (∀ d : Diw, d.extractLsb' 32 12 = 0 → 0x1D ≤ (d.extractLsb' 59 5).toNat → decode d = .error .reservedTag) ∧
  (∀ d : Diw, d.extractLsb' 32 12 = 0 → ∀ row ∈ opcodeRows, d.extractLsb' 59 5 = row.2.1.extractLsb' 59 5 →
    d &&& row.2.2 ≠ row.2.1 → decode d = .error .unusedFieldSet)

/-- Words of the spec's examples (R171, R177, R191, R193, R201, R211, R212, R222, R228 to R230, R240). -/
def Obligations.ExampleWordsDecode : Prop :=
  decode 0x0A10900000000000 = .ok (.add 9 8 8) ∧ decode 0x3810000000000005 = .ok (.addi 8 0 5) ∧
  decode 0x5A12000000000000 = .ok (.mult 8 9) ∧ decode 0x6800A00000000000 = .ok (.mfhi 10) ∧
  decode 0x7A12000000000004 = .ok (.sll 9 8 4) ∧ decode 0x9212000000000004 = .ok (.lw 9 8 4) ∧
  decode 0x9A12000000000004 = .ok (.sw 9 8 4) ∧ decode 0xBA10000000000000 = .ok (.beq 8 8 0) ∧
  decode 0xA000000000000001 = .ok (.j 1) ∧ decode 0xA800000000000000 = .ok (.jal 0) ∧
  decode 0xB7C0000000000000 = .ok (.jr 31) ∧ decode 0 = .ok .nop

/-! ## Reset and configuration -/

/-- R280, R281 (the values are D18 and D30): every piece of state at reset, for the configuration the host gave. -/
def Obligations.ResetLeavesTheStatedValues : Prop :=
  ∀ (prog : List Diw) (labels : LabelMap) (mc : Nat) (s : State), s = State.resetWith prog labels mc →
    (∀ q, readReg s q = 0) ∧ s.hi = 0 ∧ s.lo = 0 ∧ s.pc = 0 ∧ s.fb = false ∧ drained s = true ∧
    s.cycles = 0 ∧ s.instructionsRetired = 0 ∧ s.stalls = 0 ∧ s.fetched = 0 ∧ s.branchFetched = 0 ∧ s.log = [] ∧
    (∀ a, loadWord s a = 0) ∧ (s.status = .done ↔ prog = []) ∧ (s.status = .running ↔ prog ≠ []) ∧
    s.prog = prog ∧ s.labels = labels ∧ s.maxCycles = mc

/-- The invariants hold at reset, for every configuration the pre-run checks accept; so an accepted program starts in a live state. -/
def Obligations.ResetMeetsTheInvariants : Prop :=
  ∀ (prog : List Diw) (labels : LabelMap) (mc : Nat), preRunRefusal prog labels mc = none →
    Inv (State.resetWith prog labels mc) ∧ (prog ≠ [] → Live (State.resetWith prog labels mc))

/-- R284, R259, R260 (D24): a store too large, then the first illegal word, then the first word with a missing label is refused. -/
def Obligations.RefusedConfigurationsHaveNoStep : Prop :=
  ∀ s : State,
    (2 ^ 30 ≤ s.prog.length → step s = .refused (.programTooLarge s.prog.length)) ∧
    (∀ (k : Nat) (d : Diw) (e : DecodeError), s.prog.length < 2 ^ 30 → s.prog[k]? = some d → decode d = .error e →
      (∀ k' d', k' < k → s.prog[k']? = some d' → ∃ i, decode d' = .ok i) →
      step s = .refused (.illegalInstruction k)) ∧
    (∀ (k : Nat) (d : Diw) (i : Instr) (l : Word), s.prog.length < 2 ^ 30 → (∀ d' ∈ s.prog, ∃ j, decode d' = .ok j) →
      s.prog[k]? = some d → decode d = .ok i → i.label? = some l → labelTarget s.labels l = none →
      (∀ k' d' j l', k' < k → s.prog[k']? = some d' → decode d' = .ok j → j.label? = some l' →
        labelTarget s.labels l' ≠ none) →
      step s = .refused (.unresolvedLabel k))

/-- The model's choice for a stopped block (notes/assumptions/5.md): Done stays as it is (R43), CycleLimit is a fault (R148, R255). -/
def Obligations.StoppedBlockMakesNoCycle : Prop :=
  ∀ s : State, configured s = true →
    (s.status = .done → step s = .next s) ∧ (s.status = .cycleLimit → step s = .fault .cycleLimit)

/-- R72: no step changes the instruction store; nor the label map or MAX_CYCLES (R283). -/
def Obligations.NoStepChangesTheProgram : Prop :=
  ∀ s t : State, step s = .next t → t.prog = s.prog ∧ t.labels = s.labels ∧ t.maxCycles = s.maxCycles

/-! ## The stages of one cycle -/

/-- From a live state the block always makes a cycle: no fault and no refusal can happen in a run (R63, R92, R284). -/
def Obligations.LiveStatesAlwaysStep : Prop :=
  ∀ s : State, Live s → ∃ t, step s = .next t

/-- R138: writeback writes `dest` with the result, and nothing else writes a general register except the link of `jal`. -/
def Obligations.WritebackCommitsTheResult : Prop :=
  ∀ (s t : State) (q : Reg), Live s → step s = .next t →
    (q ≠ 31 ∨ ∀ r ∈ s.slotID, ∀ l, r.instr ≠ .jal l) →
    readReg t q = (match s.slotWB with
      | none => readReg s q
      | some r => match r.result with
        | none => readReg s q
        | some v => if r.instr.dest = q ∧ q ≠ 0 then v else readReg s q)

/-- R136. -/
def Obligations.MemoryStageLoadsStoresOrPasses : Prop :=
  ∀ s t : State, Live s → step s = .next t →
    (s.slotMEM = none → t.slotWB = none ∧ t.dmem = s.dmem) ∧
    (∀ r ∈ s.slotMEM,
      (∀ rt rs imm, r.instr = .lw rt rs imm → ∃ a, r.result = some a ∧ t.dmem = s.dmem ∧
        t.slotWB = some { r with result := some (loadWord s a) }) ∧
      (∀ rt rs imm, r.instr = .sw rt rs imm → ∃ a, r.result = some a ∧ t.slotWB = some r ∧
        ∀ b : Word, loadWord t b = if b = a then r.rtVal else loadWord s b) ∧
      ((∀ rt rs imm, r.instr ≠ .lw rt rs imm ∧ r.instr ≠ .sw rt rs imm) → t.slotWB = some r ∧ t.dmem = s.dmem))

/-- R134, R135, R252 to R254 and the "Execute" line of every instruction, in the pipeline: result field, accumulators and report. Rests
on the decisions the instruction rules name (D4 to D8, D10, D13 to D15, D17, D32, D33). -/
def Obligations.ExecuteStageComputesEveryResult : Prop :=
  ∀ s t : State, Live s → step s = .next t →
    (s.slotEX = none → t.slotMEM = none ∧ t.hi = s.hi ∧ t.lo = s.lo ∧ t.log = s.log) ∧
    (∀ r ∈ s.slotEX,
      t.slotMEM = some { r with result := resultOf r.instr r.rsVal r.rtVal s.hi s.lo } ∧
      (t.hi, t.lo) = accumulatorsOf r.instr r.rsVal r.rtVal s.hi s.lo ∧
      t.log = s.log ++ (match reportOf r.instr r.rtVal with
        | none => []
        | some k => [{ kind := k, pc := r.pc, cycle := t.cycles }]))

/-- R132. -/
def Obligations.StallHoldsDecodeAndFetch : Prop :=
  ∀ s : State, Live s → loadUseStall s.slotID s.slotEX s.slotMEM = true →
    ∃ t, step s = .next t ∧ t.slotEX = none ∧ t.stalls = s.stalls + 1 ∧ t.slotID = s.slotID ∧ t.slotIF = s.slotIF ∧
      t.pc = s.pc ∧ t.fb = s.fb ∧ t.fetched = s.fetched ∧ t.branchFetched = s.branchFetched ∧
      key t.slotMEM = key s.slotEX ∧ key t.slotWB = key s.slotMEM

/-- R131: the stall decision, with both fields of any opcode compared (D12). -/
def Obligations.StallDecisionComparesBothFields : Prop :=
  ∀ d x0 m0 : Slot, loadUseStall d x0 m0 = true ↔
    ∃ (e p : Record) (rt rs : Reg) (imm : Word), d = some e ∧ (x0 = some p ∨ m0 = some p) ∧ p.instr = .lw rt rs imm ∧ rt ≠ 0 ∧
      (rt = e.instr.rs ∨ rt = e.instr.rt)

/-- R133: a record in ID right behind a `lw` of one of its fields stalls two cycles, and no third. -/
def Obligations.AdjacentLoadUseStallsTwice : Prop :=
  ∀ (s t u : State) (d p : Record), Live s → s.slotID = some d → s.slotEX = some p → loadMatches d (some p) = true →
    step s = .next t → t.status = .running → step t = .next u →
      t.stalls = s.stalls + 1 ∧ u.stalls = s.stalls + 2 ∧ u.slotID = some d ∧ loadUseStall u.slotID u.slotEX u.slotMEM = false

/-- R142. -/
def Obligations.WithoutStallEverySlotAdvances : Prop :=
  ∀ s : State, Live s → NoStall s →
    ∃ t, step s = .next t ∧ t.slotID = s.slotIF ∧ key t.slotEX = key s.slotID

/-- R153, R139 (D21): EX, MEM and WB hold a record for one cycle only, stall or not, and a record leaving WB is retired, whatever it is;
a bubble retires nothing. -/
def Obligations.BackEndDrainsAndRetiresEveryCycle : Prop :=
  ∀ s t : State, Live s → step s = .next t →
    key t.slotMEM = key s.slotEX ∧ key t.slotWB = key s.slotMEM ∧
    t.instructionsRetired = s.instructionsRetired + (if s.slotWB = none then 0 else 1)

/-- R118, R119 (the order is D36): each operand of the record that decodes is the result of the nearest producer, else the register as
this cycle's writeback leaves it. -/
def Obligations.DecodeTakesTheNearestProducer : Prop :=
  ∀ (s t : State) (e : Record), Live s → NoStall s → step s = .next t → t.slotEX = some e →
    ∀ (q : Reg) (v : Word), (q = e.instr.rs ∧ v = e.rsVal) ∨ (q = e.instr.rt ∧ v = e.rtVal) →
      (q = 0 → v = 0) ∧
      (∀ w, producerOf t.slotMEM q = some w → v = w) ∧
      (∀ w, producerOf t.slotMEM q = none → producerOf t.slotWB q = some w → v = w) ∧
      (producerOf t.slotMEM q = none → producerOf t.slotWB q = none → v = (producerOf s.slotWB q).getD (readReg s q))

/-- R125. -/
def Obligations.ExecuteTagsNameTheNearestProducer : Prop :=
  ∀ (m0 w0 : Slot) (r : Reg),
    (∀ v, producerOf m0 r = some v → exTag m0 w0 r = .fromExecuteMemory) ∧
    (∀ v, producerOf m0 r = none → producerOf w0 r = some v → exTag m0 w0 r = .fromMemoryWriteback) ∧
    (producerOf m0 r = none → producerOf w0 r = none → exTag m0 w0 r = .none)

/-- R129: in every live state execute-stage forwarding changes no operand. -/
def Obligations.ExecuteForwardingNeverChangesAnOperand : Prop :=
  ∀ (s u : State) (m1 : Slot) (r : Record), Live s → s.slotEX = some r →
    memorySlot (commitSlot s s.slotWB) s.slotMEM = .next (u, m1) → forwardInto s.slotMEM m1 s.slotWB r = r

/-- R112 to R115, R144 (D16, D21, D37, D39): with no control-flow record in decode and no stall, an armed bubble is inserted and consumed,
whether or not `pc` is exhausted, and with none armed the store is read at `pc`. -/
def Obligations.FetchReadsTheStoreOrInsertsTheBubble : Prop :=
  ∀ s : State, Live s → NoStall s → holdsControlFlow s.slotID = false →
    (s.fb = false → ∃ t, step s = .next t ∧ FetchesAt s t s.pc) ∧
    (s.fb = true → ∃ t, step s = .next t ∧ t.slotIF = none ∧ t.fb = false ∧ t.pc = s.pc ∧ t.fetched = s.fetched ∧
      t.branchFetched = s.branchFetched)

/-- R116: the next cycle without a stall inserts a bubble; a stall leaves the bubble armed. -/
def Obligations.ControlFlowFetchArmsOneBubble : Prop :=
  ∀ (s t : State) (r : Record), Live s → step s = .next t → t.fetched = s.fetched + 1 → t.slotIF = some r →
    r.instr.isControlFlow = true →
    t.fb = true ∧ ∀ u, t.status = .running → step t = .next u →
      (NoStall t → u.slotIF = none ∧ u.fb = false ∧ u.fetched = t.fetched) ∧
      (¬NoStall t → u.slotIF = t.slotIF ∧ u.fb = true ∧ u.fetched = t.fetched)

/-- R143, R220, R221, R233: a branch or label jump in decode redirects before the fetch of the same cycle, which reads its successor; no
instruction in between is fetched. Signed compares rest on D10, the verbatim target on D27. -/
def Obligations.BranchRedirectsTheFetchOfItsCycle : Prop :=
  ∀ (s : State) (r : Record), Live s → NoStall s → s.slotID = some r → r.instr.isControlFlow = true → (∀ q, r.instr ≠ .jr q) →
    ∃ t e, step s = .next t ∧ t.slotEX = some e ∧
      FetchesAt s t ((targetOf r.instr e.rsVal e.rtVal s.labels).getD s.pc)

/-- R145, R230 (D34): `jr` sets `pc` to its captured operand and its second bubble takes the place of the fetch. -/
def Obligations.JumpRegisterInsertsASecondBubble : Prop :=
  ∀ (s : State) (r : Record) (q : Reg), Live s → NoStall s → s.slotID = some r → r.instr = .jr q →
    ∃ t e, step s = .next t ∧ t.slotEX = some e ∧ t.pc = e.rsVal ∧ t.slotIF = none ∧ t.slotID = none ∧ t.fb = false ∧
      t.fetched = s.fetched

/-- R229 (D9), R294: in the pipeline, `jal` links in its decode cycle, ahead of older records still in flight. The record that was in MEM
then (decoded two cycles before the `jal`) commits one cycle later, and the one that was in EX (decoded one cycle before) two cycles later;
each that produces register 31 overwrites the link, so the younger wins. A second `jal` that decodes in that last cycle links last. -/
def Obligations.JalLinksInDecodeAndAnOlderWriterOverwrites : Prop :=
  ∀ (s t : State) (r : Record) (l : Word), Live s → NoStall s → s.slotID = some r → r.instr = .jal l → step s = .next t →
    readReg t 31 = r.pc + 4 ∧ key t.slotWB = key s.slotMEM ∧
    ∀ u : State, t.status = .running → step t = .next u →
      readReg u 31 = (producerOf t.slotWB 31).getD (readReg t 31) ∧ key u.slotWB = key s.slotEX ∧
      ∀ v : State, u.status = .running → step u = .next v →
        ((∀ e ∈ u.slotID, ∀ l', e.instr ≠ .jal l') → readReg v 31 = (producerOf u.slotWB 31).getD (readReg u 31)) ∧
        (∀ e ∈ u.slotID, ∀ l', e.instr = .jal l' → readReg v 31 = e.pc + 4)

/-- R147: the normal end, at the end of a cycle and at reset; a block that is Done stays as it is. -/
def Obligations.RunEndsWhenExhaustedAndEmpty : Prop :=
  (∀ s t : State, Live s → step s = .next t → (t.status = .done ↔ exhausted t = true ∧ drained t = true)) ∧
  (∀ (prog : List Diw) (labels : LabelMap) (mc : Nat), (State.resetWith prog labels mc).status = .done ↔ prog = []) ∧
  (∀ s t : State, s.status = .done → step s = .next t → t = s)

/-- R148 (D19, D20): the safety limit, tested after the normal end, for every MAX_CYCLES. -/
def Obligations.RunStopsAtTheCycleLimit : Prop :=
  ∀ s t : State, Live s → step s = .next t →
    t.cycles = s.cycles + 1 ∧
    (t.status = .cycleLimit ↔ ¬(exhausted t = true ∧ drained t = true) ∧ t.maxCycles ≤ t.cycles) ∧
    (t.status = .running ↔ ¬(exhausted t = true ∧ drained t = true) ∧ t.cycles < t.maxCycles)

/-- R301: a cycle is a stall, a fetch of one instruction, a fetch bubble or an empty fetch, and the counters tell which of the first two
it was. -/
def Obligations.EveryCycleIsOneOfFour : Prop :=
  ∀ s t : State, Live s → step s = .next t →
    (t.stalls = s.stalls + 1 ∧ t.fetched = s.fetched ∧ loadUseStall s.slotID s.slotEX s.slotMEM = true) ∨
    (t.stalls = s.stalls ∧ t.fetched = s.fetched + 1 ∧ t.slotIF ≠ none) ∨
    (t.stalls = s.stalls ∧ t.fetched = s.fetched ∧ t.slotIF = none ∧ t.fb = false ∧
      (s.fb = true ∨ (∃ r q, s.slotID = some r ∧ r.instr = .jr q) ∨ exhausted t = true))

/-! ## Invariants that every step keeps -/

/-- The data memory stays canonical (notes/assumptions/2.md) and the stored register 0 stays 0 (R31). -/
def Obligations.StepKeepsMemoryCanonicalAndRegisterZero : Prop :=
  ∀ s t : State, MemoryOk s → ZeroRegisterOk s → step s = .next t → MemoryOk t ∧ ZeroRegisterOk t

/-- R116, R144, R152: the fetch-bubble flag tells what IF holds, and behind a control-flow record in ID stands a bubble. R46, R47, R49,
R90: records come from the store, unchanged, and carry the runtime fields of their stage. -/
def Obligations.StepKeepsTheFetchFlagAndTheRecords : Prop :=
  ∀ s t : State, step s = .next t →
    (FetchFlagOk s → FetchFlagOk t) ∧ (RecordsOk s → RecordsOk t) ∧ (RuntimeFieldsOk s → RuntimeFieldsOk t)

/-- R129, R133: the operands of the record in EX agree with the producers ahead of it, and no load just ahead is one of them. -/
def Obligations.StepKeepsTheOperandsCoherent : Prop :=
  ∀ s t : State, OperandsOk s → step s = .next t → OperandsOk t

/-- R41, R43, R139, R252, R301: no instruction is lost or counted twice, the log stays ordered, the status stays true. -/
def Obligations.StepKeepsCountersLogAndStatus : Prop :=
  ∀ s t : State, CountersOk s → LogOk s → StatusOk s → step s = .next t → CountersOk t ∧ LogOk t ∧ StatusOk t

/-- All invariants together: a step from a live state leads to a state with the invariants, live as long as it runs. -/
def Obligations.StepKeepsTheInvariants : Prop :=
  ∀ s t : State, Live s → step s = .next t → Inv t ∧ (t.status = .running → Live t)

/-! ## The pipeline and the instructions -/

/-- The next cycle of an empty pipeline fetches the instruction at `pc`, and once that instruction has drained the result is that of `exec`
(notes/assumptions/1.md): what the step adds around `exec` is only the timing that `archOf` leaves out. -/
def Obligations.StepRunsTheDecodedInstruction : Prop :=
  ∀ (s c : State) (d : Diw) (i : Instr), configured s = true → s.status = .running → drained s = true → s.fb = false →
    fetchedWord s = some d → decode d = .ok i → exec i s = .next c →
      ∃ t b, step s = .next t ∧ t.slotIF = some (fetchedRecord i s.pc) ∧ t.pc = s.pc + 4 ∧ t.cycles = s.cycles + 1 ∧
        t.regs = s.regs ∧ t.dmem = s.dmem ∧ drain t = .next b ∧ archOf b = archOf c

/-- R300, R240: an instruction with an empty pipeline before it and nothing to fetch after it takes six steps, and they are exactly
`exec`. -/
def Obligations.SixStepsOfALoneInstructionAreExec : Prop :=
  ∀ (s c : State) (d : Diw) (i : Instr), configured s = true → s.status = .running → drained s = true → s.fb = false →
    fetchedWord s = some d → decode d = .ok i → exec i s = .next c → exhausted c = true → s.cycles + 6 ≤ s.maxCycles →
      Host.Core.run Sys2Proof.core 6 s = .next { c with status := .done }

/-- The headline (spec/70 sections 3 and 4, R290, R295, R298, R299): from every live state outside the `jal` hazard of R294, one cycle of
the pipeline is, once drained, either nothing or exactly the sequential `exec` of the instruction it fetched. Stalls, forwarding and
bubbles are invisible. -/
def Obligations.PipelineRefinesSequentialExecution : Prop :=
  ∀ s t : State, Live s → linkHazard s = false → step s = .next t →
    ∃ a b, drain s = .next a ∧ drain t = .next b ∧
      ((t.fetched = s.fetched ∧ archOf b = archOf a) ∨
       (∃ r c, t.fetched = s.fetched + 1 ∧ t.slotIF = some r ∧ exec r.instr a = .next c ∧ archOf b = archOf c))

/-- R150, R302: straight-line code of N instructions without load-use runs N + 5 cycles, retires N and never stalls. -/
def Obligations.StraightLineCodeTakesNPlusFiveCycles : Prop :=
  ∀ (prog : List Diw) (labels : LabelMap) (mc : Nat), preRunRefusal prog labels mc = none → prog ≠ [] →
    (∀ i ∈ decodedStore prog, i.isControlFlow = false) →
    (∀ (k : Nat) (a b : Instr), (decodedStore prog)[k]? = some a →
      ((decodedStore prog)[k + 1]? = some b ∨ (decodedStore prog)[k + 2]? = some b) → usesLoad a b = false) →
    prog.length + 5 ≤ mc →
      ∃ t : State, Host.Core.run Sys2Proof.core (prog.length + 5) (State.resetWith prog labels mc) = .next t ∧
        t.status = .done ∧ t.cycles = prog.length + 5 ∧ t.instructionsRetired = prog.length ∧ t.stalls = 0

/-! ## The host -/

/-- The host's placement of a word (notes/assumptions/10.md) makes the next cycle fetch exactly it, for every instruction. -/
def Obligations.PlacedWordIsFetchedNext : Prop :=
  ∀ i : Instr, ∃ t, step (State.reset.withFetchWord 64 (encode i).toNat) = .next t ∧ t.slotIF = some (fetchedRecord i 0) ∧
    decodeTableWord 64 (encode i).toNat = some i

/-- R42 (D38): the two figures are exact, and absent when the denominator is 0. -/
def Obligations.FiguresAreExactOrAbsent : Prop :=
  ∀ s : State, (cpi s = none ↔ s.instructionsRetired = 0) ∧ (∀ q, cpi s = some q → q * s.instructionsRetired = s.cycles) ∧
    (branchFrequency s = none ↔ s.fetched = 0) ∧ (∀ q, branchFrequency s = some q → q * s.fetched = s.branchFetched)
end

