-- ==== Sys2Proof/Laws/State.lean ====
section
/-!
SUPPORT. One lemma per field for each named operation on the state: what it writes, and that it leaves every other field alone. Proofs
about instructions cite these and never unfold an update.
-/
namespace Sys2Proof.Machine

/-! `writeReg` -/

@[simp] theorem writeReg_hi (s : State) (r : Reg) (v : Word) : (writeReg s r v).hi = s.hi := by unfold writeReg; split <;> rfl
@[simp] theorem writeReg_lo (s : State) (r : Reg) (v : Word) : (writeReg s r v).lo = s.lo := by unfold writeReg; split <;> rfl
@[simp] theorem writeReg_pc (s : State) (r : Reg) (v : Word) : (writeReg s r v).pc = s.pc := by unfold writeReg; split <;> rfl
@[simp] theorem writeReg_fb (s : State) (r : Reg) (v : Word) : (writeReg s r v).fb = s.fb := by unfold writeReg; split <;> rfl
@[simp] theorem writeReg_cycles (s : State) (r : Reg) (v : Word) : (writeReg s r v).cycles = s.cycles := by unfold writeReg; split <;> rfl
@[simp] theorem writeReg_instructionsRetired (s : State) (r : Reg) (v : Word) : (writeReg s r v).instructionsRetired = s.instructionsRetired := by unfold writeReg; split <;> rfl
@[simp] theorem writeReg_stalls (s : State) (r : Reg) (v : Word) : (writeReg s r v).stalls = s.stalls := by unfold writeReg; split <;> rfl
@[simp] theorem writeReg_fetched (s : State) (r : Reg) (v : Word) : (writeReg s r v).fetched = s.fetched := by unfold writeReg; split <;> rfl
@[simp] theorem writeReg_branchFetched (s : State) (r : Reg) (v : Word) : (writeReg s r v).branchFetched = s.branchFetched := by unfold writeReg; split <;> rfl
@[simp] theorem writeReg_status (s : State) (r : Reg) (v : Word) : (writeReg s r v).status = s.status := by unfold writeReg; split <;> rfl
@[simp] theorem writeReg_log (s : State) (r : Reg) (v : Word) : (writeReg s r v).log = s.log := by unfold writeReg; split <;> rfl
@[simp] theorem writeReg_slotIF (s : State) (r : Reg) (v : Word) : (writeReg s r v).slotIF = s.slotIF := by unfold writeReg; split <;> rfl
@[simp] theorem writeReg_slotID (s : State) (r : Reg) (v : Word) : (writeReg s r v).slotID = s.slotID := by unfold writeReg; split <;> rfl
@[simp] theorem writeReg_slotEX (s : State) (r : Reg) (v : Word) : (writeReg s r v).slotEX = s.slotEX := by unfold writeReg; split <;> rfl
@[simp] theorem writeReg_slotMEM (s : State) (r : Reg) (v : Word) : (writeReg s r v).slotMEM = s.slotMEM := by unfold writeReg; split <;> rfl
@[simp] theorem writeReg_slotWB (s : State) (r : Reg) (v : Word) : (writeReg s r v).slotWB = s.slotWB := by unfold writeReg; split <;> rfl
@[simp] theorem writeReg_dmem (s : State) (r : Reg) (v : Word) : (writeReg s r v).dmem = s.dmem := by unfold writeReg; split <;> rfl
@[simp] theorem writeReg_prog (s : State) (r : Reg) (v : Word) : (writeReg s r v).prog = s.prog := by unfold writeReg; split <;> rfl
@[simp] theorem writeReg_labels (s : State) (r : Reg) (v : Word) : (writeReg s r v).labels = s.labels := by unfold writeReg; split <;> rfl
@[simp] theorem writeReg_maxCycles (s : State) (r : Reg) (v : Word) : (writeReg s r v).maxCycles = s.maxCycles := by unfold writeReg; split <;> rfl

/-! `storeWord` -/

@[simp] theorem storeWord_regs (s : State) (a v : Word) : (storeWord s a v).regs = s.regs := rfl
@[simp] theorem storeWord_hi (s : State) (a v : Word) : (storeWord s a v).hi = s.hi := rfl
@[simp] theorem storeWord_lo (s : State) (a v : Word) : (storeWord s a v).lo = s.lo := rfl
@[simp] theorem storeWord_pc (s : State) (a v : Word) : (storeWord s a v).pc = s.pc := rfl
@[simp] theorem storeWord_fb (s : State) (a v : Word) : (storeWord s a v).fb = s.fb := rfl
@[simp] theorem storeWord_cycles (s : State) (a v : Word) : (storeWord s a v).cycles = s.cycles := rfl
@[simp] theorem storeWord_instructionsRetired (s : State) (a v : Word) : (storeWord s a v).instructionsRetired = s.instructionsRetired := rfl
@[simp] theorem storeWord_stalls (s : State) (a v : Word) : (storeWord s a v).stalls = s.stalls := rfl
@[simp] theorem storeWord_fetched (s : State) (a v : Word) : (storeWord s a v).fetched = s.fetched := rfl
@[simp] theorem storeWord_branchFetched (s : State) (a v : Word) : (storeWord s a v).branchFetched = s.branchFetched := rfl
@[simp] theorem storeWord_status (s : State) (a v : Word) : (storeWord s a v).status = s.status := rfl
@[simp] theorem storeWord_log (s : State) (a v : Word) : (storeWord s a v).log = s.log := rfl
@[simp] theorem storeWord_slotIF (s : State) (a v : Word) : (storeWord s a v).slotIF = s.slotIF := rfl
@[simp] theorem storeWord_slotID (s : State) (a v : Word) : (storeWord s a v).slotID = s.slotID := rfl
@[simp] theorem storeWord_slotEX (s : State) (a v : Word) : (storeWord s a v).slotEX = s.slotEX := rfl
@[simp] theorem storeWord_slotMEM (s : State) (a v : Word) : (storeWord s a v).slotMEM = s.slotMEM := rfl
@[simp] theorem storeWord_slotWB (s : State) (a v : Word) : (storeWord s a v).slotWB = s.slotWB := rfl
@[simp] theorem storeWord_prog (s : State) (a v : Word) : (storeWord s a v).prog = s.prog := rfl
@[simp] theorem storeWord_labels (s : State) (a v : Word) : (storeWord s a v).labels = s.labels := rfl
@[simp] theorem storeWord_maxCycles (s : State) (a v : Word) : (storeWord s a v).maxCycles = s.maxCycles := rfl
@[simp] theorem storeWord_dmem (s : State) (a v : Word) : (storeWord s a v).dmem = memWrite s.dmem a.toNat v := rfl

/-! `appendReport` -/

@[simp] theorem appendReport_regs (k : ReportKind) (r : Record) (s : State) : (appendReport k r s).regs = s.regs := rfl
@[simp] theorem appendReport_hi (k : ReportKind) (r : Record) (s : State) : (appendReport k r s).hi = s.hi := rfl
@[simp] theorem appendReport_lo (k : ReportKind) (r : Record) (s : State) : (appendReport k r s).lo = s.lo := rfl
@[simp] theorem appendReport_pc (k : ReportKind) (r : Record) (s : State) : (appendReport k r s).pc = s.pc := rfl
@[simp] theorem appendReport_fb (k : ReportKind) (r : Record) (s : State) : (appendReport k r s).fb = s.fb := rfl
@[simp] theorem appendReport_cycles (k : ReportKind) (r : Record) (s : State) : (appendReport k r s).cycles = s.cycles := rfl
@[simp] theorem appendReport_instructionsRetired (k : ReportKind) (r : Record) (s : State) : (appendReport k r s).instructionsRetired = s.instructionsRetired := rfl
@[simp] theorem appendReport_stalls (k : ReportKind) (r : Record) (s : State) : (appendReport k r s).stalls = s.stalls := rfl
@[simp] theorem appendReport_fetched (k : ReportKind) (r : Record) (s : State) : (appendReport k r s).fetched = s.fetched := rfl
@[simp] theorem appendReport_branchFetched (k : ReportKind) (r : Record) (s : State) : (appendReport k r s).branchFetched = s.branchFetched := rfl
@[simp] theorem appendReport_status (k : ReportKind) (r : Record) (s : State) : (appendReport k r s).status = s.status := rfl
@[simp] theorem appendReport_slotIF (k : ReportKind) (r : Record) (s : State) : (appendReport k r s).slotIF = s.slotIF := rfl
@[simp] theorem appendReport_slotID (k : ReportKind) (r : Record) (s : State) : (appendReport k r s).slotID = s.slotID := rfl
@[simp] theorem appendReport_slotEX (k : ReportKind) (r : Record) (s : State) : (appendReport k r s).slotEX = s.slotEX := rfl
@[simp] theorem appendReport_slotMEM (k : ReportKind) (r : Record) (s : State) : (appendReport k r s).slotMEM = s.slotMEM := rfl
@[simp] theorem appendReport_slotWB (k : ReportKind) (r : Record) (s : State) : (appendReport k r s).slotWB = s.slotWB := rfl
@[simp] theorem appendReport_dmem (k : ReportKind) (r : Record) (s : State) : (appendReport k r s).dmem = s.dmem := rfl
@[simp] theorem appendReport_prog (k : ReportKind) (r : Record) (s : State) : (appendReport k r s).prog = s.prog := rfl
@[simp] theorem appendReport_labels (k : ReportKind) (r : Record) (s : State) : (appendReport k r s).labels = s.labels := rfl
@[simp] theorem appendReport_maxCycles (k : ReportKind) (r : Record) (s : State) : (appendReport k r s).maxCycles = s.maxCycles := rfl
@[simp] theorem appendReport_log (k : ReportKind) (r : Record) (s : State) : (appendReport k r s).log = s.log ++ [{ kind := k, pc := r.pc, cycle := s.cycles + 1 }] := rfl

/-! `setHiLo` -/

@[simp] theorem setHiLo_regs (s : State) (h l : Word) : (setHiLo s h l).regs = s.regs := rfl
@[simp] theorem setHiLo_pc (s : State) (h l : Word) : (setHiLo s h l).pc = s.pc := rfl
@[simp] theorem setHiLo_fb (s : State) (h l : Word) : (setHiLo s h l).fb = s.fb := rfl
@[simp] theorem setHiLo_cycles (s : State) (h l : Word) : (setHiLo s h l).cycles = s.cycles := rfl
@[simp] theorem setHiLo_instructionsRetired (s : State) (h l : Word) : (setHiLo s h l).instructionsRetired = s.instructionsRetired := rfl
@[simp] theorem setHiLo_stalls (s : State) (h l : Word) : (setHiLo s h l).stalls = s.stalls := rfl
@[simp] theorem setHiLo_fetched (s : State) (h l : Word) : (setHiLo s h l).fetched = s.fetched := rfl
@[simp] theorem setHiLo_branchFetched (s : State) (h l : Word) : (setHiLo s h l).branchFetched = s.branchFetched := rfl
@[simp] theorem setHiLo_status (s : State) (h l : Word) : (setHiLo s h l).status = s.status := rfl
@[simp] theorem setHiLo_log (s : State) (h l : Word) : (setHiLo s h l).log = s.log := rfl
@[simp] theorem setHiLo_slotIF (s : State) (h l : Word) : (setHiLo s h l).slotIF = s.slotIF := rfl
@[simp] theorem setHiLo_slotID (s : State) (h l : Word) : (setHiLo s h l).slotID = s.slotID := rfl
@[simp] theorem setHiLo_slotEX (s : State) (h l : Word) : (setHiLo s h l).slotEX = s.slotEX := rfl
@[simp] theorem setHiLo_slotMEM (s : State) (h l : Word) : (setHiLo s h l).slotMEM = s.slotMEM := rfl
@[simp] theorem setHiLo_slotWB (s : State) (h l : Word) : (setHiLo s h l).slotWB = s.slotWB := rfl
@[simp] theorem setHiLo_dmem (s : State) (h l : Word) : (setHiLo s h l).dmem = s.dmem := rfl
@[simp] theorem setHiLo_prog (s : State) (h l : Word) : (setHiLo s h l).prog = s.prog := rfl
@[simp] theorem setHiLo_labels (s : State) (h l : Word) : (setHiLo s h l).labels = s.labels := rfl
@[simp] theorem setHiLo_maxCycles (s : State) (h l : Word) : (setHiLo s h l).maxCycles = s.maxCycles := rfl
@[simp] theorem setHiLo_hi (s : State) (h l : Word) : (setHiLo s h l).hi = h := rfl
@[simp] theorem setHiLo_lo (s : State) (h l : Word) : (setHiLo s h l).lo = l := rfl

/-! `countFetch` -/

@[simp] theorem countFetch_regs (i : Instr) (s : State) : (countFetch i s).regs = s.regs := rfl
@[simp] theorem countFetch_hi (i : Instr) (s : State) : (countFetch i s).hi = s.hi := rfl
@[simp] theorem countFetch_lo (i : Instr) (s : State) : (countFetch i s).lo = s.lo := rfl
@[simp] theorem countFetch_fb (i : Instr) (s : State) : (countFetch i s).fb = s.fb := rfl
@[simp] theorem countFetch_cycles (i : Instr) (s : State) : (countFetch i s).cycles = s.cycles := rfl
@[simp] theorem countFetch_instructionsRetired (i : Instr) (s : State) : (countFetch i s).instructionsRetired = s.instructionsRetired := rfl
@[simp] theorem countFetch_stalls (i : Instr) (s : State) : (countFetch i s).stalls = s.stalls := rfl
@[simp] theorem countFetch_status (i : Instr) (s : State) : (countFetch i s).status = s.status := rfl
@[simp] theorem countFetch_log (i : Instr) (s : State) : (countFetch i s).log = s.log := rfl
@[simp] theorem countFetch_slotIF (i : Instr) (s : State) : (countFetch i s).slotIF = s.slotIF := rfl
@[simp] theorem countFetch_slotID (i : Instr) (s : State) : (countFetch i s).slotID = s.slotID := rfl
@[simp] theorem countFetch_slotEX (i : Instr) (s : State) : (countFetch i s).slotEX = s.slotEX := rfl
@[simp] theorem countFetch_slotMEM (i : Instr) (s : State) : (countFetch i s).slotMEM = s.slotMEM := rfl
@[simp] theorem countFetch_slotWB (i : Instr) (s : State) : (countFetch i s).slotWB = s.slotWB := rfl
@[simp] theorem countFetch_dmem (i : Instr) (s : State) : (countFetch i s).dmem = s.dmem := rfl
@[simp] theorem countFetch_prog (i : Instr) (s : State) : (countFetch i s).prog = s.prog := rfl
@[simp] theorem countFetch_labels (i : Instr) (s : State) : (countFetch i s).labels = s.labels := rfl
@[simp] theorem countFetch_maxCycles (i : Instr) (s : State) : (countFetch i s).maxCycles = s.maxCycles := rfl
@[simp] theorem countFetch_pc (i : Instr) (s : State) : (countFetch i s).pc = word (uval s.pc + 4) := rfl
@[simp] theorem countFetch_fetched (i : Instr) (s : State) : (countFetch i s).fetched = s.fetched + 1 := rfl
@[simp] theorem countFetch_branchFetched (i : Instr) (s : State) : (countFetch i s).branchFetched = if i.isControlFlow then s.branchFetched + 1 else s.branchFetched := rfl

/-! `countCycle` -/

@[simp] theorem countCycle_regs (s : State) : (countCycle s).regs = s.regs := rfl
@[simp] theorem countCycle_hi (s : State) : (countCycle s).hi = s.hi := rfl
@[simp] theorem countCycle_lo (s : State) : (countCycle s).lo = s.lo := rfl
@[simp] theorem countCycle_pc (s : State) : (countCycle s).pc = s.pc := rfl
@[simp] theorem countCycle_fb (s : State) : (countCycle s).fb = s.fb := rfl
@[simp] theorem countCycle_instructionsRetired (s : State) : (countCycle s).instructionsRetired = s.instructionsRetired := rfl
@[simp] theorem countCycle_stalls (s : State) : (countCycle s).stalls = s.stalls := rfl
@[simp] theorem countCycle_fetched (s : State) : (countCycle s).fetched = s.fetched := rfl
@[simp] theorem countCycle_branchFetched (s : State) : (countCycle s).branchFetched = s.branchFetched := rfl
@[simp] theorem countCycle_status (s : State) : (countCycle s).status = s.status := rfl
@[simp] theorem countCycle_log (s : State) : (countCycle s).log = s.log := rfl
@[simp] theorem countCycle_slotIF (s : State) : (countCycle s).slotIF = s.slotIF := rfl
@[simp] theorem countCycle_slotID (s : State) : (countCycle s).slotID = s.slotID := rfl
@[simp] theorem countCycle_slotEX (s : State) : (countCycle s).slotEX = s.slotEX := rfl
@[simp] theorem countCycle_slotMEM (s : State) : (countCycle s).slotMEM = s.slotMEM := rfl
@[simp] theorem countCycle_slotWB (s : State) : (countCycle s).slotWB = s.slotWB := rfl
@[simp] theorem countCycle_dmem (s : State) : (countCycle s).dmem = s.dmem := rfl
@[simp] theorem countCycle_prog (s : State) : (countCycle s).prog = s.prog := rfl
@[simp] theorem countCycle_labels (s : State) : (countCycle s).labels = s.labels := rfl
@[simp] theorem countCycle_maxCycles (s : State) : (countCycle s).maxCycles = s.maxCycles := rfl
@[simp] theorem countCycle_cycles (s : State) : (countCycle s).cycles = s.cycles + 1 := rfl

/-! `writeback` -/

@[simp] theorem writeback_hi (s : State) (r : Record) : (writeback s r).hi = s.hi := by unfold writeback; split <;> simp
@[simp] theorem writeback_lo (s : State) (r : Record) : (writeback s r).lo = s.lo := by unfold writeback; split <;> simp
@[simp] theorem writeback_pc (s : State) (r : Record) : (writeback s r).pc = s.pc := by unfold writeback; split <;> simp
@[simp] theorem writeback_fb (s : State) (r : Record) : (writeback s r).fb = s.fb := by unfold writeback; split <;> simp
@[simp] theorem writeback_cycles (s : State) (r : Record) : (writeback s r).cycles = s.cycles := by unfold writeback; split <;> simp
@[simp] theorem writeback_instructionsRetired (s : State) (r : Record) : (writeback s r).instructionsRetired = s.instructionsRetired := by unfold writeback; split <;> simp
@[simp] theorem writeback_stalls (s : State) (r : Record) : (writeback s r).stalls = s.stalls := by unfold writeback; split <;> simp
@[simp] theorem writeback_fetched (s : State) (r : Record) : (writeback s r).fetched = s.fetched := by unfold writeback; split <;> simp
@[simp] theorem writeback_branchFetched (s : State) (r : Record) : (writeback s r).branchFetched = s.branchFetched := by unfold writeback; split <;> simp
@[simp] theorem writeback_status (s : State) (r : Record) : (writeback s r).status = s.status := by unfold writeback; split <;> simp
@[simp] theorem writeback_log (s : State) (r : Record) : (writeback s r).log = s.log := by unfold writeback; split <;> simp
@[simp] theorem writeback_slotIF (s : State) (r : Record) : (writeback s r).slotIF = s.slotIF := by unfold writeback; split <;> simp
@[simp] theorem writeback_slotID (s : State) (r : Record) : (writeback s r).slotID = s.slotID := by unfold writeback; split <;> simp
@[simp] theorem writeback_slotEX (s : State) (r : Record) : (writeback s r).slotEX = s.slotEX := by unfold writeback; split <;> simp
@[simp] theorem writeback_slotMEM (s : State) (r : Record) : (writeback s r).slotMEM = s.slotMEM := by unfold writeback; split <;> simp
@[simp] theorem writeback_slotWB (s : State) (r : Record) : (writeback s r).slotWB = s.slotWB := by unfold writeback; split <;> simp
@[simp] theorem writeback_dmem (s : State) (r : Record) : (writeback s r).dmem = s.dmem := by unfold writeback; split <;> simp
@[simp] theorem writeback_prog (s : State) (r : Record) : (writeback s r).prog = s.prog := by unfold writeback; split <;> simp
@[simp] theorem writeback_labels (s : State) (r : Record) : (writeback s r).labels = s.labels := by unfold writeback; split <;> simp
@[simp] theorem writeback_maxCycles (s : State) (r : Record) : (writeback s r).maxCycles = s.maxCycles := by unfold writeback; split <;> simp

/-! `retire` -/

@[simp] theorem retire_hi (s : State) (r : Record) : (retire s r).hi = s.hi := by simp [retire]
@[simp] theorem retire_lo (s : State) (r : Record) : (retire s r).lo = s.lo := by simp [retire]
@[simp] theorem retire_pc (s : State) (r : Record) : (retire s r).pc = s.pc := by simp [retire]
@[simp] theorem retire_fb (s : State) (r : Record) : (retire s r).fb = s.fb := by simp [retire]
@[simp] theorem retire_cycles (s : State) (r : Record) : (retire s r).cycles = s.cycles := by simp [retire]
@[simp] theorem retire_stalls (s : State) (r : Record) : (retire s r).stalls = s.stalls := by simp [retire]
@[simp] theorem retire_fetched (s : State) (r : Record) : (retire s r).fetched = s.fetched := by simp [retire]
@[simp] theorem retire_branchFetched (s : State) (r : Record) : (retire s r).branchFetched = s.branchFetched := by simp [retire]
@[simp] theorem retire_status (s : State) (r : Record) : (retire s r).status = s.status := by simp [retire]
@[simp] theorem retire_log (s : State) (r : Record) : (retire s r).log = s.log := by simp [retire]
@[simp] theorem retire_slotIF (s : State) (r : Record) : (retire s r).slotIF = s.slotIF := by simp [retire]
@[simp] theorem retire_slotID (s : State) (r : Record) : (retire s r).slotID = s.slotID := by simp [retire]
@[simp] theorem retire_slotEX (s : State) (r : Record) : (retire s r).slotEX = s.slotEX := by simp [retire]
@[simp] theorem retire_slotMEM (s : State) (r : Record) : (retire s r).slotMEM = s.slotMEM := by simp [retire]
@[simp] theorem retire_slotWB (s : State) (r : Record) : (retire s r).slotWB = s.slotWB := by simp [retire]
@[simp] theorem retire_dmem (s : State) (r : Record) : (retire s r).dmem = s.dmem := by simp [retire]
@[simp] theorem retire_prog (s : State) (r : Record) : (retire s r).prog = s.prog := by simp [retire]
@[simp] theorem retire_labels (s : State) (r : Record) : (retire s r).labels = s.labels := by simp [retire]
@[simp] theorem retire_maxCycles (s : State) (r : Record) : (retire s r).maxCycles = s.maxCycles := by simp [retire]
@[simp] theorem retire_regs (s : State) (r : Record) : (retire s r).regs = (writeback s r).regs := rfl
@[simp] theorem retire_instructionsRetired (s : State) (r : Record) : (retire s r).instructionsRetired = s.instructionsRetired + 1 := rfl

/-! `stallCycle` -/

@[simp] theorem stallCycle_regs (s : State) : (stallCycle s).regs = s.regs := rfl
@[simp] theorem stallCycle_hi (s : State) : (stallCycle s).hi = s.hi := rfl
@[simp] theorem stallCycle_lo (s : State) : (stallCycle s).lo = s.lo := rfl
@[simp] theorem stallCycle_pc (s : State) : (stallCycle s).pc = s.pc := rfl
@[simp] theorem stallCycle_fb (s : State) : (stallCycle s).fb = s.fb := rfl
@[simp] theorem stallCycle_cycles (s : State) : (stallCycle s).cycles = s.cycles := rfl
@[simp] theorem stallCycle_instructionsRetired (s : State) : (stallCycle s).instructionsRetired = s.instructionsRetired := rfl
@[simp] theorem stallCycle_fetched (s : State) : (stallCycle s).fetched = s.fetched := rfl
@[simp] theorem stallCycle_branchFetched (s : State) : (stallCycle s).branchFetched = s.branchFetched := rfl
@[simp] theorem stallCycle_status (s : State) : (stallCycle s).status = s.status := rfl
@[simp] theorem stallCycle_log (s : State) : (stallCycle s).log = s.log := rfl
@[simp] theorem stallCycle_slotIF (s : State) : (stallCycle s).slotIF = s.slotIF := rfl
@[simp] theorem stallCycle_slotID (s : State) : (stallCycle s).slotID = s.slotID := rfl
@[simp] theorem stallCycle_slotMEM (s : State) : (stallCycle s).slotMEM = s.slotMEM := rfl
@[simp] theorem stallCycle_slotWB (s : State) : (stallCycle s).slotWB = s.slotWB := rfl
@[simp] theorem stallCycle_dmem (s : State) : (stallCycle s).dmem = s.dmem := rfl
@[simp] theorem stallCycle_prog (s : State) : (stallCycle s).prog = s.prog := rfl
@[simp] theorem stallCycle_labels (s : State) : (stallCycle s).labels = s.labels := rfl
@[simp] theorem stallCycle_maxCycles (s : State) : (stallCycle s).maxCycles = s.maxCycles := rfl
@[simp] theorem stallCycle_slotEX (s : State) : (stallCycle s).slotEX = none := rfl
@[simp] theorem stallCycle_stalls (s : State) : (stallCycle s).stalls = s.stalls + 1 := rfl

end Sys2Proof.Machine
end

