-- ==== Sys2Proof/Laws/Ops.lean ====
section
/-!
SUPPORT. The laws of the named operations: registers (spec/10_state.md R31), data memory (spec/20_memory.md R65) with its canonical form,
and sequencing.
-/
namespace Sys2Proof.Machine

/-! Sequencing -/

section
variable {α β : Type}

@[simp] theorem andThen_next (a : α) (f : α → Host.Outcome β Fault Refusal) : andThen (.next a) f = f a := rfl
@[simp] theorem andThen_fault (r : Fault) (f : α → Host.Outcome β Fault Refusal) : andThen (.fault r) f = .fault r := rfl
@[simp] theorem andThen_refused (r : Refusal) (f : α → Host.Outcome β Fault Refusal) : andThen (.refused r) f = .refused r := rfl

/-- Two next states are one. -/
theorem next_inj {a b : α} (h : (Host.Outcome.next a : Host.Outcome α Fault Refusal) = .next b) : a = b := by
  injection h

/-- A sequence answers a next state exactly when both parts do. -/
theorem andThen_eq_next {o : Host.Outcome α Fault Refusal} {f : α → Host.Outcome β Fault Refusal} {b : β} :
    andThen o f = .next b ↔ ∃ a, o = .next a ∧ f a = .next b := by
  cases o <;> simp

end

/-! Registers -/

@[simp] theorem readReg_zero (s : State) : readReg s 0#5 = 0#32 := rfl

@[simp] theorem writeReg_zero (s : State) (v : Word) : writeReg s 0#5 v = s := rfl

theorem readReg_of_ne {s : State} {r : Reg} (h : r ≠ 0) : readReg s r = s.regs[r.toNat]'r.isLt := if_neg h

/-- Reading depends on the register file alone. -/
theorem readReg_congr {s t : State} (h : s.regs = t.regs) (r : Reg) : readReg s r = readReg t r := by
  simp [readReg, h]

theorem readReg_writeReg (s : State) (r q : Reg) (v : Word) :
    readReg (writeReg s r v) q = if q = r ∧ q ≠ 0 then v else readReg s q := by
  by_cases hq : q = 0
  · simp [hq]
  by_cases hr : r = 0
  · simp [hr]
  simp only [readReg_of_ne hq, writeReg, if_neg hr, Vector.getElem_set, ne_eq, hq, not_false_eq_true, and_true]
  by_cases h : q = r
  · simp [h]
  · have : r.toNat ≠ q.toNat := fun e => h (BitVec.eq_of_toNat_eq e.symm)
    simp [h, this]

theorem readReg_writeback (s : State) (r : Record) (q : Reg) :
    readReg (writeback s r) q = (producerOf (some r) q).getD (readReg s q) := by
  by_cases hq : q = 0
  · simp [hq, producerOf]
  cases hv : r.result with
  | none => simp [writeback, producerOf, hv]
  | some v =>
    by_cases hd : r.instr.dest = q
    · have hq' : q ≠ 0#5 := hq
      simp [writeback, producerOf, hv, readReg_writeReg, hq', hd]
    · simp [writeback, producerOf, hv, readReg_writeReg, hd, Ne.symm hd]

theorem readReg_commitSlot (s : State) (w0 : Slot) (q : Reg) :
    readReg (commitSlot s w0) q = (producerOf w0 q).getD (readReg s q) := by
  cases w0 with
  | none => simp [commitSlot, producerOf]
  | some r => exact (readReg_congr rfl q).trans (readReg_writeback s r q)

/-- The stored register 0 stays as it is (R31). -/
theorem writeReg_stored_zero (s : State) (r : Reg) (v : Word) : (writeReg s r v).regs[0] = s.regs[0] := by
  unfold writeReg
  split
  · rfl
  · rename_i h
    have : r.toNat ≠ 0 := fun e => h (BitVec.eq_of_toNat_eq e)
    simp [this]

/-! Data memory -/

@[simp] theorem memRead_nil (a : Nat) : memRead [] a = unlistedCell := rfl

/-- A canonical list that starts above an address holds nothing there. -/
theorem memRead_below {m : Memory} {lo a : Nat} (h : Memory.wfFrom lo m = true) (ha : a < lo) : memRead m a = unlistedCell := by
  induction m generalizing lo with
  | nil => rfl
  | cons c m ih =>
    obtain ⟨b, u⟩ := c
    simp only [Memory.wfFrom, Bool.and_eq_true, decide_eq_true_eq] at h
    have : b ≠ a := by omega
    simp only [memRead, if_neg this]
    exact ih h.2 (by omega)

theorem memRead_memWrite_from {m : Memory} {lo : Nat} (h : Memory.wfFrom lo m = true) (a b : Nat) (v : Word) :
    memRead (memWrite m a v) b = if b = a then v else memRead m b := by
  induction m generalizing lo with
  | nil =>
    by_cases hv : v = unlistedCell <;> by_cases hb : b = a
    · simp [memWrite, hv]
    · simp [memWrite, hv]
    · simp [memWrite, hv, memRead, hb]
    · simp [memWrite, hv, memRead, hb, Ne.symm hb]
  | cons c m ih =>
    obtain ⟨k, u⟩ := c
    have h' := h
    simp only [Memory.wfFrom, Bool.and_eq_true, decide_eq_true_eq] at h'
    have hold := memRead_below (a := a) (lo := k) (m := (k, u) :: m) (by
      simp only [Memory.wfFrom, Bool.and_eq_true, decide_eq_true_eq]
      exact ⟨⟨⟨Nat.le_refl _, h'.1.1.2⟩, h'.1.2⟩, h'.2⟩)
    have habove := memRead_below (a := a) h'.2
    unfold memWrite
    split
    · rename_i hak
      by_cases hb : b = a
      · subst hb
        by_cases hv : v = unlistedCell <;> simp [hv, memRead, hold hak] at *
        exact hold hak
      · by_cases hv : v = unlistedCell <;> simp [hv, memRead, hb, Ne.symm hb]
    split
    · rename_i hak
      subst hak
      by_cases hb : b = a
      · subst hb
        by_cases hv : v = unlistedCell <;> simp [hv, memRead, habove]
      · by_cases hv : v = unlistedCell <;> simp [hv, memRead, hb, Ne.symm hb]
    · rename_i h1 h2
      by_cases hb : k = b
      · have : b ≠ a := fun e => h2 (e.symm.trans hb.symm)
        simp [memRead, hb, this]
      · simp [memRead, hb, ih h'.2]

/-- Read after write: the cell written, and every other cell (R65). -/
theorem memRead_memWrite {m : Memory} (h : Memory.wf m = true) (a b : Nat) (v : Word) :
    memRead (memWrite m a v) b = if b = a then v else memRead m b := memRead_memWrite_from h a b v

theorem memWrite_wfFrom {m : Memory} {lo a : Nat} (v : Word) (h : Memory.wfFrom lo m = true) (hlo : lo ≤ a) (ha : a < 2 ^ 32) :
    Memory.wfFrom lo (memWrite m a v) = true := by
  induction m generalizing lo with
  | nil =>
    unfold memWrite
    split
    · rfl
    · rename_i hv
      simp only [Memory.wfFrom, Bool.and_eq_true, decide_eq_true_eq]
      exact ⟨⟨⟨hlo, ha⟩, hv⟩, trivial⟩
  | cons c m ih =>
    obtain ⟨k, u⟩ := c
    have h' := h
    simp only [Memory.wfFrom, Bool.and_eq_true, decide_eq_true_eq] at h'
    obtain ⟨⟨⟨h1, h2⟩, h3⟩, h4⟩ := h'
    unfold memWrite
    split
    · split
      · exact h
      · rename_i hak hv
        simp only [Memory.wfFrom, Bool.and_eq_true, decide_eq_true_eq]
        exact ⟨⟨⟨hlo, ha⟩, hv⟩, ⟨⟨by omega, h2⟩, h3⟩, h4⟩
    · split
      · rename_i hak
        subst hak
        split
        · have mono : ∀ {l l' : Nat} {n : Memory}, l' ≤ l → Memory.wfFrom l n = true → Memory.wfFrom l' n = true := by
            intro l l' n hl hn
            cases n with
            | nil => rfl
            | cons e n =>
              simp only [Memory.wfFrom, Bool.and_eq_true, decide_eq_true_eq] at hn ⊢
              exact ⟨⟨⟨by omega, hn.1.1.2⟩, hn.1.2⟩, hn.2⟩
          exact mono (by omega) h4
        · rename_i hv
          simp only [Memory.wfFrom, Bool.and_eq_true, decide_eq_true_eq]
          exact ⟨⟨⟨hlo, ha⟩, hv⟩, h4⟩
      · rename_i h5 h6
        simp only [Memory.wfFrom, Bool.and_eq_true, decide_eq_true_eq]
        exact ⟨⟨⟨h1, h2⟩, h3⟩, ih h4 (by omega)⟩

/-- Every write keeps the canonical form. -/
theorem storeWord_wf {s : State} (h : Memory.wf s.dmem = true) (a v : Word) : Memory.wf (storeWord s a v).dmem = true :=
  memWrite_wfFrom v h (Nat.zero_le _) a.isLt

theorem loadWord_storeWord {s : State} (h : Memory.wf s.dmem = true) (a b v : Word) :
    loadWord (storeWord s a v) b = if b = a then v else loadWord s b := by
  simp [loadWord, memRead_memWrite h, BitVec.toNat_inj]

theorem reset_memory_wf : Memory.wf State.reset.dmem = true := rfl

end Sys2Proof.Machine
end

