-- ==== Sys2Proof/Laws/Arith.lean ====
section
/-!
SUPPORT. The exact-integer formulas of the spec (spec/00_scope.md R9) as bit-vector operations, for proofs.
-/
namespace Sys2Proof.Machine

theorem word_uval (a : Word) : word (uval a) = a := by simp [word, uval]

theorem word_sval (a : Word) : word (sval a) = a := by simp [word, sval]

theorem word_add (m n : Int) : word (m + n) = word m + word n := BitVec.ofInt_add _ _

theorem word_uval_add (a b : Word) : word (uval a + uval b) = a + b := by
  rw [word_add, word_uval, word_uval]

theorem word_uval_sub (a b : Word) : word (uval a - uval b) = a - b := by
  rw [sub_eq_add_neg, word_add, word_uval, word, BitVec.ofInt_neg, ← word, word_uval, BitVec.sub_eq_add_neg]

theorem word_uval_add_four (a : Word) : word (uval a + 4) = a + 4 := by
  rw [word_add, word_uval]
  rfl

theorem condLt_eq_slt (a b : Word) : condLt a b = a.slt b := rfl

theorem condLe_eq_sle (a b : Word) : condLe a b = a.sle b := rfl

theorem toNat_imemIndex (pc : Word) : (imemIndex pc).toNat = pc.toNat / 4 := by
  have := pc.isLt
  simp only [imemIndex, BitVec.extractLsb'_toNat, Nat.shiftRight_eq_div_pow]
  omega

/-- The address of store index `k`, read back (R90, R114). -/
theorem imemIndex_word (k : Nat) (h : k < 2 ^ 30) : (imemIndex (word (4 * (k : Int)))).toNat = k := by
  rw [toNat_imemIndex]
  simp only [word, BitVec.toNat_ofInt]
  omega

/-- The capped distance gives the spec's unbounded formula (R201). -/
theorem shiftLeft_min (a : Word) (n : Nat) : shiftLeft a (min n 32) = a <<< n := by
  apply BitVec.eq_of_toNat_eq
  simp only [shiftLeft, word, uval, BitVec.toNat_ofInt, BitVec.toNat_shiftLeft, Nat.shiftLeft_eq]
  by_cases h : n ≤ 32
  · rw [min_eq_left h]
    norm_cast
  · have hn : n = 32 + (n - 32) := by omega
    rw [min_eq_right (by omega), hn, pow_add]
    have : ((a.toNat : Int) * 2 ^ 32) % (2 ^ 32 : Nat) = 0 := by
      norm_num
    rw [show ((2 ^ 32 : Nat) : Int) = 2 ^ 32 by norm_num] at this ⊢
    rw [this, ← mul_assoc, mul_comm a.toNat, mul_assoc]
    simp

theorem shiftRight_min (a : Word) (n : Nat) : shiftRight a (min n 32) = a >>> n := by
  apply BitVec.eq_of_toNat_eq
  have ha := a.isLt
  have key : ∀ k : Nat, (word (uval a >>> k)).toNat = a.toNat >>> k := by
    intro k
    have : uval a >>> k = ((a.toNat >>> k : Nat) : Int) := rfl
    rw [this, word, BitVec.ofInt_natCast, BitVec.toNat_ofNat]
    exact Nat.mod_eq_of_lt (lt_of_le_of_lt (Nat.shiftRight_le _ _) ha)
  rw [shiftRight, key, BitVec.toNat_ushiftRight]
  by_cases h : n ≤ 32
  · rw [min_eq_left h]
  · rw [min_eq_right (by omega), Nat.shiftRight_eq_div_pow, Nat.shiftRight_eq_div_pow, Nat.div_eq_of_lt ha,
      Nat.div_eq_of_lt (lt_of_lt_of_le ha (Nat.pow_le_pow_right (by omega) (by omega)))]

theorem shiftRightSigned_min (a : Word) (n : Nat) : shiftRightSigned a (min n 32) = a.sshiftRight n := by
  change a.sshiftRight (min n 32) = a.sshiftRight n
  by_cases h : n ≤ 32
  · rw [min_eq_left h]
  · rw [min_eq_right (by omega)]
    apply BitVec.eq_of_getLsbD_eq
    intro k hk
    have h1 : ¬ (n + k < 32) := by omega
    rw [BitVec.getLsbD_sshiftRight, BitVec.getLsbD_sshiftRight, if_neg h1, if_neg (by omega)]

/-- The sign and the size of a shift amount (R200). -/
theorem sval_neg_iff (imm : Word) : sval imm < 0 ↔ imm.msb = true := by
  rw [sval, BitVec.msb_eq_toInt]
  simp

theorem shiftDistance_of_nonneg {imm : Word} (h : imm.msb = false) : shiftDistance imm = min imm.toNat 32 := by
  simp [shiftDistance, sval, BitVec.toInt_eq_toNat_of_msb h]

/-- The low and high halves of the signed product (R191). -/
theorem productLo_eq (a b : Word) : productLo a b = a * b := by
  apply BitVec.eq_of_toInt_eq
  simp only [productLo, word, sval]
  rw [BitVec.toInt_ofInt, BitVec.toInt_mul, show (2 : Int) ^ 64 = ((2 ^ 64 : Nat) : Int) by norm_num]
  simp only [Int.bmod, Int.emod_emod_of_dvd _ (show ((2 ^ 32 : Nat) : Int) ∣ ((2 ^ 64 : Nat) : Int) by norm_num)]

theorem productHi_eq (a b : Word) : productHi a b = (a.signExtend 64 * b.signExtend 64).extractLsb' 32 32 := by
  have e : (a.signExtend 64 * b.signExtend 64).toNat = ((sval a * sval b) % 2 ^ 64).toNat := by
    have : a.signExtend 64 * b.signExtend 64 = BitVec.ofInt 64 (sval a * sval b) := by
      rw [BitVec.ofInt_mul, sval, sval, BitVec.signExtend, BitVec.signExtend]
    rw [this, BitVec.toNat_ofInt]
    norm_num
  have h0 : 0 ≤ (sval a * sval b) % 2 ^ 64 := Int.emod_nonneg _ (by norm_num)
  apply BitVec.eq_of_toNat_eq
  simp only [productHi, word, BitVec.toNat_ofInt, BitVec.extractLsb'_toNat, e]
  generalize (sval a * sval b) % 2 ^ 64 = q at h0
  obtain ⟨n, rfl⟩ := Int.eq_ofNat_of_zero_le h0
  have : ((n : Int) >>> 32) = ((n >>> 32 : Nat) : Int) := rfl
  simp only [this, Int.toNat_natCast]
  omega

/-- The truncated quotient and its remainder (R192). -/
theorem quotient_eq (a b : Word) : quotient a b = a.sdiv b := by
  apply BitVec.eq_of_toInt_eq
  rw [quotient, word, BitVec.toInt_ofInt, BitVec.toInt_sdiv]
  rfl

theorem remainder_eq (a b : Word) : remainder a b = a.srem b := by
  apply BitVec.eq_of_toInt_eq
  have h := BitVec.toInt_srem a b
  have h1 := (a.srem b).toInt_lt
  have h2 := (a.srem b).le_toInt
  rw [remainder, word, BitVec.toInt_ofInt, h]
  rw [h] at h1 h2
  simp only [sval]
  rw [Int.bmod_eq_of_le] <;> omega

/-- The address a fetch gives its record is `pc` without its two low bits (R90, R114). -/
theorem fetchedRecord_pc (i : Instr) (pc : Word) : (fetchedRecord i pc).pc = pc &&& 0xFFFFFFFC#32 := by
  have e : pc &&& 0xFFFFFFFC#32 = (pc >>> 2) <<< 2 := by
    apply BitVec.eq_of_getLsbD_eq
    intro k hk
    interval_cases k <;> simp
  apply BitVec.eq_of_toNat_eq
  have h := toNat_imemIndex pc
  have hl := pc.isLt
  rw [e]
  simp only [fetchedRecord, word, BitVec.toNat_ofInt, h, BitVec.toNat_shiftLeft, BitVec.toNat_ushiftRight, Nat.shiftLeft_eq,
    Nat.shiftRight_eq_div_pow]
  omega

end Sys2Proof.Machine
end

