-- ==== Sys2Proof/Laws/Stage.lean ====
section
/-!
SUPPORT. What an instruction run alone does, stage by stage, and that the meanings and the cycle use the same stage functions.
-/
namespace Sys2Proof.Machine

/-- The meaning of an instruction is its stage functions, run alone: the same ones the cycle runs. -/
theorem exec_eq_alone (i : Instr) (s : State) : exec i s = alone i (stagesOf i) s := by
  cases i <;> rfl

/-- With nothing in flight ahead, an operand is the register's value (R119). -/
theorem operand_alone (s : State) (r : Reg) : operand s none none none r = readReg s r := by
  unfold operand readReg
  split <;> rfl

theorem capture_alone (s : State) (r : Record) :
    capture s none none none r = { r with rsVal := readReg s r.instr.rs, rtVal := readReg s r.instr.rt } := by
  simp [capture, operand_alone]

/-- The memory and writeback cycles of a record alone. -/
theorem finishFromMemory_eq_next {m : Stages} {s t : State} {r : Record} :
    finishFromMemory m s r = .next t ↔
      ∃ p, m.memory s r = .next p ∧ countCycle (retire (countCycle p.1) { r with result := p.2 }) = t := by
  simp [finishFromMemory, andThen_eq_next]

/-- What an instruction that only computes a result does alone, from execute on. -/
theorem finishFromExecute_computes (f : Record → Word) (s : State) (r : Record) :
    finishFromExecute (computes f) s r =
      .next (countCycle (retire (countCycle (countCycle s)) { r with result := some (f r) })) := rfl

/-- Decode of an instruction alone, when its branch resolution answers. -/
theorem finishFromDecode_of_resolve {m : Stages} {s : State} {r : Record} {p : State × Option Word}
    (h : m.resolve s (capture s none none none r) = .next p) :
    finishFromDecode m s r =
      finishFromExecute m (countCycle { p.1 with pc := p.2.getD p.1.pc, fb := s.fb }) (capture s none none none r) := by
  simp [finishFromDecode, h]

/-- The exact effect of an instruction that computes one word and touches nothing else. -/
theorem alone_computes (i : Instr) (f : Record → Word) (s : State) :
    alone i (computes f) s =
      .next { writeReg s i.dest (f { fetchedRecord i s.pc with rsVal := readReg s i.rs, rtVal := readReg s i.rt }) with
        pc := word (uval s.pc + 4)
        cycles := s.cycles + 6
        fetched := s.fetched + 1
        branchFetched := if i.isControlFlow then s.branchFetched + 1 else s.branchFetched
        instructionsRetired := s.instructionsRetired + 1 } := by
  rw [alone, finishFromDecode_of_resolve (p := (countCycle (countCycle (countFetch i s)), none)) rfl,
    finishFromExecute_computes, capture_alone]
  simp only [retire, writeback, countCycle, countFetch, fetchedRecord, Option.getD_none]
  by_cases hd : i.dest = 0
  · simp [hd, writeReg]
  · have hd' : ¬ i.dest = 0#5 := hd
    simp [hd', writeReg, readReg]

end Sys2Proof.Machine
end

