-- ==== Sys2Proof/Laws/Cycle.lean ====
section
/-!
SUPPORT. Everything each part of a cycle can do, once: what the provers cite instead of unfolding the cycle.
-/
namespace Sys2Proof.Machine

/-- The memory stage (R136): nothing for a bubble; a word loaded, a word stored, or the record passed on unchanged. -/
theorem memorySlot_cases {s t : State} {m0 m1 : Slot} (h : memorySlot s m0 = .next (t, m1)) :
    (m0 = none ∧ t = s ∧ m1 = none) ∨
    (∃ r rt rs imm a, m0 = some r ∧ r.instr = .lw rt rs imm ∧ r.result = some a ∧ t = s ∧
      m1 = some { r with result := some (loadWord s a) }) ∨
    (∃ r rt rs imm a, m0 = some r ∧ r.instr = .sw rt rs imm ∧ r.result = some a ∧ t = storeWord s a r.rtVal ∧ m1 = some r) ∨
    (∃ r, m0 = some r ∧ r.instr.isLw = false ∧ (∀ rt rs imm, r.instr ≠ .sw rt rs imm) ∧ t = s ∧ m1 = some r) := by
  cases m0 with
  | none => exact .inl ⟨rfl, by simpa [memorySlot, eq_comm] using h⟩
  | some r =>
    refine .inr ?_
    obtain ⟨p, hp, hq⟩ := andThen_eq_next.1 h
    have hq : p.1 = t ∧ some { r with result := p.2 } = m1 := by simpa using hq
    obtain ⟨rfl, rfl⟩ := hq
    obtain ⟨i, pc, va, vb, res⟩ := r
    cases i with
    | lw rt rs imm =>
      cases res with
      | none => simp [stagesOf, lwStages, loadMemory] at hp
      | some a =>
        have hp : (s, some (loadWord s a)) = p := by simpa [stagesOf, lwStages, loadMemory] using hp
        subst hp
        exact .inl ⟨_, rt, rs, imm, a, rfl, rfl, rfl, rfl, rfl⟩
    | sw rt rs imm =>
      cases res with
      | none => simp [stagesOf, swStages, storeMemory] at hp
      | some a =>
        have hp : (storeWord s a vb, some a) = p := by simpa [stagesOf, swStages, storeMemory] using hp
        subst hp
        exact .inr (.inl ⟨_, rt, rs, imm, a, rfl, rfl, rfl, rfl, rfl⟩)
    | _ =>
      have hp : (s, res) = p := by
        simpa [stagesOf, nopStages, addStages, subStages, andStages, orStages, sltStages, norStages, addiStages, andiStages,
          oriStages, sltiStages, computes, multStages, divStages, mfhiStages, mfloStages, sllStages, srlStages, sraStages, jStages,
          jalStages, jrStages, beqStages, bneStages, bltStages, bgtStages, bleStages, bgeStages] using hp
      subst hp
      exact .inr (.inr ⟨_, rfl, rfl, by simp, rfl, rfl⟩)

/-- The execute stage touches HI, LO and the report log alone (R134). -/
theorem execute_touches (i : Instr) (s : State) (r : Record) :
    ∃ h l lg, ((stagesOf i).execute s r).1 = { s with hi := h, lo := l, log := lg } := by
  cases i with
  | div rs rt =>
    by_cases hb : r.rtVal = 0
    · exact ⟨0, 0, (appendReport .divByZero r s).log, by simp [stagesOf, divStages, divExecute, hb, appendReport, setHiLo]⟩
    · exact ⟨remainder r.rsVal r.rtVal, quotient r.rsVal r.rtVal, s.log, by
        have hb' : ¬ r.rtVal = 0#32 := hb
        simp [stagesOf, divStages, divExecute, hb', setHiLo]⟩
  | mult rs rt => exact ⟨productHi r.rsVal r.rtVal, productLo r.rsVal r.rtVal, s.log, rfl⟩
  | sll rt rs imm =>
    by_cases hn : sval imm < 0
    · exact ⟨s.hi, s.lo, (appendReport .invalidShift r s).log, by simp [stagesOf, sllStages, shiftExecute, hn, appendReport]⟩
    · exact ⟨s.hi, s.lo, s.log, by simp [stagesOf, sllStages, shiftExecute, hn]⟩
  | srl rt rs imm =>
    by_cases hn : sval imm < 0
    · exact ⟨s.hi, s.lo, (appendReport .invalidShift r s).log, by simp [stagesOf, srlStages, shiftExecute, hn, appendReport]⟩
    · exact ⟨s.hi, s.lo, s.log, by simp [stagesOf, srlStages, shiftExecute, hn]⟩
  | sra rt rs imm =>
    by_cases hn : sval imm < 0
    · exact ⟨s.hi, s.lo, (appendReport .invalidShift r s).log, by simp [stagesOf, sraStages, shiftExecute, hn, appendReport]⟩
    · exact ⟨s.hi, s.lo, s.log, by simp [stagesOf, sraStages, shiftExecute, hn]⟩
  | _ => exact ⟨s.hi, s.lo, s.log, rfl⟩

/-- The commit of WB touches the register file and the retired counter alone (R138, R139). -/
theorem commitSlot_touches (s : State) (w0 : Slot) :
    commitSlot s w0 = { s with
      regs := (commitSlot s w0).regs
      instructionsRetired := s.instructionsRetired + (if w0 = none then 0 else 1) } := by
  cases w0 with
  | none => rfl
  | some r =>
    simp only [commitSlot, retire, writeback]
    cases r.result with
    | none => simp
    | some v =>
      by_cases hd : r.instr.dest = 0
      · simp [hd]
      · have hd' : ¬ r.instr.dest = 0#5 := hd
        simp [writeReg, hd']

/-- The memory stage touches the data memory alone, and passes on the same instruction at the same address (R136, R153). -/
theorem memorySlot_touches {s t : State} {m0 m1 : Slot} (h : memorySlot s m0 = .next (t, m1)) :
    t = { s with dmem := t.dmem } ∧ m1.map (fun r => (r.instr, r.pc)) = m0.map (fun r => (r.instr, r.pc)) := by
  rcases memorySlot_cases h with ⟨rfl, rfl, rfl⟩ | ⟨r, rt, rs, imm, a, rfl, -, -, rfl, rfl⟩ | ⟨r, rt, rs, imm, a, rfl, -, -, rfl, rfl⟩ |
    ⟨r, rfl, -, -, rfl, rfl⟩ <;> exact ⟨rfl, rfl⟩

/-- The execute stage of a slot touches HI, LO and the report log alone, and passes on the same instruction at the same address. -/
theorem executeSlot_touches (s : State) (x0 m0 m1 w0 : Slot) :
    (executeSlot s x0 m0 m1 w0).1 = { s with
      hi := (executeSlot s x0 m0 m1 w0).1.hi
      lo := (executeSlot s x0 m0 m1 w0).1.lo
      log := (executeSlot s x0 m0 m1 w0).1.log } ∧
    (executeSlot s x0 m0 m1 w0).2.map (fun r => (r.instr, r.pc)) = x0.map (fun r => (r.instr, r.pc)) := by
  cases x0 with
  | none => exact ⟨rfl, rfl⟩
  | some r =>
    obtain ⟨h, l, lg, e⟩ := execute_touches r.instr s (forwardInto m0 m1 w0 r)
    exact ⟨by simp [executeSlot, e], rfl⟩

/-- Branch resolution touches the link register and the fetch-bubble flag alone (R221, R229, R230). -/
theorem resolve_touches {i : Instr} {s : State} {r : Record} {p : State × Option Word} (h : (stagesOf i).resolve s r = .next p) :
    p.1 = s ∨ (∃ label, i = .jal label ∧ p.1 = writeReg s Config.linkReg (word (uval r.pc + 4))) ∨
      (∃ rs, i = .jr rs ∧ p.1 = { s with fb := true }) := by
  have take : ∀ {l : Word} {u : State}, takeLabel l u r = .next p → p.1 = u := by
    intro l u h
    unfold takeLabel at h
    split at h
    · exact (congrArg Prod.fst (next_inj h)).symm
    · simp at h
  have branch : ∀ {c : Word → Word → Bool} {l : Word}, branchResolve c l s r = .next p → p.1 = s := by
    intro c l h
    unfold branchResolve at h
    split at h
    · exact take h
    · exact (congrArg Prod.fst (next_inj h)).symm
  cases i with
  | j l => exact .inl (take h)
  | jal l => exact .inr (.inl ⟨l, rfl, take h⟩)
  | jr rs => exact .inr (.inr ⟨rs, rfl, (congrArg Prod.fst (next_inj h)).symm⟩)
  | beq rs rt l => exact .inl (branch h)
  | bne rs rt l => exact .inl (branch h)
  | blt rs rt l => exact .inl (branch h)
  | bgt rs rt l => exact .inl (branch h)
  | ble rs rt l => exact .inl (branch h)
  | bge rs rt l => exact .inl (branch h)
  | _ => exact .inl (congrArg Prod.fst (next_inj h)).symm

/-- Decode into EX (R118-R121, R143). -/
theorem decodeSlot_cases {s t : State} {d x1 m1 w0 : Slot} (h : decodeSlot s d x1 m1 w0 = .next t) :
    (d = none ∧ t = { s with slotEX := none }) ∨
    (∃ r p, d = some r ∧ (stagesOf r.instr).resolve s (capture s x1 m1 w0 r) = .next p ∧
      t = { p.1 with slotEX := some (capture s x1 m1 w0 r), pc := p.2.getD p.1.pc }) := by
  cases d with
  | none => exact .inl ⟨rfl, (next_inj h).symm⟩
  | some r =>
    obtain ⟨p, hp, hq⟩ := andThen_eq_next.1 h
    exact .inr ⟨r, p, rfl, hp, (next_inj hq).symm⟩

/-- The fetch half of step 6 (R112-R116, R144): a bubble that was armed, an empty fetch, or an instruction. -/
theorem fetchSlot_cases {s t : State} (h : fetchSlot s = .next t) :
    (s.fb = true ∧ t = { s with slotIF := none, fb := false }) ∨
    (s.fb = false ∧ fetchedWord s = none ∧ t = { s with slotIF := none }) ∨
    (∃ d i, s.fb = false ∧ fetchedWord s = some d ∧ decode d = .ok i ∧
      t = { countFetch i s with slotIF := some (fetchedRecord i s.pc), fb := i.isControlFlow }) := by
  unfold fetchSlot at h
  split at h
  · rename_i hb
    exact .inl ⟨hb, (next_inj h).symm⟩
  · rename_i hb
    have hb : s.fb = false := by simpa using hb
    split at h
    · rename_i hw
      exact .inr (.inl ⟨hb, hw, (next_inj h).symm⟩)
    · rename_i d hw
      split at h
      · rename_i i hd
        exact .inr (.inr ⟨d, i, hb, hw, hd, (next_inj h).symm⟩)
      · simp at h

/-- The end of a cycle (R147, R148): counted, then Done, then CycleLimit, else as it was. -/
theorem endCycle_cases (s : State) :
    (exhausted s = true ∧ drained s = true ∧ endCycle s = { countCycle s with status := .done }) ∨
    ((exhausted s && drained s) = false ∧ s.maxCycles ≤ s.cycles + 1 ∧ endCycle s = { countCycle s with status := .cycleLimit }) ∨
    ((exhausted s && drained s) = false ∧ s.cycles + 1 < s.maxCycles ∧ endCycle s = countCycle s) := by
  have he : exhausted (countCycle s) = exhausted s := rfl
  have hd : drained (countCycle s) = drained s := rfl
  unfold endCycle
  simp only [he, hd]
  split
  · rename_i h
    exact .inl ⟨by simp_all, by simp_all, rfl⟩
  · rename_i h
    have h : (exhausted s && drained s) = false := by simpa using h
    split
    · rename_i hc
      exact .inr (.inl ⟨h, hc, rfl⟩)
    · rename_i hc
      exact .inr (.inr ⟨h, by simpa using hc, rfl⟩)

/-- A cycle (R140): the memory stage answers, the execute stage runs, and then either the stall path or decode and fetch. -/
theorem cycle_cases {s t : State} (h : cycle s = .next t) :
    ∃ u m1, memorySlot (commitSlot s s.slotWB) s.slotMEM = .next (u, m1) ∧
      let x := executeSlot u s.slotEX s.slotMEM m1 s.slotWB
      let v : State := { x.1 with slotWB := m1, slotMEM := x.2 }
      (loadUseStall v.slotID s.slotEX s.slotMEM = true ∧ t = endCycle (stallCycle v)) ∨
      (loadUseStall v.slotID s.slotEX s.slotMEM = false ∧ ∃ y z, decodeSlot v v.slotID x.2 m1 s.slotWB = .next y ∧
        fetchSlot { y with slotID := y.slotIF } = .next z ∧ t = endCycle z) := by
  obtain ⟨p, hp, hq⟩ := andThen_eq_next.1 h
  refine ⟨p.1, p.2, hp, ?_⟩
  dsimp only at hq ⊢
  split at hq
  · rename_i hs
    exact .inl ⟨hs, (next_inj hq).symm⟩
  · rename_i hs
    obtain ⟨z, hz, ht⟩ := andThen_eq_next.1 hq
    obtain ⟨y, hy, hf⟩ := andThen_eq_next.1 hz
    exact .inr ⟨by simpa using hs, y, z, hy, hf, (next_inj ht).symm⟩

/-- A cycle, field by field (R140 to R142): what writeback, memory and execute leave, then either the stall path or decode and fetch. -/
theorem cycle_fields {s t : State} (h : cycle s = .next t) :
    ∃ u m1, memorySlot (commitSlot s s.slotWB) s.slotMEM = .next (u, m1) ∧
      let x := executeSlot u s.slotEX s.slotMEM m1 s.slotWB
      let v : State := { s with
        regs := (commitSlot s s.slotWB).regs
        instructionsRetired := s.instructionsRetired + (if s.slotWB = none then 0 else 1)
        dmem := u.dmem
        hi := x.1.hi
        lo := x.1.lo
        log := x.1.log
        slotWB := m1
        slotMEM := x.2 }
      (loadUseStall s.slotID s.slotEX s.slotMEM = true ∧ t = endCycle (stallCycle v)) ∨
      (loadUseStall s.slotID s.slotEX s.slotMEM = false ∧ ∃ y z, decodeSlot v s.slotID x.2 m1 s.slotWB = .next y ∧
        fetchSlot { y with slotID := y.slotIF } = .next z ∧ t = endCycle z) := by
  obtain ⟨u, m1, hm, hc⟩ := cycle_cases h
  refine ⟨u, m1, hm, ?_⟩
  have e1 := commitSlot_touches s s.slotWB
  have e2 := (memorySlot_touches hm).1
  have e3 := (executeSlot_touches u s.slotEX s.slotMEM m1 s.slotWB).1
  have e4 : ({ (executeSlot u s.slotEX s.slotMEM m1 s.slotWB).1 with
      slotWB := m1, slotMEM := (executeSlot u s.slotEX s.slotMEM m1 s.slotWB).2 } : State) = { s with
        regs := (commitSlot s s.slotWB).regs
        instructionsRetired := s.instructionsRetired + (if s.slotWB = none then 0 else 1)
        dmem := u.dmem
        hi := (executeSlot u s.slotEX s.slotMEM m1 s.slotWB).1.hi
        lo := (executeSlot u s.slotEX s.slotMEM m1 s.slotWB).1.lo
        log := (executeSlot u s.slotEX s.slotMEM m1 s.slotWB).1.log
        slotWB := m1
        slotMEM := (executeSlot u s.slotEX s.slotMEM m1 s.slotWB).2 } := by
    generalize executeSlot u s.slotEX s.slotMEM m1 s.slotWB = x at *
    rw [e3, e2, e1]
  have e5 : (executeSlot u s.slotEX s.slotMEM m1 s.slotWB).1.slotID = s.slotID := by
    have e := congrArg State.slotID e4
    exact e
  dsimp only at hc ⊢
  rw [e4, e5] at hc
  exact hc

/-- A step (R43, R140, R284): the configuration is accepted, and either a running block makes a cycle or a finished one stays. -/
theorem step_cases {s t : State} (h : step s = .next t) :
    configured s = true ∧ ((s.status = .running ∧ cycle s = .next t) ∨ (s.status = .done ∧ t = s)) := by
  unfold step at h
  split at h
  · simp at h
  · rename_i hc
    refine ⟨by simp [configured, hc], ?_⟩
    split at h
    · rename_i hs
      exact .inl ⟨hs, h⟩
    · rename_i hs
      exact .inr ⟨hs, (next_inj h).symm⟩
    · simp at h

/-- A running block whose configuration is accepted makes a cycle. -/
theorem step_running {s : State} (hc : configured s = true) (hs : s.status = .running) : step s = cycle s := by
  have hc : preRunRefusal s.prog s.labels s.maxCycles = none := by simpa [configured] using hc
  simp [step, hc, hs]

end Sys2Proof.Machine
end

