-- ==== Sys2Proof/Laws/Decode.lean ====
section
/-!
SUPPORT. The layout of a word (spec/30_encoding.md R81): reading the fields of a written word gives them back, and the other way round.
-/
namespace Sys2Proof

@[simp] theorem splitDiw_joinDiw (f : Fields) : splitDiw (joinDiw f) = f := by
  obtain ⟨opc, rs, rt, rd, zero, imm⟩ := f
  simp only [splitDiw, joinDiw, Fields.mk.injEq]
  refine ⟨?_, ?_, ?_, ?_, ?_, ?_⟩ <;>
  · apply BitVec.eq_of_getLsbD_eq
    intro k hk
    simp only [BitVec.getLsbD_extractLsb', BitVec.getLsbD_append]
    have : k < 32 := by omega
    interval_cases k <;> simp

@[simp] theorem joinDiw_splitDiw (d : Diw) : joinDiw (splitDiw d) = d := by
  apply BitVec.eq_of_getLsbD_eq
  intro k hk
  simp only [splitDiw, joinDiw, BitVec.getLsbD_extractLsb', BitVec.getLsbD_append]
  interval_cases k <;> simp

/-- What decoding answers, in terms of the fields (R81, R82, R83). -/
theorem decode_joinDiw (f : Fields) : decode (joinDiw f) = if f.zero = 0 then decodeByTag f else .error .reservedBitsSet := by
  simp [decode]

end Sys2Proof
end

