-- ==== Sys2Proof/Laws/PerInstr.lean ====
section
/-!
SUPPORT. The layout of every instruction's word (spec/30_encoding.md R81, R82, R85), one lemma per constructor.
-/
namespace Sys2Proof.Laws.Layout

/-- The word of an instruction carries its tag and its fields at the places of R81, zeros between `rd` and `imm` (R82), and zeros in the
fields its format leaves unset (R85: the field functions give 0 there). -/
def Statement (i : Instr) : Prop :=
  (encode i).extractLsb' 59 5 = i.tag ∧ (encode i).extractLsb' 54 5 = i.rs ∧ (encode i).extractLsb' 49 5 = i.rt ∧
    (encode i).extractLsb' 44 5 = i.rd ∧ (encode i).extractLsb' 32 12 = 0 ∧ (encode i).extractLsb' 0 32 = i.imm

theorem all (i : Instr) : Statement i := by
  have h := splitDiw_joinDiw (encodeFields i)
  simpa [Statement, encode, splitDiw, encodeFields] using h

theorem nop : Statement (.nop) := all _
theorem add (rd : Reg) (rs : Reg) (rt : Reg) : Statement (.add rd rs rt) := all _
theorem sub (rd : Reg) (rs : Reg) (rt : Reg) : Statement (.sub rd rs rt) := all _
theorem and (rd : Reg) (rs : Reg) (rt : Reg) : Statement (.and rd rs rt) := all _
theorem or (rd : Reg) (rs : Reg) (rt : Reg) : Statement (.or rd rs rt) := all _
theorem slt (rd : Reg) (rs : Reg) (rt : Reg) : Statement (.slt rd rs rt) := all _
theorem nor (rd : Reg) (rs : Reg) (rt : Reg) : Statement (.nor rd rs rt) := all _
theorem addi (rt : Reg) (rs : Reg) (imm : Word) : Statement (.addi rt rs imm) := all _
theorem andi (rt : Reg) (rs : Reg) (imm : Word) : Statement (.andi rt rs imm) := all _
theorem ori (rt : Reg) (rs : Reg) (imm : Word) : Statement (.ori rt rs imm) := all _
theorem slti (rt : Reg) (rs : Reg) (imm : Word) : Statement (.slti rt rs imm) := all _
theorem mult (rs : Reg) (rt : Reg) : Statement (.mult rs rt) := all _
theorem div (rs : Reg) (rt : Reg) : Statement (.div rs rt) := all _
theorem mfhi (rd : Reg) : Statement (.mfhi rd) := all _
theorem mflo (rd : Reg) : Statement (.mflo rd) := all _
theorem sll (rt : Reg) (rs : Reg) (imm : Word) : Statement (.sll rt rs imm) := all _
theorem srl (rt : Reg) (rs : Reg) (imm : Word) : Statement (.srl rt rs imm) := all _
theorem sra (rt : Reg) (rs : Reg) (imm : Word) : Statement (.sra rt rs imm) := all _
theorem lw (rt : Reg) (rs : Reg) (imm : Word) : Statement (.lw rt rs imm) := all _
theorem sw (rt : Reg) (rs : Reg) (imm : Word) : Statement (.sw rt rs imm) := all _
theorem j (label : Word) : Statement (.j label) := all _
theorem jal (label : Word) : Statement (.jal label) := all _
theorem jr (rs : Reg) : Statement (.jr rs) := all _
theorem beq (rs : Reg) (rt : Reg) (label : Word) : Statement (.beq rs rt label) := all _
theorem bne (rs : Reg) (rt : Reg) (label : Word) : Statement (.bne rs rt label) := all _
theorem blt (rs : Reg) (rt : Reg) (label : Word) : Statement (.blt rs rt label) := all _
theorem bgt (rs : Reg) (rt : Reg) (label : Word) : Statement (.bgt rs rt label) := all _
theorem ble (rs : Reg) (rt : Reg) (label : Word) : Statement (.ble rs rt label) := all _
theorem bge (rs : Reg) (rt : Reg) (label : Word) : Statement (.bge rs rt label) := all _

end Sys2Proof.Laws.Layout
end

