-- ==== Sys2Proof/Tests/Slice0.lean ====
section
/-!
SUPPORT. Tests. Expected values are the spec's own examples and corner cases (spec/41 to spec/46, spec/95_test_vectors.md); after them, the
ill-formed terms the checks refuse and a witness for the hypotheses of each statement.
-/
namespace Sys2Proof.Tests
open Sys2Proof.Machine

/-- The outcome is a next state with the property. -/
def nextHas (o : Host.Outcome State Fault Refusal) (p : State → Bool) : Bool :=
  match o with
  | .next t => p t
  | _ => false

/-- The outcome is this refusal. -/
def refusedAs (o : Host.Outcome State Fault Refusal) (r : Refusal) : Bool :=
  match o with
  | .refused q => decide (q = r)
  | _ => false

/-- The outcome is a fault. -/
def faulted (o : Host.Outcome State Fault Refusal) (f : Fault) : Bool :=
  match o with
  | .fault g => decide (g = f)
  | _ => false

/-- The word decodes to the instruction. -/
def reads (d : Diw) (i : Instr) : Bool :=
  match decode d with
  | .ok j => decide (j = i)
  | .error _ => false

/-- The word is illegal, for this reason. -/
def rejects (d : Diw) (e : DecodeError) : Bool :=
  match decode d with
  | .ok _ => false
  | .error f => decide (f = e)

/-- A small state: label 0 at 0x20, some registers set. -/
def start (l : List (Reg × Word)) : State :=
  l.foldl (fun s p => writeReg s p.1 p.2) (State.resetWith [] [(0, 0x20)] 100)

/-! ## Decoding: the words of the spec's examples -/

theorem test_decode_nop : reads 0x0000000000000000 .nop = true := by decide
theorem test_decode_add : reads 0x0A10900000000000 (.add 9 8 8) = true := by decide
theorem test_decode_sub : reads 0x1212A00000000000 (.sub 10 8 9) = true := by decide
theorem test_decode_and : reads 0x1A12A00000000000 (.and 10 8 9) = true := by decide
theorem test_decode_or : reads 0x2212A00000000000 (.or 10 8 9) = true := by decide
theorem test_decode_slt : reads 0x2A12A00000000000 (.slt 10 8 9) = true := by decide
theorem test_decode_nor : reads 0x3200A00000000000 (.nor 10 8 0) = true := by decide
theorem test_decode_addi : reads 0x3810000000000005 (.addi 8 0 5) = true := by decide
theorem test_decode_andi : reads 0x42120000000000FF (.andi 9 8 0xFF) = true := by decide
theorem test_decode_ori : reads 0x4812000000008000 (.ori 9 0 0x8000) = true := by decide
theorem test_decode_slti : reads 0x52120000FFFFFFFF (.slti 9 8 0xFFFFFFFF) = true := by decide
theorem test_decode_mult : reads 0x5A12000000000000 (.mult 8 9) = true := by decide
theorem test_decode_div : reads 0x6212000000000000 (.div 8 9) = true := by decide
theorem test_decode_mfhi : reads 0x6800A00000000000 (.mfhi 10) = true := by decide
theorem test_decode_mflo : reads 0x7000B00000000000 (.mflo 11) = true := by decide
theorem test_decode_sll : reads 0x7A12000000000004 (.sll 9 8 4) = true := by decide
theorem test_decode_srl : reads 0x8212000000000004 (.srl 9 8 4) = true := by decide
theorem test_decode_sra : reads 0x8A12000000000004 (.sra 9 8 4) = true := by decide
theorem test_decode_lw : reads 0x9212000000000004 (.lw 9 8 4) = true := by decide
theorem test_decode_sw : reads 0x9A12000000000004 (.sw 9 8 4) = true := by decide
theorem test_decode_j : reads 0xA000000000000001 (.j 1) = true := by decide
theorem test_decode_jal : reads 0xA800000000000000 (.jal 0) = true := by decide
theorem test_decode_jr : reads 0xB7C0000000000000 (.jr 31) = true := by decide
theorem test_decode_beq : reads 0xBA10000000000000 (.beq 8 8 0) = true := by decide
theorem test_decode_bne : reads 0xC212000000000000 (.bne 8 9 0) = true := by decide
theorem test_decode_blt : reads 0xCA12000000000000 (.blt 8 9 0) = true := by decide
theorem test_decode_bgt : reads 0xD212000000000000 (.bgt 8 9 0) = true := by decide
theorem test_decode_ble : reads 0xDA12000000000000 (.ble 8 9 0) = true := by decide
theorem test_decode_bge : reads 0xE212000000000000 (.bge 8 9 0) = true := by decide

/-! Illegal words (R82, R84, R85, R92) -/

theorem test_decode_reserved_tag : rejects 0xE800000000000000 .reservedTag = true ∧ rejects 0xF000000000000000 .reservedTag = true ∧
    rejects 0xF800000000000000 .reservedTag = true := by decide
theorem test_decode_reserved_bit : rejects 0x0000000100000000 .reservedBitsSet = true ∧
    rejects 0x0A10980000000000 .reservedBitsSet = true := by decide
theorem test_decode_unused_field : rejects 0x0A10900000000001 .unusedFieldSet = true ∧
    rejects 0x3810100000000005 .unusedFieldSet = true ∧ rejects 0x0000000000000001 .unusedFieldSet = true := by decide
theorem test_table_word : decodeTableWord 64 0x9A12000000000004 = some (.sw 9 8 4) ∧ decodeTableWord 64 0xE800000000000000 = none := by
  decide

/-! ## Effects: the spec's examples and corner cases -/

theorem test_nop : nextHas (exec .nop (start [(8, 5)])) (fun t => readReg t 8 == 5 && t.pc == 4 && t.cycles == 6 &&
    t.instructionsRetired == 1) = true := by decide
theorem test_add : nextHas (exec (.add 9 8 8) (start [(8, 5)])) (fun t => readReg t 9 == 10) = true ∧
    nextHas (exec (.add 10 8 9) (start [(8, 0x7FFFFFFF), (9, 1)])) (fun t => readReg t 10 == 0x80000000) = true := by decide
theorem test_sub : nextHas (exec (.sub 10 8 9) (start [(8, 3), (9, 5)])) (fun t => readReg t 10 == 0xFFFFFFFE) = true := by decide
theorem test_and : nextHas (exec (.and 10 8 9) (start [(8, 0xF0F0), (9, 0xFF00)])) (fun t => readReg t 10 == 0xF000) = true := by decide
theorem test_or : nextHas (exec (.or 10 8 9) (start [(8, 0xF0F0), (9, 0x0F0F)])) (fun t => readReg t 10 == 0xFFFF) = true := by decide
theorem test_slt : nextHas (exec (.slt 10 8 9) (start [(8, 0xFFFFFFFF), (9, 1)])) (fun t => readReg t 10 == 1) = true ∧
    nextHas (exec (.slt 10 8 9) (start [(8, 0x80000000), (9, 0x7FFFFFFF)])) (fun t => readReg t 10 == 1) = true := by decide
theorem test_nor : nextHas (exec (.nor 10 8 0) (start [])) (fun t => readReg t 10 == 0xFFFFFFFF) = true := by decide
theorem test_addi : nextHas (exec (.addi 8 0 5) (start [])) (fun t => readReg t 8 == 5) = true ∧
    nextHas (exec (.addi 0 0 5) (start [])) (fun t => readReg t 0 == 0) = true := by decide
theorem test_andi : nextHas (exec (.andi 9 8 0xFF) (start [(8, 0x1234)])) (fun t => readReg t 9 == 0x34) = true := by decide
theorem test_ori : nextHas (exec (.ori 9 0 0x8000) (start [])) (fun t => readReg t 9 == 0x8000) = true := by decide
theorem test_slti : nextHas (exec (.slti 9 8 0xFFFFFFFF) (start [(8, 0xFFFFFFFE)])) (fun t => readReg t 9 == 1) = true ∧
    nextHas (exec (.slti 9 8 0x80000000) (start [(8, 0x80000000)])) (fun t => readReg t 9 == 0) = true := by decide
theorem test_mult : nextHas (exec (.mult 8 9) (start [(8, 0xFFFFFFFE), (9, 3)])) (fun t => t.hi == 0xFFFFFFFF && t.lo == 0xFFFFFFFA) =
      true ∧
    nextHas (exec (.mult 8 8) (start [(8, 0x80000000)])) (fun t => t.hi == 0x40000000 && t.lo == 0) = true := by decide
theorem test_div : nextHas (exec (.div 8 9) (start [(8, 7), (9, 0xFFFFFFFE)])) (fun t => t.lo == 0xFFFFFFFD && t.hi == 1) = true ∧
    nextHas (exec (.div 8 9) (start [(8, 0x80000000), (9, 0xFFFFFFFF)])) (fun t => t.lo == 0x80000000 && t.hi == 0 && t.log == []) =
      true := by decide
theorem test_div_by_zero : nextHas (exec (.div 8 0) (start [(8, 7)])) (fun t => t.lo == 0 && t.hi == 0 &&
    decide (t.log = [{ kind := .divByZero, pc := 0, cycle := 4 }])) = true := by decide
theorem test_mfhi : nextHas (exec (.mfhi 10) { start [] with hi := 0xFFFFFFFF }) (fun t => readReg t 10 == 0xFFFFFFFF) = true := by decide
theorem test_mflo : nextHas (exec (.mflo 11) { start [] with lo := 0xFFFFFFFD }) (fun t => readReg t 11 == 0xFFFFFFFD) = true := by decide
theorem test_sll : nextHas (exec (.sll 9 8 4) (start [(8, 1)])) (fun t => readReg t 9 == 16) = true ∧
    nextHas (exec (.sll 9 8 32) (start [(8, 1)])) (fun t => readReg t 9 == 0) = true := by decide
theorem test_sll_negative : nextHas (exec (.sll 9 8 0xFFFFFFFF) (start [(8, 1), (9, 77)])) (fun t => readReg t 9 == 77 &&
    decide (t.log = [{ kind := .invalidShift, pc := 0, cycle := 4 }])) = true := by decide
theorem test_srl : nextHas (exec (.srl 9 8 4) (start [(8, 0x80000000)])) (fun t => readReg t 9 == 0x08000000) = true ∧
    nextHas (exec (.srl 9 8 31) (start [(8, 0xFFFFFFFF)])) (fun t => readReg t 9 == 1) = true := by decide
theorem test_sra : nextHas (exec (.sra 9 8 4) (start [(8, 0x80000000)])) (fun t => readReg t 9 == 0xF8000000) = true ∧
    nextHas (exec (.sra 9 8 100) (start [(8, 0x7FFFFFFF)])) (fun t => readReg t 9 == 0) = true := by decide
theorem test_lw : nextHas (exec (.lw 9 8 4) { start [(8, 0x100)] with dmem := [(0x104, 7)] }) (fun t => readReg t 9 == 7) = true ∧
    nextHas (exec (.lw 9 8 4) { start [(8, 0xFFFFFFFE)] with dmem := [(2, 7)] }) (fun t => readReg t 9 == 7) = true := by decide
theorem test_sw : nextHas (exec (.sw 9 8 4) (start [(8, 0x100), (9, 9)])) (fun t => loadWord t 0x104 == 9 && loadWord t 0x103 == 0 &&
    loadWord t 0x105 == 0) = true := by decide
theorem test_j : nextHas (exec (.j 0) (start [])) (fun t => t.pc == 0x20 && readReg t 31 == 0) = true := by decide
theorem test_jal : nextHas (exec (.jal 0) { start [] with pc := 8 }) (fun t => t.pc == 0x20 && readReg t 31 == 0xC) = true := by decide
theorem test_jr : nextHas (exec (.jr 31) (start [(31, 0xC)])) (fun t => t.pc == 0xC) = true := by decide
theorem test_beq : nextHas (exec (.beq 8 8 0) (start [(8, 1)])) (fun t => t.pc == 0x20) = true := by decide
theorem test_bne : nextHas (exec (.bne 8 9 0) (start [(8, 1), (9, 2)])) (fun t => t.pc == 0x20) = true ∧
    nextHas (exec (.bne 8 8 0) (start [(8, 1)])) (fun t => t.pc == 4) = true := by decide
theorem test_blt : nextHas (exec (.blt 8 9 0) (start [(8, 0xFFFFFFFF)])) (fun t => t.pc == 0x20) = true := by decide
theorem test_bgt : nextHas (exec (.bgt 8 9 0) (start [(8, 5), (9, 5)])) (fun t => t.pc == 4) = true ∧
    nextHas (exec (.bgt 8 9 0) (start [(9, 0x80000000)])) (fun t => t.pc == 0x20) = true := by decide
theorem test_ble : nextHas (exec (.ble 8 9 0) (start [(8, 5), (9, 5)])) (fun t => t.pc == 0x20) = true ∧
    nextHas (exec (.ble 8 9 0) (start [(8, 0x7FFFFFFF), (9, 0x80000000)])) (fun t => t.pc == 4) = true := by decide
theorem test_bge : nextHas (exec (.bge 8 9 0) (start [(9, 0xFFFFFFFF)])) (fun t => t.pc == 0x20) = true ∧
    nextHas (exec (.bge 8 9 0) (start [(8, 0x80000000)])) (fun t => t.pc == 4) = true := by decide

/-! ## What the checks refuse -/

theorem test_wellFormed_missing_label : Instr.wellFormed [(0, 0x20)] (.j 1) = false ∧ Instr.wellFormed [(0, 0x20)] (.beq 1 2 7) = false ∧
    Instr.wellFormed [(0, 0x20)] (.j 0) = true := by decide
theorem test_wellFormed_store_size : storeSizeOk (2 ^ 30) = false ∧ storeSizeOk (2 ^ 30 - 1) = true := by decide
theorem test_wellFormed_program : programWellFormed [] [.nop, .jal 0] = false ∧ programWellFormed [(0, 0)] [.nop, .jal 0] = true := by
  decide
theorem test_configuration : preRunRefusal [0, 0xE800000000000000, 1] [] 9 = some (.illegalInstruction 1) ∧
    preRunRefusal [0, 0xA000000000000005] [] 9 = some (.unresolvedLabel 1) ∧ preRunRefusal [0] [] 0 = some .maxCyclesNotPositive ∧
    preRunRefusal [0, 0xA000000000000005] [(5, 0)] 9 = none := by decide
theorem test_boot : refusedAs (boot [0xA000000000000005] [] 9) (.unresolvedLabel 0) = true ∧
    nextHas (boot [] [] 9) (fun t => t.status == .done) = true := by decide

/-! ## One cycle -/

/-- A next state with a property, from the Bool. -/
theorem next_of {o : Host.Outcome State Fault Refusal} {p : State → Bool} (h : nextHas o p = true) : ∃ t, o = .next t ∧ p t = true := by
  cases o with
  | next t => exact ⟨t, rfl, h⟩
  | fault f => cases h
  | refused r => cases h

/-- The record of the instruction at store index `k`, before decode. -/
def rec (k : Nat) (i : Instr) : Record := fetchedRecord i (BitVec.ofNat 32 (4 * k))

/-- The record once it has left execute with a result. -/
def withResult (k : Nat) (i : Instr) (v : Word) : Record := { rec k i with result := some v }

/-- A running state with a program, the slots as given, label 0 at 0x10. -/
def pipe (pc : Word) (prog : List Instr) (slots : Slot × Slot × Slot × Slot × Slot) : State :=
  { State.resetWith (prog.map encode) [(0, 0x10)] 100 with
    pc := pc
    fb := holdsControlFlow slots.1
    cycles := 20
    fetched := occupancy slots.1 + occupancy slots.2.1 + occupancy slots.2.2.1 + occupancy slots.2.2.2.1 + occupancy slots.2.2.2.2
    slotIF := slots.1
    slotID := slots.2.1
    slotEX := slots.2.2.1
    slotMEM := slots.2.2.2.1
    slotWB := slots.2.2.2.2 }

/-- Live, from the decidable parts. -/
theorem live_of {s : State} (h : configured s = true ∧ s.status = .running ∧ MemoryOk s ∧ ZeroRegisterOk s ∧ FetchFlagOk s)
    (h' : RecordsOk s ∧ RuntimeFieldsOk s) (h'' : OperandsOk s ∧ CountersOk s ∧ LogOk s ∧ StatusOk s) : Live s :=
  ⟨h.1, h.2.1, ⟨h.2.2.1, h.2.2.2.1, h.2.2.2.2, h'.1, h'.2, h''.1, h''.2.1, h''.2.2.1, h''.2.2.2⟩⟩

/-- Before the first cycle. -/
def sFresh : State := pipe 0 [.addi 8 0 5] (none, none, none, none, none)
/-- `lw` in MEM behind a committing `addi`, `sw` in EX with both as its operands' producers. -/
def sLoad : State :=
  { pipe 12 [.addi 10 0 3, .lw 9 8 4, .sw 10 10 1] (none, none, some { rec 2 (.sw 10 10 1) with rsVal := 3, rtVal := 3 },
      some (withResult 1 (.lw 9 8 4) 0x104), some (withResult 0 (.addi 10 0 3) 3)) with dmem := [(0x104, 7)] }
/-- `sw` in MEM at the top address, a divide by zero in EX. -/
def sStore : State :=
  pipe 8 [.sw 9 8 0xFFFFFFFF, .div 8 0] (none, none, some (rec 1 (.div 8 0)),
    some { withResult 0 (.sw 9 8 0xFFFFFFFF) 0xFFFFFFFF with rtVal := 9 }, none)
/-- A negative shift in EX, its source's producer in MEM. -/
def sShift : State :=
  pipe 8 [.addi 8 0 5, .sll 9 8 0x80000000] (none, none, some { rec 1 (.sll 9 8 0x80000000) with rsVal := 5 },
    some (withResult 0 (.addi 8 0 5) 5), none)
/-- A load in EX and its user in ID. -/
def sLoadUse : State := pipe 8 [.lw 8 0 4, .add 9 8 8] (none, some (rec 1 (.add 9 8 8)), some (rec 0 (.lw 8 0 4)), none, none)
/-- A load in MEM and its user in ID. -/
def sLoadUseFar : State :=
  pipe 12 [.lw 8 0 4, .nop, .add 9 8 8] (none, some (rec 2 (.add 9 8 8)), some (rec 1 .nop), some (withResult 0 (.lw 8 0 4) 4), none)
/-- A taken `beq` in ID; its target is in the store. -/
def sTaken : State := pipe 4 [.beq 0 0 0, .nop, .nop, .nop, .addi 8 0 5] (none, some (rec 0 (.beq 0 0 0)), none, none, none)
/-- A `bne` in ID that is not taken. -/
def sNotTaken : State := pipe 4 [.bne 0 0 0, .nop, .nop, .nop, .addi 8 0 5] (none, some (rec 0 (.bne 0 0 0)), none, none, none)
/-- `jr` in ID, the producer of its operand in EX. -/
def sJr : State := pipe 8 [.addi 9 0 0x14, .jr 9] (none, some (rec 1 (.jr 9)), some (rec 0 (.addi 9 0 0x14)), none, none)
/-- Cycle 4 of vector 3.5: `jal` in ID, `addi $ra` in MEM. -/
def sJal : State :=
  pipe 12 [.addi 31 0 100, .addi 8 0 1, .jal 0] (none, some (rec 2 (.jal 0)), some (rec 1 (.addi 8 0 1)),
    some (withResult 0 (.addi 31 0 100) 100), none)
/-- Cycle 4 of the second program of vector 3.5: `jal` in ID, `addi $ra` in EX, the `add` that reads `$ra` at the target. -/
def sJalNear : State :=
  { pipe 12 [.addi 8 0 1, .addi 31 0 100, .jal 0, .add 9 31 0] (none, some (rec 2 (.jal 0)), some (rec 1 (.addi 31 0 100)),
      some (withResult 0 (.addi 8 0 1) 1), none) with labels := [(0, 12)] }
/-- `jal` in ID with `addi $ra` in EX, and another `jal` at its target. -/
def sJalJal : State :=
  pipe 8 [.addi 31 0 100, .jal 0, .nop, .nop, .jal 0] (none, some (rec 1 (.jal 0)), some (rec 0 (.addi 31 0 100)), none, none)
/-- A jump in IF, the bubble armed behind it, with more to fetch. -/
def sBubble : State := pipe 4 [.j 0, .nop] (some (rec 0 (.j 0)), none, none, none, none)
/-- The same with `pc` exhausted. -/
def sBubbleEnd : State := pipe 4 [.j 0] (some (rec 0 (.j 0)), none, none, none, none)
/-- A jump is fetched next. -/
def sJumpNext : State := pipe 0 [.j 0] (none, none, none, none, none)
/-- Producers of one register in EX, MEM and WB, their reader in ID. -/
def sProducers : State :=
  pipe 16 [.addi 8 0 1, .addi 8 0 2, .addi 8 0 3, .add 9 8 7] (none, some (rec 3 (.add 9 8 7)), some { rec 2 (.addi 8 0 3) with rtVal := 2 },
    some (withResult 1 (.addi 8 0 2) 2), some (withResult 0 (.addi 8 0 1) 1))
/-- The last record in WB, nothing more to fetch. -/
def sLast : State := pipe 4 [.nop] (none, none, none, none, some (rec 0 .nop))
/-- One cycle below the limit. -/
def sLimit : State := { pipe 4 [.nop] (some (rec 0 .nop), none, none, none, none) with cycles := 99 }
/-- Below the limit and at the end at once. -/
def sLastAtLimit : State := { sLast with cycles := 99 }

theorem live_sFresh : Live sFresh := live_of (by decide) (by decide) (by decide)
theorem live_sLoad : Live sLoad := live_of (by decide) (by decide) (by decide)
theorem live_sStore : Live sStore := live_of (by decide) (by decide) (by decide)
theorem live_sShift : Live sShift := live_of (by decide) (by decide) (by decide)
theorem live_sLoadUse : Live sLoadUse := live_of (by decide) (by decide) (by decide)
theorem live_sLoadUseFar : Live sLoadUseFar := live_of (by decide) (by decide) (by decide)
theorem live_sTaken : Live sTaken := live_of (by decide) (by decide) (by decide)
theorem live_sNotTaken : Live sNotTaken := live_of (by decide) (by decide) (by decide)
theorem live_sJr : Live sJr := live_of (by decide) (by decide) (by decide)
theorem live_sJal : Live sJal := live_of (by decide) (by decide) (by decide)
theorem live_sJalNear : Live sJalNear := live_of (by decide) (by decide) (by decide)
theorem live_sJalJal : Live sJalJal := live_of (by decide) (by decide) (by decide)
theorem live_sBubble : Live sBubble := live_of (by decide) (by decide) (by decide)
theorem live_sBubbleEnd : Live sBubbleEnd := live_of (by decide) (by decide) (by decide)
theorem live_sJumpNext : Live sJumpNext := live_of (by decide) (by decide) (by decide)
theorem live_sProducers : Live sProducers := live_of (by decide) (by decide) (by decide)
theorem live_sLast : Live sLast := live_of (by decide) (by decide) (by decide)
theorem live_sLimit : Live sLimit := live_of (by decide) (by decide) (by decide)
theorem live_sLastAtLimit : Live sLastAtLimit := live_of (by decide) (by decide) (by decide)

/-! ## Witnesses: a state and operands that meet the hypotheses of each statement, clause by clause -/

theorem witness_ShiftsGiveTheirResult : (0x7FFFFFFF : Word).msb = false ∧ (0 : Word).msb = false := by decide
theorem witness_NegativeShiftsWriteNothingAndReport : (0x80000000 : Word).msb = true ∧ (0xFFFFFFFF : Word).msb = true := by decide
theorem witness_DivGivesQuotientAndRemainderOrReports : readReg (start [(9, 0xFFFFFFFF)]) 9 ≠ 0 ∧ readReg (start [(8, 1)]) 0 = 0 := by
  decide
theorem witness_StoreWordChangesOneCell : MemoryOk { start [] with dmem := [(0, 1), (0xFFFFFFFF, 7)] } := by decide
theorem witness_BranchesGoToTheirLabel_equality : ((1 : Word) == 2) = false ∧ ((1 : Word) != 1) = false ∧ ((1 : Word) == 1) = true ∧
    ((1 : Word) != 2) = true ∧ readReg (start [(8, 1)]) 8 = 1 ∧ readReg (start [(9, 2)]) 9 = 2 ∧
    labelTarget (start []).labels 0 = some 0x20 := by decide
theorem witness_BranchesGoToTheirLabel_order :
    (0x80000000 : Word).slt 0x7FFFFFFF = true ∧ (0x7FFFFFFF : Word).slt 0x80000000 = false ∧ (5 : Word).sle 5 = true ∧
    (0 : Word).sle 0x80000000 = false ∧ readReg (start [(8, 0x80000000)]) 8 = 0x80000000 ∧
    readReg (start [(9, 0x7FFFFFFF)]) 9 = 0x7FFFFFFF := by decide
theorem witness_JumpsGoToTheirLabel : labelTarget (start []).labels 0 = some 0x20 := by decide
theorem witness_MissingLabelIsRefused_jump : labelTarget (start []).labels 1 = none := by decide
theorem witness_MissingLabelIsRefused_branch : let s := start [(8, 0x80000000), (9, 0x7FFFFFFF)]
    labelTarget s.labels 1 = none ∧ (readReg s 8 == readReg s 8) = true ∧ (readReg s 8 != readReg s 9) = true ∧
    (readReg s 8).slt (readReg s 9) = true ∧ (readReg s 8).sle (readReg s 8) = true ∧
    refusedAs (exec (.bge 9 8 1) s) (.unresolvedLabel 0) = true := by decide
theorem witness_RegisterWritersChangeOneRegister : Claims.registerTarget (.addi 8 0 5) = some 8 ∧ Claims.reportOf (.addi 8 0 5) 1 = none ∧
    ∃ t, exec (.addi 8 0 5) (start []) = .next t ∧ (fun _ : State => true) t = true := ⟨by decide, by decide, next_of (by decide)⟩
theorem witness_MultiplyDivideChangeOnlyAccumulators : (Instr.div 8 9 = .mult 8 9 ∨ Instr.div 8 9 = .div 8 9) ∧
    Claims.reportOf (.div 8 9) (readReg (start [(9, 3)]) 9) = none ∧
    ∃ t, exec (.div 8 9) (start [(9, 3)]) = .next t ∧ (fun _ : State => true) t = true := ⟨by decide, by decide, next_of (by decide)⟩
theorem witness_ControlFlowChangesOnlyTheLink : (Instr.jal 0).isControlFlow = true ∧
    ∃ t, exec (.jal 0) (start []) = .next t ∧ (fun _ : State => true) t = true := ⟨by decide, next_of (by decide)⟩
theorem witness_RegisterZeroIsInert : (Instr.addi 0 8 5).dest = 0 ∧ (withResult 0 (.lw 0 8 4) 1).instr = .lw 0 8 4 ∧
    ∃ t, exec (.addi 0 8 5) (start []) = .next t ∧ (fun _ : State => true) t = true := ⟨by decide, by decide, next_of (by decide)⟩
theorem witness_EncodeOfDecodeIsTheWord : ∃ i, decode 0xE3FE0000FFFFFFFF = .ok i := ⟨.bge 15 31 0xFFFFFFFF, rfl⟩
theorem witness_DecoderAgreesWithTheOpcodeTable : (∃ i, decode 0x0A10900000000000 = .ok i) ∧
    ∃ row ∈ Claims.opcodeRows, (0x0A10900000000000 : Diw) &&& row.2.2 = row.2.1 := ⟨⟨_, rfl⟩, by decide⟩
theorem witness_IllegalWordsAreRejectedByName : (0x0000000100000000 : Diw).extractLsb' 32 12 ≠ 0 ∧
    (0x0000080000000000 : Diw).extractLsb' 32 12 ≠ 0 ∧ (0xE800000000000000 : Diw).extractLsb' 32 12 = 0 ∧
    0x1D ≤ ((0xE800000000000000 : Diw).extractLsb' 59 5).toNat ∧ 0x1D ≤ ((0xF800000000000000 : Diw).extractLsb' 59 5).toNat := by decide
theorem witness_IllegalWordsAreRejectedByName_unusedField : (0x0000000000000001 : Diw).extractLsb' 32 12 = 0 ∧
    (∃ row ∈ Claims.opcodeRows, (0x0000000000000001 : Diw).extractLsb' 59 5 = row.2.1.extractLsb' 59 5 ∧
      (0x0000000000000001 : Diw) &&& row.2.2 ≠ row.2.1) ∧
    (0xE000100000000000 : Diw).extractLsb' 32 12 = 0 ∧
    ∃ row ∈ Claims.opcodeRows, (0xE000100000000000 : Diw).extractLsb' 59 5 = row.2.1.extractLsb' 59 5 ∧
      (0xE000100000000000 : Diw) &&& row.2.2 ≠ row.2.1 := by decide
theorem witness_ResetMeetsTheInvariants : preRunRefusal [0] [] 1 = none ∧ ([0] : List Diw) ≠ [] ∧ preRunRefusal [] [] 1 = none := by decide

theorem witness_RefusedConfigurationsHaveNoStep_size :
    2 ^ 30 ≤ ({ start [] with prog := List.replicate (2 ^ 30) 0 } : State).prog.length := by
  show 2 ^ 30 ≤ (List.replicate (2 ^ 30) (0 : Diw)).length
  rw [List.length_replicate]
theorem witness_RefusedConfigurationsHaveNoStep_illegal : ([0xE800000000000000] : List Diw).length < 2 ^ 30 ∧
    ([0xE800000000000000] : List Diw)[0]? = some 0xE800000000000000 ∧ rejects 0xE800000000000000 .reservedTag = true ∧
    ∀ (k' : Nat) (d' : Diw), k' < 0 → ([0xE800000000000000] : List Diw)[k']? = some d' → ∃ i, decode d' = .ok i :=
  ⟨by decide, by decide, by decide, fun _ _ h => absurd h (Nat.not_lt_zero _)⟩
theorem witness_RefusedConfigurationsHaveNoStep_label : ([0xA000000000000005] : List Diw).length < 2 ^ 30 ∧
    (∀ d' ∈ ([0xA000000000000005] : List Diw), ∃ j, decode d' = .ok j) ∧ (Instr.j 5).label? = some 5 ∧ labelTarget [(0, 0)] 5 = none ∧
    ∀ (k' : Nat) (d' : Diw) (j : Instr) (l' : Word), k' < 0 → ([0xA000000000000005] : List Diw)[k']? = some d' → decode d' = .ok j →
      j.label? = some l' → labelTarget [(0, 0)] l' ≠ none :=
  ⟨by decide, fun d' h => ⟨.j 5, by rw [List.mem_singleton.1 h]; rfl⟩, by decide, by decide, fun _ _ _ _ h => absurd h (Nat.not_lt_zero _)⟩
theorem witness_StoppedBlockMakesNoCycle : configured { sLast with status := .done } = true ∧
    configured { sLast with status := .cycleLimit } = true ∧ faulted (step { sLast with status := .cycleLimit }) .cycleLimit = true := by
  decide
theorem witness_NoStepChangesTheProgram : ∃ t, step sFresh = .next t ∧ (fun _ : State => true) t = true := next_of (by decide)
theorem witness_LiveStatesAlwaysStep : Live sFresh ∧ Live sLoad ∧ Live sJr := ⟨live_sFresh, live_sLoad, live_sJr⟩

theorem witness_WritebackCommitsTheResult : Live sLoad ∧ (∀ r ∈ sLoad.slotID, ∀ l, r.instr ≠ .jal l) ∧
    ∃ t, step sLoad = .next t ∧ (fun t => readReg t 10 == 3) t = true := ⟨live_sLoad, nofun, next_of (by decide)⟩
theorem witness_MemoryStageLoadsStoresOrPasses_load : Live sLoad ∧ sLoad.slotMEM = some (withResult 1 (.lw 9 8 4) 0x104) ∧
    ∃ t, step sLoad = .next t ∧ (fun t => decide (t.slotWB = some (withResult 1 (.lw 9 8 4) 7))) t = true :=
  ⟨live_sLoad, rfl, next_of (by decide)⟩
theorem witness_MemoryStageLoadsStoresOrPasses_store : Live sStore ∧
    (∀ r ∈ sStore.slotMEM, r.instr = .sw 9 8 0xFFFFFFFF ∧ r.result = some 0xFFFFFFFF) ∧
    ∃ t, step sStore = .next t ∧ (fun t => decide (t.dmem = [(0xFFFFFFFF, 9)])) t = true :=
  ⟨live_sStore, by decide, next_of (by decide)⟩
theorem witness_MemoryStageLoadsStoresOrPasses_other : Live sShift ∧ sShift.slotMEM = some (withResult 0 (.addi 8 0 5) 5) ∧
    Live sFresh ∧ sFresh.slotMEM = none := ⟨live_sShift, rfl, live_sFresh, rfl⟩
theorem witness_ExecuteStageComputesEveryResult_divByZero : Live sStore ∧ sStore.slotEX = some (rec 1 (.div 8 0)) ∧
    ∃ t, step sStore = .next t ∧ (fun t => decide (t.log = [{ kind := .divByZero, pc := 4, cycle := 21 }])) t = true :=
  ⟨live_sStore, rfl, next_of (by decide)⟩
theorem witness_ExecuteStageComputesEveryResult_negativeShift : Live sShift ∧ sShift.slotEX ≠ none ∧
    ∃ t, step sShift = .next t ∧ (fun t => decide (t.log = [{ kind := .invalidShift, pc := 4, cycle := 21 }]) &&
      decide (slotResult t.slotMEM = none)) t = true := ⟨live_sShift, by decide, next_of (by decide)⟩
theorem witness_ExecuteStageComputesEveryResult_bubble : Live sFresh ∧ sFresh.slotEX = none ∧ ∃ t, step sFresh = .next t ∧
    (fun _ : State => true) t = true := ⟨live_sFresh, rfl, next_of (by decide)⟩
theorem witness_StallHoldsDecodeAndFetch : Live sLoadUse ∧ loadUseStall sLoadUse.slotID sLoadUse.slotEX sLoadUse.slotMEM = true ∧
    Live sLoadUseFar ∧ loadUseStall sLoadUseFar.slotID sLoadUseFar.slotEX sLoadUseFar.slotMEM = true :=
  ⟨live_sLoadUse, by decide, live_sLoadUseFar, by decide⟩
theorem witness_AdjacentLoadUseStallsTwice : Live sLoadUse ∧ sLoadUse.slotID = some (rec 1 (.add 9 8 8)) ∧
    sLoadUse.slotEX = some (rec 0 (.lw 8 0 4)) ∧ loadMatches (rec 1 (.add 9 8 8)) (some (rec 0 (.lw 8 0 4))) = true ∧
    ∃ t, step sLoadUse = .next t ∧
      (fun t => t.status == .running && nextHas (step t) (fun u => u.stalls == 2)) t = true :=
  ⟨live_sLoadUse, rfl, rfl, by decide, next_of (by decide)⟩
theorem witness_WithoutStallEverySlotAdvances : Live sProducers ∧ Claims.NoStall sProducers := ⟨live_sProducers, rfl⟩
theorem witness_BackEndDrainsAndRetiresEveryCycle : Live sLast ∧ sLast.slotWB ≠ none ∧ Live sLoadUse ∧ sLoadUse.slotWB = none ∧
    ∃ t, step sLast = .next t ∧ (fun t => t.instructionsRetired == 1) t = true :=
  ⟨live_sLast, by decide, live_sLoadUse, rfl, next_of (by decide)⟩
theorem witness_DecodeTakesTheNearestProducer_execute : Live sProducers ∧ Claims.NoStall sProducers ∧ ∃ t, step sProducers = .next t ∧
    (fun t => decide (t.slotEX = some { rec 3 (.add 9 8 7) with rsVal := 3 } ∧ producerOf t.slotMEM 8 = some 3 ∧
      producerOf t.slotMEM 7 = none ∧ producerOf t.slotWB 7 = none)) t = true := ⟨live_sProducers, rfl, next_of (by decide)⟩
theorem witness_DecodeTakesTheNearestProducer_memory : ∃ s : State, Live s ∧ Claims.NoStall s ∧ ∃ t, step s = .next t ∧
    (fun t => decide (producerOf t.slotMEM 8 = none ∧ producerOf t.slotWB 8 = some 2 ∧ slotHas t.slotEX (fun e => e.rsVal == 2))) t = true :=
  ⟨{ sProducers with slotEX := none, fetched := 3 }, live_of (by decide) (by decide) (by decide), rfl, next_of (by decide)⟩
theorem witness_ExecuteTagsNameTheNearestProducer : producerOf (some (withResult 0 (.addi 8 0 2) 2)) 8 = some 2 ∧ producerOf none 8 = none ∧
    producerOf (some (withResult 0 (.addi 0 0 2) 2)) 0 = none := by decide
theorem witness_ExecuteForwardingNeverChangesAnOperand : Live sShift ∧
    sShift.slotEX = some { rec 1 (.sll 9 8 0x80000000) with rsVal := 5 } ∧
    memorySlot (commitSlot sShift sShift.slotWB) sShift.slotMEM = .next (sShift, some (withResult 0 (.addi 8 0 5) 5)) :=
  ⟨live_sShift, rfl, rfl⟩
theorem witness_FetchReadsTheStoreOrInsertsTheBubble_fetch : Live sFresh ∧ Claims.NoStall sFresh ∧
    holdsControlFlow sFresh.slotID = false ∧ sFresh.fb = false := ⟨live_sFresh, rfl, rfl, rfl⟩
theorem witness_FetchReadsTheStoreOrInsertsTheBubble_bubble : Live sBubble ∧ Claims.NoStall sBubble ∧
    holdsControlFlow sBubble.slotID = false ∧ sBubble.fb = true ∧ Live sBubbleEnd ∧ sBubbleEnd.fb = true ∧ exhausted sBubbleEnd = true :=
  ⟨live_sBubble, rfl, rfl, rfl, live_sBubbleEnd, rfl, by decide⟩
theorem witness_ControlFlowFetchArmsOneBubble : Live sJumpNext ∧ ∃ t, step sJumpNext = .next t ∧
    (fun t => decide (t.fetched = sJumpNext.fetched + 1 ∧ t.slotIF = some (rec 0 (.j 0)) ∧ t.status = .running ∧
      loadUseStall t.slotID t.slotEX t.slotMEM = false) && nextHas (step t) (fun _ => true)) t = true :=
  ⟨live_sJumpNext, next_of (by decide)⟩
theorem witness_ControlFlowFetchArmsOneBubble_stall : ∃ s : State, Live s ∧ ∃ t, step s = .next t ∧
    (fun t => decide (t.fetched = s.fetched + 1 ∧ t.slotIF = some (rec 2 (.j 0)) ∧ t.status = .running ∧
      loadUseStall t.slotID t.slotEX t.slotMEM = true) && nextHas (step t) (fun _ => true)) t = true :=
  ⟨pipe 8 [.lw 8 0 4, .add 9 8 8, .j 0] (some (rec 1 (.add 9 8 8)), some (rec 0 (.lw 8 0 4)), none, none, none),
    live_of (by decide) (by decide) (by decide), next_of (by decide)⟩
theorem witness_BranchRedirectsTheFetchOfItsCycle_taken : Live sTaken ∧ Claims.NoStall sTaken ∧
    sTaken.slotID = some (rec 0 (.beq 0 0 0)) ∧ ∃ t, step sTaken = .next t ∧
      (fun t => decide (t.slotIF = some (rec 4 (.addi 8 0 5)) ∧ t.pc = 0x14)) t = true := ⟨live_sTaken, rfl, rfl, next_of (by decide)⟩
theorem witness_BranchRedirectsTheFetchOfItsCycle_notTaken : Live sNotTaken ∧ Claims.NoStall sNotTaken ∧
    sNotTaken.slotID = some (rec 0 (.bne 0 0 0)) ∧ ∃ t, step sNotTaken = .next t ∧
      (fun t => decide (t.slotIF = some (rec 1 .nop) ∧ t.pc = 8)) t = true := ⟨live_sNotTaken, rfl, rfl, next_of (by decide)⟩
theorem witness_JumpRegisterInsertsASecondBubble : Live sJr ∧ Claims.NoStall sJr ∧ sJr.slotID = some (rec 1 (.jr 9)) ∧
    ∃ t, step sJr = .next t ∧ (fun t => decide (t.pc = 0x14 ∧ t.slotIF = none)) t = true := ⟨live_sJr, rfl, rfl, next_of (by decide)⟩
theorem witness_JalLinksInDecodeAndAnOlderWriterOverwrites_memory : Live sJal ∧ Claims.NoStall sJal ∧
    sJal.slotID = some (rec 2 (.jal 0)) ∧
    ∃ t, step sJal = .next t ∧ (fun t => decide (readReg t 31 = 12 ∧ t.status = .running ∧ producerOf t.slotWB 31 = some 100) &&
      nextHas (step t) (fun u => readReg u 31 == 100)) t = true := ⟨live_sJal, rfl, rfl, next_of (by decide)⟩
theorem witness_JalLinksInDecodeAndAnOlderWriterOverwrites_execute : Live sJalNear ∧ Claims.NoStall sJalNear ∧
    sJalNear.slotID = some (rec 2 (.jal 0)) ∧ ∃ t, step sJalNear = .next t ∧
      (fun t => decide (readReg t 31 = 12 ∧ t.status = .running) && nextHas (step t) (fun u =>
        decide (readReg u 31 = 12 ∧ u.status = .running ∧ u.slotID = some (rec 3 (.add 9 31 0)) ∧ producerOf u.slotWB 31 = some 100) &&
          nextHas (step u) (fun v => readReg v 31 == 100))) t = true := ⟨live_sJalNear, rfl, rfl, next_of (by decide)⟩
theorem witness_JalLinksInDecodeAndAnOlderWriterOverwrites_secondJal : Live sJalJal ∧ Claims.NoStall sJalJal ∧
    sJalJal.slotID = some (rec 1 (.jal 0)) ∧ ∃ t, step sJalJal = .next t ∧
      (fun t => decide (t.status = .running) && nextHas (step t) (fun u => decide (u.status = .running ∧ u.slotID = some (rec 4 (.jal 0)) ∧
        producerOf u.slotWB 31 = some 100) && nextHas (step u) (fun v => readReg v 31 == 20))) t = true :=
  ⟨live_sJalJal, rfl, rfl, next_of (by decide)⟩
theorem witness_RunEndsWhenExhaustedAndEmpty : Live sLast ∧ (∃ t, step sLast = .next t ∧ (fun t => t.status == .done) t = true) ∧
    ∃ t, step { sLast with status := .done } = .next t ∧ (fun _ : State => true) t = true :=
  ⟨live_sLast, next_of (by decide), next_of (by decide)⟩
theorem witness_RunStopsAtTheCycleLimit : Live sLimit ∧ (∃ t, step sLimit = .next t ∧ (fun t => t.status == .cycleLimit) t = true) ∧
    Live sLastAtLimit ∧ ∃ t, step sLastAtLimit = .next t ∧ (fun t => t.status == .done) t = true :=
  ⟨live_sLimit, next_of (by decide), live_sLastAtLimit, next_of (by decide)⟩
theorem witness_EveryCycleIsOneOfFour : (Live sLoadUse ∧ ∃ t, step sLoadUse = .next t ∧ (fun t => t.stalls == 1) t = true) ∧
    (Live sFresh ∧ ∃ t, step sFresh = .next t ∧ (fun t => t.fetched == 1) t = true) ∧
    (Live sBubble ∧ ∃ t, step sBubble = .next t ∧ (fun t => decide (t.slotIF = none)) t = true) ∧
    (Live sLast ∧ ∃ t, step sLast = .next t ∧ (fun t => exhausted t) t = true) :=
  ⟨⟨live_sLoadUse, next_of (by decide)⟩, ⟨live_sFresh, next_of (by decide)⟩, ⟨live_sBubble, next_of (by decide)⟩,
    ⟨live_sLast, next_of (by decide)⟩⟩

theorem witness_StepKeepsMemoryCanonicalAndRegisterZero : MemoryOk sStore ∧ ZeroRegisterOk sStore ∧
    ∃ t, step sStore = .next t ∧ (fun t => t.dmem != sStore.dmem) t = true := ⟨by decide, by decide, next_of (by decide)⟩
theorem witness_StepKeepsTheFetchFlagAndTheRecords : FetchFlagOk sTaken ∧ RecordsOk sTaken ∧ RuntimeFieldsOk sTaken ∧
    ∃ t, step sTaken = .next t ∧ (fun _ : State => true) t = true := ⟨by decide, by decide, by decide, next_of (by decide)⟩
theorem witness_StepKeepsTheOperandsCoherent : OperandsOk sProducers ∧ ∃ t, step sProducers = .next t ∧
    (fun t => t.slotEX.isSome) t = true := ⟨by decide, next_of (by decide)⟩
theorem witness_StepKeepsCountersLogAndStatus : CountersOk sStore ∧ LogOk sStore ∧ StatusOk sStore ∧ ∃ t, step sStore = .next t ∧
    (fun t => t.log.length == 1) t = true := ⟨by decide, by decide, by decide, next_of (by decide)⟩
theorem witness_StepKeepsTheInvariants : Live sJal ∧ ∃ t, step sJal = .next t ∧ (fun t => t.status == .running) t = true :=
  ⟨live_sJal, next_of (by decide)⟩

theorem witness_StepRunsTheDecodedInstruction : configured sFresh = true ∧ sFresh.status = .running ∧ drained sFresh = true ∧
    sFresh.fb = false ∧ fetchedWord sFresh = some (encode (.addi 8 0 5)) ∧ decode (encode (.addi 8 0 5)) = .ok (.addi 8 0 5) ∧
    ∃ c, exec (.addi 8 0 5) sFresh = .next c ∧ (fun _ : State => true) c = true :=
  ⟨by decide, rfl, rfl, rfl, by decide, rfl, next_of (by decide)⟩
theorem witness_SixStepsOfALoneInstructionAreExec : configured sFresh = true ∧ sFresh.status = .running ∧ drained sFresh = true ∧
    sFresh.fb = false ∧ fetchedWord sFresh = some (encode (.addi 8 0 5)) ∧ decode (encode (.addi 8 0 5)) = .ok (.addi 8 0 5) ∧
    sFresh.cycles + 6 ≤ sFresh.maxCycles ∧ ∃ c, exec (.addi 8 0 5) sFresh = .next c ∧ exhausted c = true :=
  ⟨by decide, rfl, rfl, rfl, by decide, rfl, by decide, next_of (by decide)⟩
theorem witness_PipelineRefinesSequentialExecution : Live sProducers ∧ linkHazard sProducers = false ∧ Live sTaken ∧
    linkHazard sTaken = false ∧ (∃ t, step sProducers = .next t ∧ (fun t => t.fetched == sProducers.fetched) t = true) ∧
    ∃ t, step sTaken = .next t ∧ (fun t => t.fetched == sTaken.fetched + 1) t = true :=
  ⟨live_sProducers, rfl, live_sTaken, rfl, next_of (by decide), next_of (by decide)⟩
theorem witness_StraightLineCodeTakesNPlusFiveCycles : preRunRefusal [0x3810000000000005, 0x0A10900000000000] [] 7 = none ∧
    ([0x3810000000000005, 0x0A10900000000000] : List Diw) ≠ [] ∧
    Claims.decodedStore [0x3810000000000005, 0x0A10900000000000] = [.addi 8 0 5, .add 9 8 8] ∧
    (∀ i ∈ ([.addi 8 0 5, .add 9 8 8] : List Instr), i.isControlFlow = false ∧ ∀ b, Claims.usesLoad i b = false) ∧
    ([0x3810000000000005, 0x0A10900000000000] : List Diw).length + 5 ≤ 7 :=
  ⟨by decide, by decide, by decide, by simp [Instr.isControlFlow, Claims.usesLoad, Instr.isLw], by decide⟩
theorem witness_FiguresAreExactOrAbsent : cpi (start []) = none ∧ branchFrequency (start []) = none ∧
    cpi { start [] with cycles := 7, instructionsRetired := 2 } = some (7 / 2) := ⟨rfl, rfl, by simp [cpi, ratio]⟩

/-- The word of `beq` of the spec's example, with its label missing, runs as the first instruction after reset. -/
theorem test_withFetchWord : nextHas (step (State.reset.withFetchWord 64 0xBA10000000000000)) (fun t =>
    decide (t.slotIF = some (rec 0 (.beq 8 8 0)) ∧ t.pc = 4 ∧ t.fb = true)) = true := by decide

/-- The ports of R8 at reset of a one-word store, and the report (R267) only after the run. -/
theorem test_ports : imemValid sFresh = true ∧ imemWord sFresh = some 0x3810000000000005 ∧ (snapshot sFresh).status = 0 ∧
    finalReport sFresh = none ∧ (hostReset sLast).status = .running ∧ (hostReset sLast).slotWB = none := by
  refine ⟨by decide, by decide, by decide, rfl, by decide, by decide⟩

end Sys2Proof.Tests
end

/-! ## Register 0, and what an instruction run alone leaves of the register file -/

namespace Sys2Proof.Machine

/-- A result bound for register 0 is discarded (R31, R138). -/
theorem writeback_of_dest_zero {r : Record} (hd : r.instr.dest = 0) (s : State) : writeback s r = s := by
  unfold writeback
  split
  · rfl
  · rw [hd]
    exact writeReg_zero s _

/-- Register 0 has no producer (R13, R31). -/
theorem producerOf_zero (p : Slot) : producerOf p 0 = none := by
  cases p with
  | none => rfl
  | some r => simp [producerOf]

/-- A load stalls nothing when its destination is register 0 (R131). -/
theorem loadMatches_of_rt_zero {p : Record} (hrt : p.instr.rt = 0) (d : Record) : loadMatches d (some p) = false := by
  simp [loadMatches, hrt]

/-- The execute stage function leaves the register file as it was (R134). -/
theorem execute_regs (i : Instr) (s : State) (r : Record) : ((stagesOf i).execute s r).1.regs = s.regs := by
  obtain ⟨_, _, _, e⟩ := execute_touches i s r
  rw [e]

/-- The memory stage function leaves the register file as it was (R136). -/
theorem memory_regs {s : State} {r : Record} {p : State × Option Word} (h : (stagesOf r.instr).memory s r = .next p) :
    p.1.regs = s.regs := by
  have hslot : memorySlot s (some r) = .next (p.1, some { r with result := p.2 }) := by simp [memorySlot, h]
  rw [(memorySlot_touches hslot).1]

/-- Branch resolution leaves the register file as it was, unless it links (R221, R229). -/
theorem resolve_regs {i : Instr} {s : State} {r : Record} {p : State × Option Word} (hlink : ∀ l, i ≠ .jal l)
    (h : (stagesOf i).resolve s r = .next p) : p.1.regs = s.regs := by
  obtain e | ⟨l, hi, -⟩ | ⟨_, -, e⟩ := resolve_touches h
  · rw [e]
  · exact absurd hi (hlink l)
  · rw [e]

/-! With destination register 0, each part of the run of an instruction alone leaves the register file as it was. -/

section
variable {s t : State} {r : Record}

theorem finishFromMemory_regs_of_dest_zero (hd : r.instr.dest = 0)
    (h : finishFromMemory (stagesOf r.instr) s r = .next t) : t.regs = s.regs := by
  obtain ⟨p, hm, rfl⟩ := finishFromMemory_eq_next.1 h
  have hwb : writeback (countCycle p.1) { r with result := p.2 } = countCycle p.1 :=
    writeback_of_dest_zero (r := { r with result := p.2 }) hd _
  rw [countCycle_regs, retire_regs, hwb, countCycle_regs, memory_regs hm]

theorem finishFromExecute_regs_of_dest_zero (hd : r.instr.dest = 0)
    (h : finishFromExecute (stagesOf r.instr) s r = .next t) : t.regs = s.regs := by
  calc
    t.regs = (countCycle ((stagesOf r.instr).execute s r).1).regs :=
      finishFromMemory_regs_of_dest_zero (r := { r with result := ((stagesOf r.instr).execute s r).2 }) hd h
    _ = s.regs := execute_regs r.instr s r

theorem finishFromDecode_regs_of_dest_zero (hd : r.instr.dest = 0) (hlink : ∀ l, r.instr ≠ .jal l)
    (h : finishFromDecode (stagesOf r.instr) s r = .next t) : t.regs = s.regs := by
  obtain ⟨p, hres, hex⟩ := andThen_eq_next.1 h
  calc
    t.regs = (countCycle { p.1 with pc := p.2.getD p.1.pc, fb := s.fb }).regs :=
      finishFromExecute_regs_of_dest_zero (r := capture s none none none r) hd hex
    _ = s.regs := resolve_regs hlink hres

theorem exec_regs_of_dest_zero {i : Instr} (hd : i.dest = 0) (hlink : ∀ l, i ≠ .jal l) (h : exec i s = .next t) :
    t.regs = s.regs := by
  rw [exec_eq_alone] at h
  calc
    t.regs = (countCycle (countCycle (countFetch i s))).regs :=
      finishFromDecode_regs_of_dest_zero (r := fetchedRecord i s.pc) hd hlink h
    _ = s.regs := rfl

end

/-- Settles O19: reads and writes by the register laws, `exec` stage by stage, producers and stalls by their own guards on register 0. -/
theorem registerZeroIsInert : Obligations.RegisterZeroIsInert := by
  refine ⟨readReg_zero, writeReg_zero, ?_, producerOf_zero, ?_⟩
  · intro i s t h hd hlink
    exact exec_regs_of_dest_zero hd hlink h
  · intro d p rs imm hp
    have hrt : p.instr.rt = 0 := by rw [hp]; rfl
    exact loadMatches_of_rt_zero hrt d

end Sys2Proof.Machine

/-! ## No part of a cycle changes the configuration (R72, R283) -/

namespace Sys2Proof.Machine

/-- What the host loads before reset (R283): the instruction store, the label map and MAX_CYCLES. -/
def configuration (s : State) : List Diw × LabelMap × Nat := (s.prog, s.labels, s.maxCycles)

theorem configuration_eq_iff {s t : State} :
    configuration t = configuration s ↔ t.prog = s.prog ∧ t.labels = s.labels ∧ t.maxCycles = s.maxCycles := by
  simp [configuration]

@[simp] theorem writeReg_configuration (s : State) (r : Reg) (v : Word) :
    configuration (writeReg s r v) = configuration s := by
  simp [configuration]

@[simp] theorem endCycle_configuration (s : State) : configuration (endCycle s) = configuration s := by
  obtain ⟨-, -, e⟩ | ⟨-, -, e⟩ | ⟨-, -, e⟩ := endCycle_cases s <;> rw [e] <;> rfl

/-- Branch resolution writes the link register or the fetch-bubble flag at most (R221). -/
theorem resolve_configuration {i : Instr} {s : State} {r : Record} {p : State × Option Word}
    (h : (stagesOf i).resolve s r = .next p) : configuration p.1 = configuration s := by
  obtain e | ⟨_, -, e⟩ | ⟨_, -, e⟩ := resolve_touches h
  · rw [e]
  · rw [e, writeReg_configuration]
  · rw [e]
    rfl

theorem decodeSlot_configuration {s t : State} {d x1 m1 w0 : Slot} (h : decodeSlot s d x1 m1 w0 = .next t) :
    configuration t = configuration s := by
  obtain ⟨-, rfl⟩ | ⟨_, _, -, hres, rfl⟩ := decodeSlot_cases h
  · rfl
  · exact resolve_configuration hres

theorem fetchSlot_configuration {s t : State} (h : fetchSlot s = .next t) : configuration t = configuration s := by
  obtain ⟨-, rfl⟩ | ⟨-, -, rfl⟩ | ⟨_, _, -, -, -, rfl⟩ := fetchSlot_cases h <;> rfl

/-- A store in MEM reaches the data memory alone (R60), so a cycle ends with the configuration it began with, stalled or not. -/
theorem cycle_configuration {s t : State} (h : cycle s = .next t) : configuration t = configuration s := by
  obtain ⟨u, m1, -, ⟨-, rfl⟩ | ⟨-, y, z, hdecode, hfetch, rfl⟩⟩ := cycle_fields h
  · exact endCycle_configuration _
  · have hy := decodeSlot_configuration hdecode
    calc
      configuration (endCycle z) = configuration z := endCycle_configuration z
      _ = configuration { y with slotID := y.slotIF } := fetchSlot_configuration hfetch
      _ = configuration s := hy

theorem step_configuration {s t : State} (h : step s = .next t) : configuration t = configuration s := by
  obtain ⟨-, ⟨-, hcycle⟩ | ⟨-, rfl⟩⟩ := step_cases h
  · exact cycle_configuration hcycle
  · rfl

/-- Settles O29: each part of a cycle keeps the configuration, and a finished block stays as it is. -/
theorem noStepChangesTheProgram : Obligations.NoStepChangesTheProgram := by
  intro s t h
  exact configuration_eq_iff.1 (step_configuration h)

end Sys2Proof.Machine

/-! ## From a live state the block always makes a cycle (R63, R92, R284) -/

namespace Sys2Proof.Machine

/-! The pre-run checks (R259, R284): every word of an accepted store decodes, and the label it uses has an entry. -/

theorem firstIllegal_eq_none {k : Nat} {prog : List Diw} (h : firstIllegal k prog = none) :
    ∀ d ∈ prog, ∃ i, decode d = .ok i := by
  induction prog generalizing k with
  | nil => simp
  | cons d ds ih =>
    cases hd : decode d with
    | error e => simp [firstIllegal, hd] at h
    | ok i =>
      have hds : firstIllegal (k + 1) ds = none := by simpa [firstIllegal, hd] using h
      exact List.forall_mem_cons.2 ⟨⟨i, hd⟩, ih hds⟩

theorem firstUnresolved_eq_none {labels : LabelMap} {k : Nat} {prog : List Diw} (h : firstUnresolved labels k prog = none) :
    ∀ d ∈ prog, ∀ i, decode d = .ok i → i.wellFormed labels = true := by
  induction prog generalizing k with
  | nil => simp
  | cons d ds ih =>
    cases hd : decode d with
    | error e =>
      have hds : firstUnresolved labels (k + 1) ds = none := by simpa [firstUnresolved, hd] using h
      exact List.forall_mem_cons.2 ⟨by simp [hd], ih hds⟩
    | ok i =>
      simp only [firstUnresolved, hd] at h
      split at h
      · rename_i hi
        exact List.forall_mem_cons.2 ⟨by simpa [hd] using hi, ih h⟩
      · simp at h

theorem configured_accepts {s : State} (h : configured s = true) :
    ∀ d ∈ s.prog, ∃ i, decode d = .ok i ∧ i.wellFormed s.labels = true := by
  have hnone : preRunRefusal s.prog s.labels s.maxCycles = none := by simpa [configured] using h
  unfold preRunRefusal at hnone
  split at hnone
  · simp at hnone
  split at hnone
  · simp at hnone
  rename_i hlegal
  split at hnone
  · simp at hnone
  rename_i hresolved
  intro d hd
  obtain ⟨i, hi⟩ := firstIllegal_eq_none hlegal d hd
  exact ⟨i, hi, firstUnresolved_eq_none hresolved d hd i hi⟩

theorem wellFormed_of_fromStore {s : State} {r : Record} (h : configured s = true) (hr : fromStore s.prog r) :
    r.instr.wellFormed s.labels = true := by
  obtain ⟨d, hd, hdec⟩ := Option.bind_eq_some_iff.1 hr.2
  obtain ⟨i, hi, hwf⟩ := configured_accepts h d (List.mem_of_getElem? hd)
  have hri : i = r.instr := by simpa [hi, Except.toOption] using hdec
  exact hri ▸ hwf

/-! Each part of a cycle answers a next state. -/

/-- The memory stage function needs an address for a load or store, and nothing else (R63, R136). -/
theorem memory_exists {s : State} {r : Record} (h : isLoadOrStore r.instr = true → r.result.isSome = true) :
    ∃ p, (stagesOf r.instr).memory s r = .next p := by
  obtain ⟨i, pc, a, b, res⟩ := r
  cases i with
  | lw rt rs imm =>
    obtain ⟨v, rfl⟩ := Option.isSome_iff_exists.1 (h rfl)
    exact ⟨_, rfl⟩
  | sw rt rs imm =>
    obtain ⟨v, rfl⟩ := Option.isSome_iff_exists.1 (h rfl)
    exact ⟨_, rfl⟩
  | _ => exact ⟨_, rfl⟩

theorem memorySlot_exists (s : State) {m0 : Slot}
    (h : slotAll m0 fun r => isLoadOrStore r.instr = true → r.result.isSome = true) : ∃ p, memorySlot s m0 = .next p := by
  cases m0 with
  | none => exact ⟨_, rfl⟩
  | some r =>
    obtain ⟨p, hp⟩ := memory_exists (s := s) (h r rfl)
    exact ⟨_, andThen_eq_next.2 ⟨p, hp, rfl⟩⟩

theorem takeLabel_exists {s : State} {l : Word} (h : (labelTarget s.labels l).isSome = true) (r : Record) :
    ∃ p, takeLabel l s r = .next p := by
  obtain ⟨target, ht⟩ := Option.isSome_iff_exists.1 h
  exact ⟨_, by rw [takeLabel, ht]⟩

theorem branchResolve_exists {s : State} {l : Word} (h : (labelTarget s.labels l).isSome = true)
    (cond : Word → Word → Bool) (r : Record) : ∃ p, branchResolve cond l s r = .next p := by
  unfold branchResolve
  split
  · exact takeLabel_exists h r
  · exact ⟨_, rfl⟩

/-- Branch resolution needs an entry for the label the instruction uses, and nothing else (R221). -/
theorem resolve_exists {i : Instr} {s : State} (h : i.wellFormed s.labels = true) (r : Record) :
    ∃ p, (stagesOf i).resolve s r = .next p := by
  cases i with
  | j l => exact takeLabel_exists h r
  | jal l => exact takeLabel_exists (by rw [writeReg_labels]; exact h) r
  | beq rs rt l => exact branchResolve_exists h condEq r
  | bne rs rt l => exact branchResolve_exists h condNe r
  | blt rs rt l => exact branchResolve_exists h condLt r
  | bgt rs rt l => exact branchResolve_exists h condGt r
  | ble rs rt l => exact branchResolve_exists h condLe r
  | bge rs rt l => exact branchResolve_exists h condGe r
  | _ => exact ⟨_, rfl⟩

theorem decodeSlot_exists {s : State} {d : Slot} (h : slotAll d fun r => r.instr.wellFormed s.labels = true)
    (x1 m1 w0 : Slot) : ∃ t, decodeSlot s d x1 m1 w0 = .next t := by
  cases d with
  | none => exact ⟨_, rfl⟩
  | some r =>
    obtain ⟨p, hp⟩ := resolve_exists (h r rfl) (capture s x1 m1 w0 r)
    exact ⟨_, andThen_eq_next.2 ⟨p, hp, rfl⟩⟩

theorem fetchSlot_exists {s : State} (h : ∀ d ∈ s.prog, ∃ i, decode d = .ok i) : ∃ t, fetchSlot s = .next t := by
  unfold fetchSlot
  split
  · exact ⟨_, rfl⟩
  cases hw : fetchedWord s with
  | none => exact ⟨_, rfl⟩
  | some d =>
    obtain ⟨i, hi⟩ := h d (List.mem_of_getElem? hw)
    exact ⟨_, by simp only [hi]; rfl⟩

theorem advance_exists {s : State} (hID : slotAll s.slotID fun r => r.instr.wellFormed s.labels = true)
    (hprog : ∀ d ∈ s.prog, ∃ i, decode d = .ok i) (x1 m1 w0 : Slot) : ∃ t, advance s x1 m1 w0 = .next t := by
  obtain ⟨y, hy⟩ := decodeSlot_exists hID x1 m1 w0
  have hyprog : y.prog = s.prog := (configuration_eq_iff.1 (decodeSlot_configuration hy)).1
  obtain ⟨z, hz⟩ := fetchSlot_exists (s := { y with slotID := y.slotIF }) (by rw [hyprog]; exact hprog)
  exact ⟨z, andThen_eq_next.2 ⟨y, hy, hz⟩⟩

/-- Writeback, memory and execute leave the configuration and ID as they were, for decode and fetch to read. -/
theorem executeSlot_configuration_slotID {s u : State} {m1 : Slot}
    (hm : memorySlot (commitSlot s s.slotWB) s.slotMEM = .next (u, m1)) (x0 m0 w0 : Slot) :
    configuration (executeSlot u x0 m0 m1 w0).1 = configuration s ∧ (executeSlot u x0 m0 m1 w0).1.slotID = s.slotID := by
  rw [(executeSlot_touches u x0 m0 m1 w0).1, (memorySlot_touches hm).1, commitSlot_touches]
  exact ⟨rfl, rfl⟩

theorem cycle_exists {s : State} (hconf : configured s = true) (hID : slotAll s.slotID (fromStore s.prog))
    (hMEM : slotAll s.slotMEM fun r => isLoadOrStore r.instr = true → r.result.isSome = true) : ∃ t, cycle s = .next t := by
  obtain ⟨⟨u, m1⟩, hm⟩ := memorySlot_exists (commitSlot s s.slotWB) hMEM
  obtain ⟨hx, hxID⟩ := executeSlot_configuration_slotID hm s.slotEX s.slotMEM s.slotWB
  obtain ⟨hxprog, hxlabels, -⟩ := configuration_eq_iff.1 hx
  rw [cycle, hm, andThen_next]
  dsimp only
  split
  · exact ⟨_, rfl⟩
  · refine Exists.imp' endCycle (fun z hz => andThen_eq_next.2 ⟨z, hz, rfl⟩) (advance_exists ?_ ?_ _ _ _)
    · dsimp only
      rw [hxID, hxlabels]
      exact fun r hr => wellFormed_of_fromStore hconf (hID r hr)
    · dsimp only
      rw [hxprog]
      exact fun d hd => (configured_accepts hconf d hd).imp fun _ h => h.1

theorem Live.exists_cycle {s : State} (h : Live s) : ∃ t, step s = .next t ∧ cycle s = .next t := by
  obtain ⟨-, hID, -⟩ := h.inv.records
  obtain ⟨-, -, -, hMEM⟩ := h.inv.runtimeFields
  obtain ⟨t, ht⟩ := cycle_exists h.accepted hID hMEM
  exact ⟨t, (step_running h.accepted h.running).trans ht, ht⟩

theorem cycle_of_step {s t : State} (hs : s.status = .running) (h : step s = .next t) : cycle s = .next t := by
  obtain ⟨-, ⟨-, hc⟩ | ⟨hdone, -⟩⟩ := step_cases h
  · exact hc
  · simp [hs] at hdone

end Sys2Proof.Machine

/-! ## What each part of a cycle touches, and what one cycle leaves of the front and of the back of the pipeline -/

namespace Sys2Proof.Machine

theorem writeReg_touches (s : State) (r : Reg) (v : Word) : writeReg s r v = { s with regs := (writeReg s r v).regs } := by
  unfold writeReg
  split <;> rfl

/-- Decode touches the register file (the link), the fetch-bubble flag, `pc` and EX alone (R118 to R121, R143, R145), and passes on
the same instruction at the same address. -/
theorem decodeSlot_touches {s t : State} {d x1 m1 w0 : Slot} (h : decodeSlot s d x1 m1 w0 = .next t) :
    t = { s with regs := t.regs, fb := t.fb, pc := t.pc, slotEX := t.slotEX } ∧ Claims.key t.slotEX = Claims.key d := by
  obtain ⟨rfl, rfl⟩ | ⟨r, p, rfl, hres, rfl⟩ := decodeSlot_cases h
  · exact ⟨rfl, rfl⟩
  refine ⟨?_, rfl⟩
  obtain e | ⟨l, -, e⟩ | ⟨rs, -, e⟩ := resolve_touches hres
  · rw [e]
  · rw [e, writeReg_touches]
  · rw [e]

/-- A fetch touches IF, the fetch-bubble flag, `pc` and the fetch counters alone (R112 to R116, R144). -/
theorem fetchSlot_touches {s t : State} (h : fetchSlot s = .next t) :
    t = { s with slotIF := t.slotIF, fb := t.fb, pc := t.pc, fetched := t.fetched, branchFetched := t.branchFetched } := by
  obtain ⟨-, rfl⟩ | ⟨-, -, rfl⟩ | ⟨d, i, -, -, -, rfl⟩ := fetchSlot_cases h <;> rfl

/-- Decode and fetch together (steps 5 and 6 of R140). -/
theorem decode_fetch_touches {s y z : State} {d x1 m1 w0 : Slot} (hd : decodeSlot s d x1 m1 w0 = .next y)
    (hf : fetchSlot { y with slotID := y.slotIF } = .next z) :
    z = { s with
      regs := y.regs
      slotEX := y.slotEX
      slotID := s.slotIF
      slotIF := z.slotIF
      fb := z.fb
      pc := z.pc
      fetched := z.fetched
      branchFetched := z.branchFetched } := by
  have ez := fetchSlot_touches hf
  rw [(decodeSlot_touches hd).1] at ez
  exact ez

/-- The end of a cycle touches the cycle counter and the status alone (R140 step 7). -/
theorem endCycle_touches (s : State) : endCycle s = { s with cycles := s.cycles + 1, status := (endCycle s).status } := by
  obtain ⟨-, -, e⟩ | ⟨-, -, e⟩ | ⟨-, -, e⟩ := endCycle_cases s <;> rw [e] <;> rfl

@[simp] theorem endCycle_regs (s : State) : (endCycle s).regs = s.regs := by rw [endCycle_touches]
@[simp] theorem endCycle_dmem (s : State) : (endCycle s).dmem = s.dmem := by rw [endCycle_touches]
@[simp] theorem endCycle_pc (s : State) : (endCycle s).pc = s.pc := by rw [endCycle_touches]
@[simp] theorem endCycle_fb (s : State) : (endCycle s).fb = s.fb := by rw [endCycle_touches]
@[simp] theorem endCycle_stalls (s : State) : (endCycle s).stalls = s.stalls := by rw [endCycle_touches]
@[simp] theorem endCycle_fetched (s : State) : (endCycle s).fetched = s.fetched := by rw [endCycle_touches]
@[simp] theorem endCycle_branchFetched (s : State) : (endCycle s).branchFetched = s.branchFetched := by rw [endCycle_touches]
@[simp] theorem endCycle_slotIF (s : State) : (endCycle s).slotIF = s.slotIF := by rw [endCycle_touches]
@[simp] theorem endCycle_slotID (s : State) : (endCycle s).slotID = s.slotID := by rw [endCycle_touches]
@[simp] theorem endCycle_slotEX (s : State) : (endCycle s).slotEX = s.slotEX := by rw [endCycle_touches]
@[simp] theorem endCycle_slotMEM (s : State) : (endCycle s).slotMEM = s.slotMEM := by rw [endCycle_touches]
@[simp] theorem endCycle_slotWB (s : State) : (endCycle s).slotWB = s.slotWB := by rw [endCycle_touches]
@[simp] theorem exhausted_endCycle (s : State) : exhausted (endCycle s) = exhausted s := by rw [endCycle_touches]; rfl
@[simp] theorem drained_endCycle (s : State) : drained (endCycle s) = drained s := by rw [endCycle_touches]; rfl

/-- The back of the pipeline: WB and the data memory are what the memory stage answers after the commit, stall or not (R136, R153). -/
theorem cycle_memory {s t : State} (h : cycle s = .next t) :
    ∃ u, memorySlot (commitSlot s s.slotWB) s.slotMEM = .next (u, t.slotWB) ∧ t.dmem = u.dmem := by
  obtain ⟨u, m1, hm, ⟨-, rfl⟩ | ⟨-, y, z, hd, hf, rfl⟩⟩ := cycle_fields h
  · exact ⟨u, by simpa using hm, by simp⟩
  · rw [endCycle_slotWB, endCycle_dmem, decode_fetch_touches hd hf]
    exact ⟨u, hm, rfl⟩

/-- Records in EX and MEM move on in every cycle, stall or not (R153). -/
theorem cycle_keys {s t : State} (h : cycle s = .next t) :
    Claims.key t.slotMEM = Claims.key s.slotEX ∧ Claims.key t.slotWB = Claims.key s.slotMEM := by
  obtain ⟨u, m1, hm, hc⟩ := cycle_fields h
  have hEX := (executeSlot_touches u s.slotEX s.slotMEM m1 s.slotWB).2
  have hMEM := (memorySlot_touches hm).2
  obtain ⟨-, rfl⟩ | ⟨-, y, z, hd, hf, rfl⟩ := hc
  · rw [endCycle_slotMEM, endCycle_slotWB]
    exact ⟨hEX, hMEM⟩
  · rw [endCycle_slotMEM, endCycle_slotWB, decode_fetch_touches hd hf]
    exact ⟨hEX, hMEM⟩

/-- The stall path (R132), for the front of the pipeline. -/
theorem cycle_stalled {s t : State} (h : cycle s = .next t) (hstall : loadUseStall s.slotID s.slotEX s.slotMEM = true) :
    t.slotEX = none ∧ t.stalls = s.stalls + 1 ∧ t.slotID = s.slotID ∧ t.slotIF = s.slotIF ∧ t.pc = s.pc ∧ t.fb = s.fb ∧
      t.fetched = s.fetched ∧ t.branchFetched = s.branchFetched := by
  obtain ⟨u, m1, -, ⟨-, rfl⟩ | ⟨hno, -⟩⟩ := cycle_fields h
  · simp
  · simp [hstall] at hno

end Sys2Proof.Machine

/-! ## Writeback, memory and execute-stage tags -/

namespace Sys2Proof.Machine

/-- Decode writes no general register but the link of a `jal` (R221, R229). -/
theorem decodeSlot_readReg {s t : State} {d x1 m1 w0 : Slot} {q : Reg} (h : decodeSlot s d x1 m1 w0 = .next t)
    (hq : q ≠ 31 ∨ ∀ r ∈ d, ∀ l, r.instr ≠ .jal l) : readReg t q = readReg s q := by
  obtain ⟨-, rfl⟩ | ⟨r, p, rfl, hres, rfl⟩ := decodeSlot_cases h
  · rfl
  have hp : readReg p.1 q = readReg s q := by
    obtain e | ⟨l, hjal, e⟩ | ⟨rs, -, e⟩ := resolve_touches hres
    · rw [e]
    · have hq31 : q ≠ Config.linkReg := hq.resolve_right fun hno => hno r rfl l hjal
      rw [e, readReg_writeReg, if_neg fun hlink => hq31 hlink.1]
    · rw [e]
      rfl
  exact hp

/-- One cycle reads back every register as the commit of WB leaves it, the link of a `jal` in ID excepted (R138). -/
theorem cycle_readReg {s t : State} {q : Reg} (h : cycle s = .next t)
    (hq : q ≠ 31 ∨ ∀ r ∈ s.slotID, ∀ l, r.instr ≠ .jal l) :
    readReg t q = (producerOf s.slotWB q).getD (readReg s q) := by
  rw [← readReg_commitSlot]
  obtain ⟨u, m1, -, ⟨-, rfl⟩ | ⟨-, y, z, hd, hf, rfl⟩⟩ := cycle_fields h
  · exact readReg_congr (endCycle_regs _) q
  · calc
      readReg (endCycle z) q = readReg y q := readReg_congr (by rw [endCycle_regs, decode_fetch_touches hd hf]) q
      _ = readReg (commitSlot s s.slotWB) q := (decodeSlot_readReg hd hq).trans (readReg_congr rfl q)

/-- Settles O31: the register file after a cycle is the one the commit leaves, and that is the producer in WB, if any. -/
theorem writebackCommitsTheResult : Obligations.WritebackCommitsTheResult := by
  intro s t q hlive hstep hq
  rw [cycle_readReg (cycle_of_step hlive.running hstep) hq]
  cases s.slotWB with
  | none => rfl
  | some r =>
    cases hres : r.result with
    | none => simp [producerOf, hres]
    | some v =>
      by_cases hd : r.instr.dest = q ∧ q ≠ 0
      · simp only [producerOf, hres, if_pos hd, if_pos hd.symm, Option.getD_some]
      · have hd' : ¬(q ≠ 0 ∧ r.instr.dest = q) := fun h => hd h.symm
        simp only [producerOf, hres, if_neg hd, if_neg hd', Option.getD_none]

theorem commitSlot_dmem (s : State) (w0 : Slot) : (commitSlot s w0).dmem = s.dmem := by
  rw [commitSlot_touches]

theorem loadWord_congr {s t : State} (h : s.dmem = t.dmem) (a : Word) : loadWord s a = loadWord t a := by
  rw [loadWord, h, loadWord]

/-- Settles O32: the memory stage runs on the memory of before the cycle, which the commit leaves alone. -/
theorem memoryStageLoadsStoresOrPasses : Obligations.MemoryStageLoadsStoresOrPasses := by
  intro s t hlive hstep
  obtain ⟨u, hm, hdmem⟩ := cycle_memory (cycle_of_step hlive.running hstep)
  have hcommit := commitSlot_dmem s s.slotWB
  obtain ⟨hnone, rfl, hwb⟩ | ⟨r, rt, rs, imm, a, hr, hi, hres, rfl, hwb⟩ | ⟨r, rt, rs, imm, a, hr, hi, hres, rfl, hwb⟩ |
    ⟨r, hr, hlw, hsw, rfl, hwb⟩ := memorySlot_cases hm
  case inl => exact ⟨fun _ => ⟨hwb, hdmem.trans hcommit⟩, by simp [hnone]⟩
  all_goals
    refine ⟨by simp [hr], fun r' hr' => ?_⟩
    obtain rfl : r = r' := by simpa [hr] using hr'
  · refine ⟨fun _ _ _ _ => ⟨a, hres, hdmem.trans hcommit, ?_⟩, by simp [hi], fun hne => absurd hi (hne rt rs imm).1⟩
    rw [hwb, loadWord_congr hcommit]
  · refine ⟨by simp [hi], fun _ _ _ _ => ⟨a, hres, hwb, fun b => ?_⟩, fun hne => absurd hi (hne rt rs imm).2⟩
    have hwf : Memory.wf (commitSlot s s.slotWB).dmem = true := hcommit ▸ hlive.inv.memory
    rw [loadWord_congr hdmem, loadWord_storeWord hwf, loadWord_congr hcommit]
  · refine ⟨fun rt rs imm hi => ?_, fun rt rs imm hi => absurd hi (hsw rt rs imm), fun _ => ⟨hwb, hdmem.trans hcommit⟩⟩
    simp [hi, Instr.isLw] at hlw

/-- Settles O40: the tag tests the slots in the order of their distance. -/
theorem executeTagsNameTheNearestProducer : Obligations.ExecuteTagsNameTheNearestProducer := by
  intro m0 w0 r
  refine ⟨fun v hm => ?_, fun v hm hw => ?_, fun hm hw => ?_⟩
  · simp [exTag, hm]
  · simp [exTag, hm, hw]
  · simp [exTag, hm, hw]

end Sys2Proof.Machine

/-! ## The front of the pipeline: stalls, the advance, the fetch bubble and the normal end -/

namespace Sys2Proof.Machine

/-- Settles O34: a live state makes a cycle, and with a load-use stall that cycle takes the stall path. -/
theorem stallHoldsDecodeAndFetch : Obligations.StallHoldsDecodeAndFetch := by
  intro s hlive hstall
  obtain ⟨t, hstep, hcycle⟩ := hlive.exists_cycle
  obtain ⟨hEX, hstalls, hID, hIF, hpc, hfb, hfetched, hbranch⟩ := cycle_stalled hcycle hstall
  obtain ⟨hMEM, hWB⟩ := cycle_keys hcycle
  exact ⟨t, hstep, hEX, hstalls, hID, hIF, hpc, hfb, hfetched, hbranch, hMEM, hWB⟩

/-- Without a stall IF moves into ID unchanged, and the record of ID into EX (R142). -/
theorem cycle_advances {s t : State} (h : cycle s = .next t) (hno : Claims.NoStall s) :
    t.slotID = s.slotIF ∧ Claims.key t.slotEX = Claims.key s.slotID := by
  obtain ⟨u, m1, -, ⟨hstall, -⟩ | ⟨-, y, z, hd, hf, rfl⟩⟩ := cycle_fields h
  · exact absurd (hno.symm.trans hstall) Bool.false_ne_true
  · rw [endCycle_slotID, endCycle_slotEX, decode_fetch_touches hd hf]
    exact ⟨rfl, (decodeSlot_touches hd).2⟩

/-- Settles O37: a live state makes a cycle, and without a load-use stall that cycle advances. -/
theorem withoutStallEverySlotAdvances : Obligations.WithoutStallEverySlotAdvances := by
  intro s hlive hno
  obtain ⟨t, hstep, hcycle⟩ := hlive.exists_cycle
  exact ⟨t, hstep, cycle_advances hcycle hno⟩

/-- Decode leaves an armed bubble armed: `jr` arms one itself, and nothing else there touches the flag (R145). -/
theorem decodeSlot_fb_of_armed {s t : State} {d x1 m1 w0 : Slot} (h : decodeSlot s d x1 m1 w0 = .next t) (hfb : s.fb = true) :
    t.fb = true := by
  obtain ⟨-, rfl⟩ | ⟨r, p, rfl, hres, rfl⟩ := decodeSlot_cases h
  · exact hfb
  have hp : p.1.fb = true := by
    obtain e | ⟨l, -, e⟩ | ⟨rs, -, e⟩ := resolve_touches hres
    · rw [e, hfb]
    · rw [e, writeReg_fb, hfb]
    · rw [e]
  exact hp

/-- A cycle that counts a fetch leaves the flag armed exactly when it fetched a control-flow instruction (R116). -/
theorem cycle_fb_of_fetched {s t : State} {r : Record} (h : cycle s = .next t) (hcount : t.fetched = s.fetched + 1)
    (hr : t.slotIF = some r) : t.fb = r.instr.isControlFlow := by
  obtain ⟨u, m1, -, ⟨-, rfl⟩ | ⟨-, y, z, hd, hf, rfl⟩⟩ := cycle_fields h
  · simp at hcount
  rw [endCycle_slotIF] at hr
  rw [endCycle_fb]
  obtain ⟨-, rfl⟩ | ⟨-, -, rfl⟩ | ⟨d, i, -, -, -, rfl⟩ := fetchSlot_cases hf
  · simp at hr
  · simp at hr
  · obtain rfl : fetchedRecord i y.pc = r := Option.some.inj hr
    rfl

/-- An armed bubble takes the place of the fetch of the next cycle without a stall, and is consumed (R144). -/
theorem cycle_inserts_bubble {s t : State} (h : cycle s = .next t) (hno : Claims.NoStall s) (hfb : s.fb = true) :
    t.slotIF = none ∧ t.fb = false ∧ t.fetched = s.fetched := by
  obtain ⟨u, m1, -, ⟨hstall, -⟩ | ⟨-, y, z, hd, hf, rfl⟩⟩ := cycle_fields h
  · exact absurd (hno.symm.trans hstall) Bool.false_ne_true
  rw [endCycle_slotIF, endCycle_fb, endCycle_fetched]
  have hy : y.fb = true := decodeSlot_fb_of_armed hd hfb
  obtain ⟨-, rfl⟩ | ⟨hy', -⟩ | ⟨_, _, hy', -⟩ := fetchSlot_cases hf
  · exact ⟨rfl, rfl, by rw [(decodeSlot_touches hd).1]⟩
  · simp [hy] at hy'
  · simp [hy] at hy'

/-- Settles O43: the fetch arms the bubble, the next cycle without a stall consumes it, and a stall holds it. -/
theorem controlFlowFetchArmsOneBubble : Obligations.ControlFlowFetchArmsOneBubble := by
  intro s t r hlive hstep hcount hr hcf
  have hfb : t.fb = true := (cycle_fb_of_fetched (cycle_of_step hlive.running hstep) hcount hr).trans hcf
  refine ⟨hfb, fun u hrun hstep' => ?_⟩
  have hcycle := cycle_of_step hrun hstep'
  refine ⟨fun hno => cycle_inserts_bubble hcycle hno hfb, fun hstall => ?_⟩
  obtain ⟨-, -, -, hIF, -, hfb', hfetched, -⟩ := cycle_stalled hcycle (by simpa [Claims.NoStall] using hstall)
  exact ⟨hIF, hfb'.trans hfb, hfetched⟩

/-- The test at the end of a cycle says Done exactly when `pc` is exhausted and the slots are empty (R147). -/
theorem endCycle_status_eq_done_iff {s : State} (hs : s.status = .running) :
    (endCycle s).status = .done ↔ exhausted s = true ∧ drained s = true := by
  rw [← Bool.and_eq_true]
  obtain ⟨he, hd, e⟩ | ⟨hno, -, e⟩ | ⟨hno, -, e⟩ := endCycle_cases s
  · simp [e, he, hd]
  · simp [e, hno]
  · simp [e, hno, hs]

/-- Nothing but the test at the end of a cycle changes the status. -/
theorem cycle_eq_endCycle {s t : State} (h : cycle s = .next t) : ∃ z, z.status = s.status ∧ t = endCycle z := by
  obtain ⟨u, m1, -, ⟨-, rfl⟩ | ⟨-, y, z, hd, hf, rfl⟩⟩ := cycle_fields h
  · refine ⟨_, ?_, rfl⟩
    rfl
  · exact ⟨z, by rw [decode_fetch_touches hd hf], rfl⟩

theorem resetWith_status_eq_done_iff (prog : List Diw) (labels : LabelMap) (mc : Nat) :
    (State.resetWith prog labels mc).status = .done ↔ prog = [] := by
  by_cases h : prog = []
  · simp [State.resetWith, h]
  · simp [State.resetWith, h]

/-- Settles O47: the test at the end of a cycle, the status at reset, and the step of a finished block. -/
theorem runEndsWhenExhaustedAndEmpty : Obligations.RunEndsWhenExhaustedAndEmpty := by
  refine ⟨fun s t hlive hstep => ?_, resetWith_status_eq_done_iff, fun s t hdone hstep => ?_⟩
  · obtain ⟨z, hz, rfl⟩ := cycle_eq_endCycle (cycle_of_step hlive.running hstep)
    rw [exhausted_endCycle, drained_endCycle]
    exact endCycle_status_eq_done_iff (hz.trans hlive.running)
  · obtain ⟨-, ⟨hrun, -⟩ | ⟨-, ht⟩⟩ := step_cases hstep
    · simp [hdone] at hrun
    · exact ht

end Sys2Proof.Machine

/-! ## The encoding: the decoder, the encoder and the rows of the opcode table -/

namespace Sys2Proof

theorem decodeByTag_encodeFields (i : Instr) : decodeByTag (encodeFields i) = .ok i := by
  cases i <;> rfl

/-- Settles O20: reading the written fields gives them back, and the opcode map sends them to the instruction. -/
theorem decodeOfEncodeIsTheInstruction : Obligations.DecodeOfEncodeIsTheInstruction := by
  intro i
  have hzero : (encodeFields i).zero = 0 := rfl
  rw [encode, decode_joinDiw, if_pos hzero, decodeByTag_encodeFields]

@[simp] theorem whenUnset_eq_ok_iff {unset : Bool} {i j : Instr} : whenUnset unset i = .ok j ↔ unset = true ∧ i = j := by
  cases unset <;> simp [whenUnset]

theorem decode_eq_ok_iff {d : Diw} {i : Instr} :
    decode d = .ok i ↔ (splitDiw d).zero = 0 ∧ decodeByTag (splitDiw d) = .ok i := by
  simp only [decode]
  split <;> simp_all

/-- A tag of the opcode map with the fields its format uses, and zeros elsewhere, is what the encoder writes (R83, R85). -/
theorem encodeFields_of_decodeByTag {f : Fields} {i : Instr} (hzero : f.zero = 0) (h : decodeByTag f = .ok i) :
    encodeFields i = f := by
  obtain ⟨opc, rs, rt, rd, zero, imm⟩ := f
  have htag : ∀ n : Nat, opc.toNat = n → BitVec.ofNat 5 n = opc := fun n hn => by rw [← hn, BitVec.ofNat_toNat, BitVec.setWidth_eq]
  obtain rfl : zero = 0 := hzero
  unfold decodeByTag at h
  split at h
  case h_30 => simp at h
  all_goals
    rename_i hopc
    have hopc := htag _ hopc
    simp only [formatN, formatR, formatI, formatRR, formatRD, formatLS, formatJ, formatJR, formatB, whenUnset_eq_ok_iff,
      Bool.and_eq_true, beq_iff_eq] at h
    obtain ⟨hunset, rfl⟩ := h
    simp [encodeFields, Instr.tag, Instr.rs, Instr.rt, Instr.rd, Instr.imm, hunset, ← hopc]

/-- Settles O21: the fields of a legal word are those the encoder writes, and the fields make the word. -/
theorem encodeOfDecodeIsTheWord : Obligations.EncodeOfDecodeIsTheWord := by
  intro d i h
  obtain ⟨hzero, htag⟩ := decode_eq_ok_iff.1 h
  rw [encode, encodeFields_of_decodeByTag hzero htag, joinDiw_splitDiw]

/-- Settles O24: each word decodes by computation. -/
theorem exampleWordsDecode : Obligations.ExampleWordsDecode :=
  ⟨rfl, rfl, rfl, rfl, rfl, rfl, rfl, rfl, rfl, rfl, rfl, rfl⟩

/-! A mask works on the fields of a word one by one. -/

/-- Two words, field by field under AND. -/
def Fields.and (f g : Fields) : Fields :=
  { opc := f.opc &&& g.opc, rs := f.rs &&& g.rs, rt := f.rt &&& g.rt, rd := f.rd &&& g.rd, zero := f.zero &&& g.zero,
    imm := f.imm &&& g.imm }

theorem splitDiw_and (d m : Diw) : splitDiw (d &&& m) = (splitDiw d).and (splitDiw m) := by
  simp [splitDiw, Fields.and, BitVec.extractLsb'_and]

theorem splitDiw_injective : Function.Injective splitDiw :=
  Function.LeftInverse.injective joinDiw_splitDiw

theorem and_eq_iff_fields {d m v : Diw} : d &&& m = v ↔ (splitDiw d).and (splitDiw m) = splitDiw v := by
  rw [← splitDiw_and, splitDiw_injective.eq_iff]

/-- What a row of the opcode table says of the fields that carry its tag: those under the row's mask name an instruction of the row,
and the others have a field set that the row's format leaves unset (R85, R92). -/
def RowFits (row : String × Diw × Diw) : Prop :=
  ∀ f : Fields, f.zero = 0 → f.opc = (splitDiw row.2.1).opc →
    (f.and (splitDiw row.2.2) = splitDiw row.2.1 → ∃ i, decodeByTag f = .ok i ∧ i.mnemonic = row.1) ∧
    (f.and (splitDiw row.2.2) ≠ splitDiw row.2.1 → decodeByTag f = .error .unusedFieldSet)

theorem and_allOnes_reg (r : Reg) : r &&& 31#5 = r := BitVec.and_allOnes

theorem and_allOnes_word (w : Word) : w &&& 4294967295#32 = w := BitVec.and_allOnes

theorem opcodeRows_fit : ∀ row ∈ Claims.opcodeRows, RowFits row := by
  simp only [Claims.opcodeRows, List.cons_append, List.nil_append, List.forall_mem_cons, List.not_mem_nil, false_imp_iff, implies_true,
    and_true]
  repeat' apply And.intro
  all_goals
    rintro ⟨opc, rs, rt, rd, zero, imm⟩ (rfl : zero = 0) hopc
    obtain rfl : opc = _ := hopc
    simp +contextual [splitDiw, Fields.and, and_allOnes_reg, and_allOnes_word, decodeByTag, formatN, formatR, formatI, formatRR,
      formatRD, formatLS, formatJ, formatJR, formatB, whenUnset, Instr.mnemonic]

/-- Every tag but the reserved ones has a row (R83, R84). -/
theorem opcodeRows_of_tag (t : BitVec 5) : t.toNat < 0x1D → ∃ row ∈ Claims.opcodeRows, t = (splitDiw row.2.1).opc := by
  revert t
  decide

theorem decodeByTag_reserved {f : Fields} (h : 0x1D ≤ f.opc.toNat) : decodeByTag f = .error .reservedTag := by
  unfold decodeByTag
  split
  case h_30 => rfl
  all_goals omega

theorem tag_lt_of_decodeByTag {f : Fields} {i : Instr} (h : decodeByTag f = .ok i) : f.opc.toNat < 0x1D := by
  by_contra hge
  simp [decodeByTag_reserved (Nat.le_of_not_lt hge)] at h

/-- A word under the mask of a row has the row's tag and no reserved bit: every mask covers both (R81, R82). -/
theorem opcodeRows_mask : ∀ row ∈ Claims.opcodeRows,
    (splitDiw row.2.2).opc = 31 ∧ (splitDiw row.2.2).zero = 0xFFF ∧ (splitDiw row.2.1).zero = 0 := by
  decide

/-- Settles O22: the row of a legal word's tag fits it, and a word under a row's mask carries the row's tag. -/
theorem decoderAgreesWithTheOpcodeTable : Obligations.DecoderAgreesWithTheOpcodeTable := by
  constructor
  · intro d i h
    obtain ⟨hzero, htag⟩ := decode_eq_ok_iff.1 h
    obtain ⟨row, hrow, hopc⟩ := opcodeRows_of_tag _ (tag_lt_of_decodeByTag htag)
    obtain ⟨hok, herr⟩ := opcodeRows_fit row hrow _ hzero hopc
    have hmatch : (splitDiw d).and (splitDiw row.2.2) = splitDiw row.2.1 := by
      by_contra hne
      simp [herr hne] at htag
    obtain ⟨j, hj, hname⟩ := hok hmatch
    obtain rfl : i = j := by simpa [htag] using hj
    exact ⟨row, hrow, hname.symm, and_eq_iff_fields.2 hmatch⟩
  · intro d row hrow h
    have hmatch := and_eq_iff_fields.1 h
    obtain ⟨hmopc, hmzero, hvzero⟩ := opcodeRows_mask row hrow
    have hopc : (splitDiw d).opc = (splitDiw row.2.1).opc := by
      rw [← hmatch, Fields.and, hmopc]
      exact (and_allOnes_reg _).symm
    have hzero : (splitDiw d).zero = 0 := by
      rw [← hvzero, ← hmatch, Fields.and, hmzero]
      exact BitVec.and_allOnes.symm
    obtain ⟨i, hi, hname⟩ := (opcodeRows_fit row hrow _ hzero hopc).1 hmatch
    exact ⟨i, decode_eq_ok_iff.2 ⟨hzero, hi⟩, hname⟩

/-- Settles O23: the reserved bits come first, then the tag, then the fields under the mask of the tag's row. -/
theorem illegalWordsAreRejectedByName : Obligations.IllegalWordsAreRejectedByName := by
  refine ⟨fun d hbits => if_neg hbits, fun d hzero htag => ?_, fun d hzero row hrow hopc hne => ?_⟩
  · exact (if_pos hzero).trans (decodeByTag_reserved htag)
  · exact (if_pos hzero).trans ((opcodeRows_fit row hrow _ hzero hopc).2 (mt and_eq_iff_fields.2 hne))

end Sys2Proof

/-! ## What each stage function answers, in the terms of the statements, and what an instruction run alone does

One equation for each of the three stage functions of an instruction, and from them one for `exec`. -/

namespace Sys2Proof.Machine

/-- The register file once a result (or none) is bound for register `d` (R31, R138). -/
def regsWith (regs : Vector Word 32) (d : Reg) (res : Option Word) : Vector Word 32 :=
  match res with
  | none => regs
  | some v => if d = 0 then regs else regs.set d.toNat v d.isLt

@[simp] theorem regsWith_none (regs : Vector Word 32) (d : Reg) : regsWith regs d none = regs := rfl

@[simp] theorem regsWith_zero (regs : Vector Word 32) (res : Option Word) : regsWith regs 0#5 res = regs := by
  cases res <;> rfl

theorem writeReg_eq (s : State) (d : Reg) (v : Word) : writeReg s d v = { s with regs := regsWith s.regs d (some v) } := by
  unfold writeReg regsWith
  dsimp only
  split <;> rfl

theorem writeback_eq (s : State) (r : Record) : writeback s r = { s with regs := regsWith s.regs r.instr.dest r.result } := by
  unfold writeback
  split
  · rename_i h
    rw [h, regsWith_none]
  · rename_i v h
    rw [h, writeReg_eq]

theorem retire_eq (s : State) (r : Record) :
    retire s r = { s with
      regs := regsWith s.regs r.instr.dest r.result
      instructionsRetired := s.instructionsRetired + 1 } := by
  rw [retire, writeback_eq]

/-! Execute (R134) -/

/-- The log entries a record makes in the cycle that ends with the cycle count `cycle` (R252). -/
def reportsOf (r : Record) (cycle : Nat) : List Report :=
  (Claims.reportOf r.instr r.rtVal).toList.map fun k => { kind := k, pc := r.pc, cycle := cycle }

/-- The record with the result its opcode computes from its operands and the accumulators. -/
def executed (r : Record) (hi lo : Word) : Record :=
  { r with result := Claims.resultOf r.instr r.rsVal r.rtVal hi lo }

/-- The state that the execute stage of a record leaves (R134, R252). -/
def executeDone (s : State) (r : Record) : State :=
  { s with
    hi := (Claims.accumulatorsOf r.instr r.rsVal r.rtVal s.hi s.lo).1
    lo := (Claims.accumulatorsOf r.instr r.rsVal r.rtVal s.hi s.lo).2
    log := s.log ++ reportsOf r (s.cycles + 1) }

theorem boolWord_eq_oneIf : boolWord = Claims.oneIf := rfl

/-- The execute stage function: accumulators, report and result of the statements' tables, for a record without a result yet. -/
theorem execute_eq (s : State) {r : Record} (hr : r.result = none) :
    (stagesOf r.instr).execute s r = (executeDone s r, (executed r s.hi s.lo).result) := by
  obtain ⟨i, pc, a, b, res⟩ := r
  obtain rfl : res = none := hr
  cases i
  case div rs rt =>
    by_cases hb : b = 0#32
    · simp [stagesOf, divStages, divExecute, hb, executeDone, executed, Claims.resultOf, Claims.accumulatorsOf, reportsOf, Claims.reportOf,
        appendReport, setHiLo]
    · simp [stagesOf, divStages, divExecute, hb, executeDone, executed, Claims.resultOf, Claims.accumulatorsOf, reportsOf, Claims.reportOf,
        setHiLo, quotient_eq, remainder_eq]
  case mult rs rt =>
    simp [stagesOf, multStages, multExecute, executeDone, executed, Claims.resultOf, Claims.accumulatorsOf, Claims.productUpper, reportsOf,
      Claims.reportOf, setHiLo, productHi_eq, productLo_eq]
  case' sll rt rs imm => rcases hm : imm.msb
  case' srl rt rs imm => rcases hm : imm.msb
  case' sra rt rs imm => rcases hm : imm.msb
  all_goals
    simp [*, stagesOf, nopStages, addStages, subStages, andStages, orStages, sltStages, norStages, addiStages, andiStages, oriStages,
      sltiStages, computes, mfhiStages, mfloStages, sllStages, srlStages, sraStages, shiftExecute, sval_neg_iff,
      shiftDistance_of_nonneg, shiftLeft_min, shiftRight_min, shiftRightSigned_min, lwStages, swStages, addressExecute,
      effectiveAddress, word_uval_add, word_uval_sub, condLt_eq_slt, boolWord_eq_oneIf, jStages, jalStages, jrStages, beqStages,
      bneStages, bltStages, bgtStages, bleStages, bgeStages, executeDone, executed, Claims.resultOf, Claims.accumulatorsOf, reportsOf,
      Claims.reportOf, appendReport]

/-! Memory (R136) -/

/-- The cells once a record has left the memory stage: a store writes the cell its result names. -/
def cellsAfter (m : Memory) (r : Record) : Memory :=
  match r.instr with
  | .sw _ _ _ => memWrite m (r.result.getD 0).toNat r.rtVal
  | _ => m

/-- The record once it has left the memory stage: a load carries the cell its result named. -/
def loaded (m : Memory) (r : Record) : Record :=
  { r with result := match r.instr with
      | .lw _ _ _ => some (memRead m (r.result.getD 0).toNat)
      | _ => r.result }

theorem cellsAfter_of_not_sw {r : Record} (h : ∀ rt rs imm, r.instr ≠ .sw rt rs imm) (m : Memory) : cellsAfter m r = m := by
  unfold cellsAfter
  split
  · rename_i hi
    exact absurd hi (h _ _ _)
  · rfl

theorem loaded_of_not_lw {r : Record} (h : r.instr.isLw = false) (m : Memory) : loaded m r = r := by
  unfold loaded
  split
  · rename_i hi
    rw [hi] at h
    cases h
  · rfl

theorem memory_eq (s : State) {r : Record} (h : isLoadOrStore r.instr = true → r.result.isSome = true) :
    (stagesOf r.instr).memory s r = .next ({ s with dmem := cellsAfter s.dmem r }, (loaded s.dmem r).result) := by
  obtain ⟨i, pc, a, b, res⟩ := r
  cases i
  case lw rt rs imm =>
    obtain ⟨v, rfl⟩ := Option.isSome_iff_exists.1 (h rfl)
    rfl
  case sw rt rs imm =>
    obtain ⟨v, rfl⟩ := Option.isSome_iff_exists.1 (h rfl)
    rfl
  all_goals rfl

/-- Execute gives every load and store its address (R210). -/
theorem executed_isSome (r : Record) (hi lo : Word) (h : isLoadOrStore r.instr = true) :
    (executed r hi lo).result.isSome = true := by
  obtain ⟨i, pc, a, b, res⟩ := r
  cases i <;> simp_all [isLoadOrStore, executed, Claims.resultOf]

/-! Branch resolution (R221) -/

/-- The label that a record with operand values `a`, `b` is taken to. -/
def takenLabel (i : Instr) (a b : Word) : Option Word :=
  match i with
  | .j l => some l
  | .jal l => some l
  | .beq _ _ l => if a = b then some l else none
  | .bne _ _ l => if a = b then none else some l
  | .blt _ _ l => if a.slt b then some l else none
  | .bgt _ _ l => if b.slt a then some l else none
  | .ble _ _ l => if a.sle b then some l else none
  | .bge _ _ l => if b.sle a then some l else none
  | _ => none

/-- The value that decode links (R229). -/
def linkOf (r : Record) : Option Word := if isJal r.instr then some (r.pc + 4) else none

/-- `jr`, which arms the second bubble (R145). -/
def isJr : Instr → Bool
  | .jr _ => true
  | _ => false

theorem isJr_iff {i : Instr} : isJr i = true ↔ ∃ q, i = .jr q := by
  cases i <;> simp [isJr]

theorem isJal_iff {i : Instr} : isJal i = true ↔ ∃ l, i = .jal l := by
  cases i <;> simp [isJal]

/-- The state a branch resolution answers: the link written, the second bubble armed. -/
def resolved (s : State) (r : Record) : State :=
  { s with regs := regsWith s.regs 31 (linkOf r), fb := s.fb || isJr r.instr }

theorem condGt_eq_slt (a b : Word) : condGt a b = b.slt a := rfl

theorem condGe_eq_sle (a b : Word) : condGe a b = b.sle a := rfl

theorem resolved_of_no_link {s : State} {r : Record} (hjal : isJal r.instr = false) (hjr : isJr r.instr = false) :
    resolved s r = s := by
  simp [resolved, linkOf, hjal, hjr]

/-- A label jump or a branch that is taken answers what taking its label answers, and any other record its target or none. -/
theorem resolve_eq (s : State) (r : Record) :
    (stagesOf r.instr).resolve s r = match takenLabel r.instr r.rsVal r.rtVal with
      | some l => takeLabel l (resolved s r) r
      | none => .next (resolved s r, Claims.targetOf r.instr r.rsVal r.rtVal s.labels) := by
  obtain ⟨i, pc, a, b, res⟩ := r
  cases i
  case jal l =>
    simp [stagesOf, jalStages, jalResolve, takenLabel, resolved, linkOf, isJal, isJr, writeReg_eq, Config.linkReg, word_uval_add_four]
  case jr rs => simp [stagesOf, jrStages, jrResolve, takenLabel, resolved, linkOf, isJal, isJr, Claims.targetOf]
  case' beq rs rt l => by_cases hc : a = b
  case' bne rs rt l => by_cases hc : a = b
  case' blt rs rt l => rcases hc : a.slt b
  case' bgt rs rt l => rcases hc : b.slt a
  case' ble rs rt l => rcases hc : a.sle b
  case' bge rs rt l => rcases hc : b.sle a
  all_goals
    rw [resolved_of_no_link rfl rfl]
    simp [*, stagesOf, nopStages, addStages, subStages, andStages, orStages, sltStages, norStages, addiStages, andiStages, oriStages,
      sltiStages, computes, multStages, divStages, mfhiStages, mfloStages, sllStages, srlStages, sraStages, lwStages, swStages,
      jStages, beqStages, bneStages, bltStages, bgtStages, bleStages, bgeStages, branchResolve, condEq, condNe, condLt_eq_slt,
      condLe_eq_sle, condGt_eq_slt, condGe_eq_sle, takenLabel, Claims.targetOf]

theorem targetOf_of_taken {i : Instr} {a b l : Word} (h : takenLabel i a b = some l) (labels : LabelMap) :
    Claims.targetOf i a b labels = labelTarget labels l := by
  cases i <;> simp_all [takenLabel, Claims.targetOf]

theorem label?_of_taken {i : Instr} {a b l : Word} (h : takenLabel i a b = some l) : i.label? = some l := by
  cases i <;> simp_all [takenLabel, Instr.label?]

/-- Resolution answers once the label it takes, if any, has an entry. -/
theorem resolve_of_labels {s : State} {r : Record}
    (h : ∀ l ∈ takenLabel r.instr r.rsVal r.rtVal, (labelTarget s.labels l).isSome = true) :
    (stagesOf r.instr).resolve s r = .next (resolved s r, Claims.targetOf r.instr r.rsVal r.rtVal s.labels) := by
  rw [resolve_eq]
  split
  · rename_i l hl
    obtain ⟨t, ht⟩ := Option.isSome_iff_exists.1 (h l hl)
    have ht' : labelTarget (resolved s r).labels l = some t := ht
    simp [takeLabel, ht', targetOf_of_taken hl, ht]
  · rfl

theorem taken_of_wellFormed {i : Instr} {labels : LabelMap} (h : i.wellFormed labels = true) (a b : Word) :
    ∀ l ∈ takenLabel i a b, (labelTarget labels l).isSome = true := by
  intro l hl
  simpa [Instr.wellFormed, label?_of_taken hl] using h

theorem resolve_refused {s : State} {r : Record} {l : Word} (hl : takenLabel r.instr r.rsVal r.rtVal = some l)
    (hnone : labelTarget s.labels l = none) :
    (stagesOf r.instr).resolve s r = .refused (.unresolvedLabel (imemIndex r.pc).toNat) := by
  have hnone' : labelTarget (resolved s r).labels l = none := hnone
  rw [resolve_eq, hl]
  simp [takeLabel, hnone']

/-! A record alone: from the memory stage, from execute, from decode on. -/

/-- The state once a record has gone through the memory stage and retired. -/
def memoryFinished (s : State) (r : Record) : State :=
  { s with
    dmem := cellsAfter s.dmem r
    regs := regsWith s.regs r.instr.dest (loaded s.dmem r).result
    instructionsRetired := s.instructionsRetired + 1
    cycles := s.cycles + 2 }

theorem finishFromMemory_eq (s : State) {r : Record} (h : isLoadOrStore r.instr = true → r.result.isSome = true) :
    finishFromMemory (stagesOf r.instr) s r = .next (memoryFinished s r) := by
  rw [finishFromMemory, memory_eq s h, andThen_next, retire_eq]
  rfl

/-- The state once a record has gone through execute and retired. -/
def executeFinished (s : State) (r : Record) : State :=
  memoryFinished { executeDone s r with cycles := s.cycles + 1 } (executed r s.hi s.lo)

theorem finishFromExecute_eq (s : State) {r : Record} (h : r.result = none) :
    finishFromExecute (stagesOf r.instr) s r = .next (executeFinished s r) := by
  rw [finishFromExecute, execute_eq s h]
  exact finishFromMemory_eq _ (r := executed r s.hi s.lo) (executed_isSome r s.hi s.lo)

/-- The state that the decode of a record leaves: link and second bubble, `pc` at the target. -/
def decodeDone (s : State) (r : Record) : State :=
  { resolved s r with pc := (Claims.targetOf r.instr r.rsVal r.rtVal s.labels).getD s.pc }

/-- The record with its operands as the register file has them. -/
def readOperands (s : State) (r : Record) : Record :=
  { r with rsVal := readReg s r.instr.rs, rtVal := readReg s r.instr.rt }

/-- The state once a record has gone through decode and retired. -/
def decodeFinished (s : State) (r : Record) : State :=
  executeFinished { decodeDone s (readOperands s r) with fb := s.fb, cycles := s.cycles + 1 } (readOperands s r)

theorem finishFromDecode_eq {s : State} {r : Record} (h : r.result = none)
    (hl : ∀ l ∈ takenLabel r.instr (readReg s r.instr.rs) (readReg s r.instr.rt), (labelTarget s.labels l).isSome = true) :
    finishFromDecode (stagesOf r.instr) s r = .next (decodeFinished s r) := by
  have hres := resolve_of_labels (s := s) (r := readOperands s r) hl
  rw [finishFromDecode, capture_alone]
  change andThen ((stagesOf (readOperands s r).instr).resolve s (readOperands s r)) _ = _
  rw [hres, andThen_next]
  exact finishFromExecute_eq _ (r := readOperands s r) h

/-- The record of an instruction run alone, as decode leaves it. -/
def aloneRecord (i : Instr) (s : State) : Record :=
  { instr := i, pc := Claims.ownAddress s.pc, rsVal := readReg s i.rs, rtVal := readReg s i.rt, result := none }

/-- What an instruction run alone leaves. -/
def ranAlone (i : Instr) (s : State) : State :=
  let r := aloneRecord i s
  let x := executed r s.hi s.lo
  { Claims.passed i s with
    regs := regsWith (regsWith s.regs 31 (linkOf r)) i.dest (loaded s.dmem x).result
    hi := (Claims.accumulatorsOf i r.rsVal r.rtVal s.hi s.lo).1
    lo := (Claims.accumulatorsOf i r.rsVal r.rtVal s.hi s.lo).2
    log := s.log ++ reportsOf r (s.cycles + 4)
    dmem := cellsAfter s.dmem x
    pc := (Claims.targetOf i r.rsVal r.rtVal s.labels).getD (s.pc + 4) }

/-- The state two cycles after the fetch of an instruction run alone. -/
def fetchedAlone (i : Instr) (s : State) : State := countCycle (countCycle (countFetch i s))

theorem fetchedAlone_eq (i : Instr) (s : State) : fetchedAlone i s = { s with
    pc := s.pc + 4
    cycles := s.cycles + 2
    fetched := s.fetched + 1
    branchFetched := s.branchFetched + (if i.isControlFlow then 1 else 0) } := by
  rw [fetchedAlone, countFetch, word_uval_add_four]
  cases i.isControlFlow <;> rfl

theorem readOperands_fetched (i : Instr) (s : State) :
    readOperands (fetchedAlone i s) (fetchedRecord i s.pc) = aloneRecord i s := by
  rw [aloneRecord, Claims.ownAddress, ← fetchedRecord_pc i]
  rfl

theorem decodeFinished_fetched (i : Instr) (s : State) :
    decodeFinished (fetchedAlone i s) (fetchedRecord i s.pc) = ranAlone i s := by
  rw [decodeFinished, readOperands_fetched, fetchedAlone_eq]
  rfl

/-- An instruction whose taken label, if any, has an entry. -/
theorem exec_eq {i : Instr} {s : State}
    (h : ∀ l ∈ takenLabel i (readReg s i.rs) (readReg s i.rt), (labelTarget s.labels l).isSome = true) :
    exec i s = .next (ranAlone i s) := by
  rw [exec_eq_alone, ← decodeFinished_fetched]
  exact finishFromDecode_eq (s := fetchedAlone i s) (r := fetchedRecord i s.pc) rfl h

/-- The address of a fetch names the store index it was made at (R90, R114). -/
theorem imemIndex_fetchedRecord (i : Instr) (pc : Word) : imemIndex (fetchedRecord i pc).pc = imemIndex pc :=
  BitVec.eq_of_toNat_eq (imemIndex_word _ (imemIndex pc).isLt)

theorem imemIndex_ownAddress (pc : Word) : (imemIndex (Claims.ownAddress pc)).toNat = pc.toNat / 4 := by
  rw [Claims.ownAddress, ← fetchedRecord_pc .nop, imemIndex_fetchedRecord, toNat_imemIndex]

theorem exec_refused {i : Instr} {s : State} {l : Word} (hl : takenLabel i (readReg s i.rs) (readReg s i.rt) = some l)
    (hnone : labelTarget s.labels l = none) : exec i s = .refused (.unresolvedLabel (s.pc.toNat / 4)) := by
  have hres := resolve_refused (s := fetchedAlone i s) (r := aloneRecord i s) hl hnone
  rw [exec_eq_alone, alone, finishFromDecode, capture_alone]
  change andThen ((stagesOf i).resolve (fetchedAlone i s) (readOperands (fetchedAlone i s) (fetchedRecord i s.pc))) _ = _
  rw [readOperands_fetched]
  rw [← imemIndex_ownAddress]
  exact congrArg (andThen · _) hres

/-- Whatever `exec` answers, the label it took had an entry. -/
theorem labels_of_exec {i : Instr} {s t : State} (h : exec i s = .next t) :
    ∀ l ∈ takenLabel i (readReg s i.rs) (readReg s i.rt), (labelTarget s.labels l).isSome = true := by
  intro l hl
  by_contra hnone
  rw [exec_refused hl (by simpa using hnone)] at h
  cases h

/-- `exec` answers only the one state. -/
theorem eq_ranAlone_of_exec {i : Instr} {s t : State} (h : exec i s = .next t) : t = ranAlone i s := by
  rw [exec_eq (labels_of_exec h)] at h
  exact (next_inj h).symm

end Sys2Proof.Machine

/-! ## Every instruction run alone: result and frame -/

namespace Sys2Proof.Machine
open Claims (passed registerTarget)

theorem readReg_regsWith (s : State) (d q : Reg) (res : Option Word) :
    readReg { s with regs := regsWith s.regs d res } q = if q = d ∧ q ≠ 0 then res.getD (readReg s q) else readReg s q := by
  cases res with
  | none => simp only [regsWith_none, Option.getD_none, ite_self]
  | some v => rw [← writeReg_eq, readReg_writeReg, Option.getD_some]

/-! The instructions that write one register -/

/-- An instruction with a register target writes it, and reports at most. -/
theorem ranAlone_of_registerTarget {i : Instr} {d : Reg} (h : registerTarget i = some d) (s : State) :
    ranAlone i s = { passed i s with
      regs := regsWith s.regs d (loaded s.dmem (executed (aloneRecord i s) s.hi s.lo)).result
      log := s.log ++ reportsOf (aloneRecord i s) (s.cycles + 4) } := by
  cases i <;> simp only [registerTarget, Option.some.injEq, reduceCtorEq] at h <;> subst h <;> rfl

theorem takenLabel_of_registerTarget {i : Instr} {d : Reg} (h : registerTarget i = some d) (a b : Word) : takenLabel i a b = none := by
  cases i <;> simp_all [registerTarget, takenLabel]

/-- The whole effect of an instruction that writes a result and reports nothing. -/
theorem exec_writes {i : Instr} {d : Reg} {s : State} {v : Word} (ht : registerTarget i = some d)
    (hrep : Claims.reportOf i (readReg s i.rt) = none)
    (hv : (loaded s.dmem (executed (aloneRecord i s) s.hi s.lo)).result = some v) :
    exec i s = .next (writeReg (passed i s) d v) := by
  have hlog : reportsOf (aloneRecord i s) (s.cycles + 4) = [] := by simp [reportsOf, aloneRecord, hrep]
  rw [exec_eq (by simp [takenLabel_of_registerTarget ht]), ranAlone_of_registerTarget ht, hv, hlog, List.append_nil, writeReg_eq]
  rfl

/-- Settles O2: each computes its table's result in execute and writes it back. -/
theorem registerArithmeticGivesItsResult : Obligations.RegisterArithmeticGivesItsResult :=
  ⟨fun _ _ _ _ => exec_writes rfl rfl rfl, fun _ _ _ _ => exec_writes rfl rfl rfl, fun _ _ _ _ => exec_writes rfl rfl rfl,
    fun _ _ _ _ => exec_writes rfl rfl rfl, fun _ _ _ _ => exec_writes rfl rfl rfl, fun _ _ _ _ => exec_writes rfl rfl rfl⟩

/-- Settles O3: each computes its table's result in execute and writes it back. -/
theorem immediateArithmeticGivesItsResult : Obligations.ImmediateArithmeticGivesItsResult :=
  ⟨fun _ _ _ _ => exec_writes rfl rfl rfl, fun _ _ _ _ => exec_writes rfl rfl rfl, fun _ _ _ _ => exec_writes rfl rfl rfl,
    fun _ _ _ _ => exec_writes rfl rfl rfl⟩

/-- Settles O6: the result is the accumulator that execute finds. -/
theorem movesReadTheAccumulators : Obligations.MovesReadTheAccumulators :=
  fun _ _ => ⟨exec_writes rfl rfl rfl, exec_writes rfl rfl rfl⟩

/-- Settles O9: the memory stage reads the cell at the address that execute computed. -/
theorem loadWordReadsItsCell : Obligations.LoadWordReadsItsCell :=
  fun _ _ _ _ => exec_writes rfl rfl rfl

/-! Shifts: the amount is the whole immediate, and its sign decides (R200). -/

/-- Settles O7: with a non-negative amount nothing is reported and the table's result is the shifted word. -/
theorem shiftsGiveTheirResult : Obligations.ShiftsGiveTheirResult := by
  refine ⟨?_, ?_, ?_⟩ <;>
  · intro s rt rs imm h
    refine exec_writes rfl ?_ ?_
    · simp [Claims.reportOf, h]
    · simp [loaded, executed, aloneRecord, Claims.resultOf, Instr.rs, h]

/-- An instruction with a register target that carries no result and makes one report. -/
theorem exec_reports {i : Instr} {d : Reg} {s : State} {k : ReportKind} (ht : registerTarget i = some d)
    (hrep : Claims.reportOf i (readReg s i.rt) = some k)
    (hv : (loaded s.dmem (executed (aloneRecord i s) s.hi s.lo)).result = none) :
    exec i s = .next { passed i s with
      log := s.log ++ [{ kind := k, pc := Claims.ownAddress s.pc, cycle := s.cycles + 4 }] } := by
  have hlog : reportsOf (aloneRecord i s) (s.cycles + 4) = [{ kind := k, pc := Claims.ownAddress s.pc, cycle := s.cycles + 4 }] := by
    simp [reportsOf, aloneRecord, hrep]
  rw [exec_eq (by simp [takenLabel_of_registerTarget ht]), ranAlone_of_registerTarget ht, hv, hlog]
  rfl

/-- Settles O8: with a negative amount there is no result, and one report. -/
theorem negativeShiftsWriteNothingAndReport : Obligations.NegativeShiftsWriteNothingAndReport := by
  refine ⟨?_, ?_, ?_⟩ <;>
  · intro s rt rs imm h
    refine exec_reports rfl ?_ ?_
    · simp [Claims.reportOf, h]
    · simp [loaded, executed, aloneRecord, Claims.resultOf, h]

/-! Multiply and divide, the store, and `nop` -/

theorem targetOf_of_not_controlFlow {i : Instr} (h : i.isControlFlow = false) (a b : Word) (labels : LabelMap) :
    Claims.targetOf i a b labels = none := by
  cases i <;> simp_all [Instr.isControlFlow, Claims.targetOf]

theorem takenLabel_of_not_controlFlow {i : Instr} (h : i.isControlFlow = false) (a b : Word) : takenLabel i a b = none := by
  cases i <;> simp_all [Instr.isControlFlow, takenLabel]

theorem isJal_of_not_controlFlow {i : Instr} (h : i.isControlFlow = false) : isJal i = false := by
  cases i <;> simp_all [Instr.isControlFlow, isJal]

/-- An instruction that writes no register and is no control flow: its result, if any, is bound for register 0 and discarded (R86). -/
theorem exec_of_dest_zero {i : Instr} (hd : i.dest = 0) (hcf : i.isControlFlow = false) (s : State) :
    exec i s = .next { passed i s with
      hi := (Claims.accumulatorsOf i (readReg s i.rs) (readReg s i.rt) s.hi s.lo).1
      lo := (Claims.accumulatorsOf i (readReg s i.rs) (readReg s i.rt) s.hi s.lo).2
      log := s.log ++ reportsOf (aloneRecord i s) (s.cycles + 4)
      dmem := cellsAfter s.dmem (executed (aloneRecord i s) s.hi s.lo) } := by
  rw [exec_eq (by simp [takenLabel_of_not_controlFlow hcf])]
  simp [ranAlone, linkOf, aloneRecord, isJal_of_not_controlFlow hcf, targetOf_of_not_controlFlow hcf, hd, passed]

/-- Settles O4: the accumulators are the table's, and nothing is reported. -/
theorem multGivesSignedProduct : Obligations.MultGivesSignedProduct := by
  intro s rs rt
  rw [exec_of_dest_zero rfl rfl]
  simp [Claims.accumulatorsOf, reportsOf, aloneRecord, Claims.reportOf, cellsAfter, executed, Instr.rs, Instr.rt, passed]

/-- Settles O5: the divisor's being 0 decides between the quotient with its remainder and the report. -/
theorem divGivesQuotientAndRemainderOrReports : Obligations.DivGivesQuotientAndRemainderOrReports := by
  intro s rs rt
  rw [exec_of_dest_zero rfl rfl]
  refine ⟨fun h => ?_, fun h => ?_⟩
  · have h' : ¬ readReg s rt = 0#32 := h
    simp [Claims.accumulatorsOf, reportsOf, aloneRecord, Claims.reportOf, cellsAfter, executed, Instr.rs, Instr.rt, passed, h']
  · simp [Claims.accumulatorsOf, reportsOf, aloneRecord, Claims.reportOf, cellsAfter, executed, Instr.rs, Instr.rt, passed, h]

/-- The whole effect of a store. -/
theorem exec_sw (s : State) (rt rs : Reg) (imm : Word) :
    exec (.sw rt rs imm) s = .next { passed (.sw rt rs imm) s with
      dmem := memWrite s.dmem (readReg s rs + imm).toNat (readReg s rt) } := by
  rw [exec_of_dest_zero rfl rfl]
  simp [Claims.accumulatorsOf, reportsOf, aloneRecord, Claims.reportOf, cellsAfter, executed, Claims.resultOf, Instr.rs, Instr.rt, passed]

/-- Settles O10: the memory after the store is the one write, which keeps the canonical form and changes the one cell. -/
theorem storeWordChangesOneCell : Obligations.StoreWordChangesOneCell := by
  intro s rt rs imm hwf
  have haddr : effectiveAddress (readReg s rs) imm = readReg s rs + imm := word_uval_add _ _
  refine ⟨_, exec_sw s rt rs imm, storeWord_wf hwf _ _, fun a => ?_⟩
  rw [haddr]
  exact loadWord_storeWord hwf (readReg s rs + imm) a (readReg s rt)

/-- Settles O11: both have a whole effect, whatever the address. -/
theorem noDataAddressFaults : Obligations.NoDataAddressFaults :=
  fun s rt rs imm => ⟨⟨_, loadWordReadsItsCell s rt rs imm⟩, ⟨_, exec_sw s rt rs imm⟩⟩

/-- Settles O1: no stage of a `nop` does anything but pass. -/
theorem nopOnlyPasses : Obligations.NopOnlyPasses := by
  intro s
  rw [exec_of_dest_zero rfl rfl]
  simp [Claims.accumulatorsOf, reportsOf, aloneRecord, Claims.reportOf, cellsAfter, executed, passed]

/-! Control flow -/

/-- A control-flow instruction links at most, and sends `pc` to its target, if any (R231). -/
theorem ranAlone_of_controlFlow {i : Instr} (h : i.isControlFlow = true) (s : State) :
    ranAlone i s = { passed i s with
      regs := regsWith s.regs 31 (linkOf (aloneRecord i s))
      pc := (Claims.targetOf i (readReg s i.rs) (readReg s i.rt) s.labels).getD (s.pc + 4) } := by
  cases i <;> simp only [Instr.isControlFlow, Bool.false_eq_true] at h <;>
    simp [ranAlone, aloneRecord, Instr.dest, Claims.accumulatorsOf, reportsOf, Claims.reportOf, cellsAfter, executed, passed]

/-- Settles O13: the label taken has an entry, and `jal` links in decode. -/
theorem jumpsGoToTheirLabel : Obligations.JumpsGoToTheirLabel := by
  intro s l t hl
  constructor
  · rw [exec_eq (by simp [takenLabel, hl]), ranAlone_of_controlFlow rfl]
    simp [linkOf, aloneRecord, isJal, Claims.targetOf, hl, passed]
  · rw [exec_eq (by simp [takenLabel, hl]), ranAlone_of_controlFlow rfl, writeReg_eq]
    simp [linkOf, aloneRecord, isJal, Claims.targetOf, hl, passed]

/-- Settles O14: the target is the operand. -/
theorem jumpRegisterGoesToItsOperand : Obligations.JumpRegisterGoesToItsOperand := by
  intro s rs
  rw [exec_eq (by simp [takenLabel]), ranAlone_of_controlFlow rfl]
  simp [linkOf, aloneRecord, isJal, Claims.targetOf, passed, Instr.rs]

/-- What makes an instruction form a conditional branch on `c` (R85, R221). -/
structure IsBranchOn (mk : Reg → Reg → Word → Instr) (c : Word → Word → Bool) : Prop where
  rs : ∀ a b l, (mk a b l).rs = a
  rt : ∀ a b l, (mk a b l).rt = b
  controlFlow : ∀ a b l, (mk a b l).isControlFlow = true
  notJal : ∀ a b l, isJal (mk a b l) = false
  taken : ∀ a b l u v, takenLabel (mk a b l) u v = if c u v then some l else none
  target : ∀ a b l u v labels, Claims.targetOf (mk a b l) u v labels = if c u v then labelTarget labels l else none

section
variable {mk : Reg → Reg → Word → Instr} {c : Word → Word → Bool}

theorem IsBranchOn.gives (h : IsBranchOn mk c) : Claims.BranchGives mk c := by
  intro s rs rt l
  refine ⟨fun hc => ?_, fun t hc hl => ?_⟩
  · rw [exec_eq (by simp [h.taken, h.rs, h.rt, hc]), ranAlone_of_controlFlow (h.controlFlow rs rt l)]
    simp [linkOf, aloneRecord, h.notJal, h.target, h.rs, h.rt, hc, passed]
  · rw [exec_eq (by simp [h.taken, h.rs, h.rt, hc, hl]), ranAlone_of_controlFlow (h.controlFlow rs rt l)]
    simp [linkOf, aloneRecord, h.notJal, h.target, h.rs, h.rt, hc, hl, passed]

theorem IsBranchOn.refusesMissingLabel (h : IsBranchOn mk c) : Claims.BranchRefusesMissingLabel mk c := by
  intro s rs rt l hl hc
  exact exec_refused (l := l) (by rw [h.taken, h.rs, h.rt, if_pos hc]) hl

end

theorem isBranchOn_beq : IsBranchOn .beq (fun a b => a == b) := by
  constructor <;> simp [Instr.rs, Instr.rt, Instr.isControlFlow, isJal, takenLabel, Claims.targetOf]

theorem isBranchOn_bne : IsBranchOn .bne (fun a b => a != b) := by
  constructor <;> simp [Instr.rs, Instr.rt, Instr.isControlFlow, isJal, takenLabel, Claims.targetOf]

theorem isBranchOn_blt : IsBranchOn .blt (fun a b => a.slt b) := by constructor <;> intros <;> rfl

theorem isBranchOn_bgt : IsBranchOn .bgt (fun a b => b.slt a) := by constructor <;> intros <;> rfl

theorem isBranchOn_ble : IsBranchOn .ble (fun a b => a.sle b) := by constructor <;> intros <;> rfl

theorem isBranchOn_bge : IsBranchOn .bge (fun a b => b.sle a) := by constructor <;> intros <;> rfl

/-- Settles O12: one argument for all six branch forms. -/
theorem branchesGoToTheirLabel : Obligations.BranchesGoToTheirLabel :=
  ⟨isBranchOn_beq.gives, isBranchOn_bne.gives, isBranchOn_blt.gives, isBranchOn_bgt.gives, isBranchOn_ble.gives, isBranchOn_bge.gives⟩

/-- Settles O15: the label taken has no entry. -/
theorem missingLabelIsRefused : Obligations.MissingLabelIsRefused :=
  ⟨fun _ _ hl => ⟨exec_refused rfl hl, exec_refused rfl hl⟩, isBranchOn_beq.refusesMissingLabel, isBranchOn_bne.refusesMissingLabel,
    isBranchOn_blt.refusesMissingLabel, isBranchOn_bgt.refusesMissingLabel, isBranchOn_ble.refusesMissingLabel,
    isBranchOn_bge.refusesMissingLabel⟩

/-! Frames -/

/-- What an instruction run alone leaves of the flag, the slots, the status, the stall counter and the configuration: all of it. -/
theorem sameControl_ranAlone (i : Instr) (s : State) : Claims.SameControl s (ranAlone i s) :=
  ⟨rfl, rfl, rfl, rfl, rfl, rfl, rfl, rfl, rfl, rfl, rfl⟩

theorem reportOf_of_registerTarget {i : Instr} {d : Reg} (h : registerTarget i = some d) (b : Word) :
    Claims.reportOf i b = Claims.reportOf i 1 := by
  cases i <;> simp_all [registerTarget, Claims.reportOf]

/-- Settles O16: the register written is the target's alone, and only a shift by a negative amount reports. -/
theorem registerWritersChangeOneRegister : Obligations.RegisterWritersChangeOneRegister := by
  intro i d s t ht h
  obtain rfl := eq_ranAlone_of_exec h
  have hcontrol := sameControl_ranAlone i s
  rw [ranAlone_of_registerTarget ht] at hcontrol ⊢
  refine ⟨fun q hq => ?_, rfl, rfl, fun a => rfl, hcontrol, fun hrep => ?_⟩
  · exact (readReg_regsWith s d q _).trans (if_neg fun hd => hq hd.1)
  · simpa [reportsOf, aloneRecord, reportOf_of_registerTarget ht] using hrep

/-- Settles O17: a result bound for register 0 is discarded (R190). -/
theorem multiplyDivideChangeOnlyAccumulators : Obligations.MultiplyDivideChangeOnlyAccumulators := by
  intro i rs rt s t hi h
  have hform : i.dest = 0 ∧ i.isControlFlow = false ∧ i.rt = rt ∧ ∀ rt' rs' imm, i ≠ .sw rt' rs' imm := by
    obtain rfl | rfl := hi <;> simp [Instr.dest, Instr.isControlFlow, Instr.rt]
  obtain ⟨hd, hcf, hrt, hsw⟩ := hform
  obtain rfl := next_inj ((exec_of_dest_zero hd hcf s).symm.trans h)
  rw [cellsAfter_of_not_sw (r := executed (aloneRecord i s) s.hi s.lo) hsw]
  refine ⟨fun _ => rfl, fun _ => rfl, ⟨rfl, rfl, rfl, rfl, rfl, rfl, rfl, rfl, rfl, rfl, rfl⟩, fun hrep => ?_⟩
  simp [reportsOf, aloneRecord, hrt, hrep]

/-- Settles O18: what is left of the effect is the link. -/
theorem controlFlowChangesOnlyTheLink : Obligations.ControlFlowChangesOnlyTheLink := by
  intro i s t hi h
  obtain hcf | rfl := hi
  · obtain rfl := eq_ranAlone_of_exec h
    have hcontrol := sameControl_ranAlone i s
    rw [ranAlone_of_controlFlow hcf] at hcontrol ⊢
    refine ⟨fun q hq => ?_, rfl, rfl, rfl, fun a => rfl, hcontrol⟩
    refine (readReg_regsWith s 31 q _).trans ?_
    obtain hq | hjal := hq
    · exact if_neg fun h31 => hq h31.1
    · have hlink : linkOf (aloneRecord i s) = none := by cases i <;> simp_all [linkOf, aloneRecord, isJal]
      rw [hlink, Option.getD_none, ite_self]
  · obtain rfl := next_inj ((nopOnlyPasses s).symm.trans h)
    exact ⟨fun _ _ => rfl, rfl, rfl, rfl, fun _ => rfl, rfl, rfl, rfl, rfl, rfl, rfl, rfl, rfl, rfl, rfl, rfl⟩

end Sys2Proof.Machine

/-! ## The configuration, reset and the host (R42, R259, R280, R284) -/

namespace Sys2Proof.Machine

/-! The pre-run checks -/

theorem firstIllegal_of_legal {prog : List Diw} (h : ∀ d ∈ prog, ∃ i, decode d = .ok i) (n : Nat) : firstIllegal n prog = none := by
  induction prog generalizing n with
  | nil => rfl
  | cons d ds ih =>
    obtain ⟨⟨i, hi⟩, hds⟩ := List.forall_mem_cons.1 h
    simp [firstIllegal, hi, ih hds]

theorem firstIllegal_eq_some {prog : List Diw} {k : Nat} {d : Diw} {e : DecodeError} (hd : prog[k]? = some d)
    (he : decode d = .error e) (hbefore : ∀ k' d', k' < k → prog[k']? = some d' → ∃ i, decode d' = .ok i) (n : Nat) :
    firstIllegal n prog = some (n + k) := by
  induction prog generalizing k n with
  | nil => simp at hd
  | cons c ds ih =>
    cases k with
    | zero =>
      obtain rfl : c = d := by simpa using hd
      simp [firstIllegal, he]
    | succ k =>
      obtain ⟨i, hi⟩ := hbefore 0 c (Nat.succ_pos k) rfl
      have hrest := ih (k := k) (by simpa using hd) (fun k' d' hk' hd' => hbefore (k' + 1) d' (by omega) (by simpa using hd')) (n + 1)
      simp only [firstIllegal, hi, hrest]
      congr 1
      omega

theorem firstUnresolved_eq_some {labels : LabelMap} {prog : List Diw} {k : Nat} {d : Diw} {i : Instr} {l : Word}
    (hd : prog[k]? = some d) (hi : decode d = .ok i) (hl : i.label? = some l) (hnone : labelTarget labels l = none)
    (hlegal : ∀ d ∈ prog, ∃ j, decode d = .ok j)
    (hbefore : ∀ k' d' j l', k' < k → prog[k']? = some d' → decode d' = .ok j → j.label? = some l' →
      labelTarget labels l' ≠ none)
    (n : Nat) : firstUnresolved labels n prog = some (n + k) := by
  induction prog generalizing k n with
  | nil => simp at hd
  | cons c ds ih =>
    obtain ⟨⟨j, hj⟩, hds⟩ := List.forall_mem_cons.1 hlegal
    cases k with
    | zero =>
      obtain rfl : c = d := by simpa using hd
      have hbad : i.wellFormed labels = false := by simp [Instr.wellFormed, hl, hnone]
      simp [firstUnresolved, hi, hbad]
    | succ k =>
      have hgood : j.wellFormed labels = true := by
        cases hlab : j.label? with
        | none => simp [Instr.wellFormed, hlab]
        | some l' =>
          have := hbefore 0 c j l' (Nat.succ_pos k) rfl hj hlab
          simpa [Instr.wellFormed, hlab, Option.isSome_iff_ne_none] using this
      have hrest := ih (k := k) (by simpa using hd) hds
        (fun k' d' j' l' hk' hd' => hbefore (k' + 1) d' j' l' (by omega) (by simpa using hd')) (n + 1)
      simp only [firstUnresolved, hj, hgood, if_true, hrest]
      congr 1
      omega

theorem step_of_refusal {s : State} {r : Refusal} (h : preRunRefusal s.prog s.labels s.maxCycles = some r) : step s = .refused r := by
  simp [step, h]

/-- Settles O27: the checks come in the order of the clauses, each with the lowest index. -/
theorem refusedConfigurationsHaveNoStep : Obligations.RefusedConfigurationsHaveNoStep := by
  refine fun s => ⟨fun hsize => ?_, fun k d e hsize hd he hbefore => ?_, fun k d i l hsize hlegal hd hi hl hnone hbefore => ?_⟩
  all_goals apply step_of_refusal
  · have hbad : storeSizeOk s.prog.length = false := decide_eq_false (Nat.not_lt.2 hsize)
    rw [preRunRefusal, if_pos hbad]
  · have hok : storeSizeOk s.prog.length = true := decide_eq_true hsize
    simp [preRunRefusal, hok, firstIllegal_eq_some hd he hbefore]
  · have hok : storeSizeOk s.prog.length = true := decide_eq_true hsize
    simp [preRunRefusal, hok, firstIllegal_of_legal hlegal, firstUnresolved_eq_some hd hi hl hnone hlegal hbefore]

theorem preRunRefusal_eq_none {prog : List Diw} {labels : LabelMap} {mc : Nat} (h : preRunRefusal prog labels mc = none) :
    prog.length < 2 ^ 30 ∧ 0 < mc := by
  unfold preRunRefusal at h
  split at h
  · cases h
  rename_i hsize
  split at h
  · cases h
  split at h
  · cases h
  split at h
  · cases h
  rename_i hmc
  exact ⟨of_decide_eq_true (Bool.eq_true_of_not_eq_false hsize), Nat.pos_of_ne_zero hmc⟩

/-- Settles O28: the status decides, once the configuration is accepted. -/
theorem stoppedBlockMakesNoCycle : Obligations.StoppedBlockMakesNoCycle := by
  intro s hconf
  have hnone : preRunRefusal s.prog s.labels s.maxCycles = none := by simpa [configured] using hconf
  exact ⟨fun hdone => by simp [step, hnone, hdone], fun hlimit => by simp [step, hnone, hlimit]⟩

/-- Settles O30: a running block with an accepted configuration makes a cycle. -/
theorem liveStatesAlwaysStep : Obligations.LiveStatesAlwaysStep := by
  intro s hlive
  obtain ⟨t, hstep, -⟩ := hlive.exists_cycle
  exact ⟨t, hstep⟩

/-! Reset -/

theorem readReg_resetWith (prog : List Diw) (labels : LabelMap) (mc : Nat) (q : Reg) :
    readReg (State.resetWith prog labels mc) q = 0 := by
  by_cases hq : q = 0
  · simp [hq]
  · simp [readReg_of_ne hq, State.resetWith]

theorem resetWith_status_eq_running_iff (prog : List Diw) (labels : LabelMap) (mc : Nat) :
    (State.resetWith prog labels mc).status = .running ↔ prog ≠ [] := by
  by_cases h : prog = []
  · simp [State.resetWith, h]
  · simp [State.resetWith, h]

/-- Settles O25: each value is the one `resetWith` puts there. -/
theorem resetLeavesTheStatedValues : Obligations.ResetLeavesTheStatedValues := by
  rintro prog labels mc s rfl
  exact ⟨readReg_resetWith prog labels mc, rfl, rfl, rfl, rfl, rfl, rfl, rfl, rfl, rfl, rfl, rfl, fun _ => rfl,
    resetWith_status_eq_done_iff prog labels mc, resetWith_status_eq_running_iff prog labels mc, rfl, rfl, rfl⟩

/-- With something in the store, `pc` is not exhausted at reset. -/
theorem exhausted_resetWith (prog : List Diw) (labels : LabelMap) (mc : Nat) :
    exhausted (State.resetWith prog labels mc) = true ↔ prog = [] := by
  have hindex : (imemIndex (State.resetWith prog labels mc).pc).toNat = 0 := by
    simp [toNat_imemIndex, State.resetWith]
  rw [exhausted, decide_eq_true_iff, hindex, Nat.le_zero]
  exact List.length_eq_zero_iff

theorem slotAll_none (φ : Record → Prop) : slotAll none φ := fun _ h => nomatch h

theorem inv_resetWith {prog : List Diw} {labels : LabelMap} {mc : Nat} (h : preRunRefusal prog labels mc = none) :
    Inv (State.resetWith prog labels mc) where
  memory := rfl
  zeroRegister := by simp [ZeroRegisterOk, State.resetWith]
  fetchFlag := ⟨rfl, fun h => nomatch h⟩
  records := ⟨slotAll_none _, slotAll_none _, slotAll_none _, slotAll_none _, slotAll_none _⟩
  runtimeFields := ⟨slotAll_none _, slotAll_none _, slotAll_none _, slotAll_none _⟩
  operands := slotAll_none _
  counters := ⟨rfl, Nat.le_refl _, Nat.le_refl _⟩
  log := by simp [LogOk, State.resetWith]
  status := by
    refine ⟨fun hdone => ⟨?_, rfl⟩, fun hrun => ⟨?_, (preRunRefusal_eq_none h).2⟩⟩
    · exact (exhausted_resetWith prog labels mc).2 ((resetWith_status_eq_done_iff prog labels mc).1 hdone)
    · have hne := (resetWith_status_eq_running_iff prog labels mc).1 hrun
      rw [Bool.and_eq_false_iff, ← Bool.not_eq_true, exhausted_resetWith]
      exact .inl hne

theorem live_resetWith {prog : List Diw} {labels : LabelMap} {mc : Nat} (h : preRunRefusal prog labels mc = none) (hne : prog ≠ []) :
    Live (State.resetWith prog labels mc) :=
  ⟨Option.isNone_iff_eq_none.2 h, (resetWith_status_eq_running_iff prog labels mc).2 hne, inv_resetWith h⟩

/-- Settles O26: every slot is empty and every counter 0, so only the status needs the checks. -/
theorem resetMeetsTheInvariants : Obligations.ResetMeetsTheInvariants :=
  fun _ _ _ h => ⟨inv_resetWith h, live_resetWith h⟩

/-! The two figures (R42) -/

theorem ratio_eq_none_iff (a b : Nat) : ratio a b = none ↔ b = 0 := by
  unfold ratio
  split <;> simp_all

theorem mul_of_ratio {a b : Nat} {q : Rat} (h : ratio a b = some q) : q * b = a := by
  unfold ratio at h
  split at h
  · cases h
  · rename_i hb
    obtain rfl := Option.some.inj h
    exact div_mul_cancel₀ _ (Nat.cast_ne_zero.2 hb)

/-- Settles O60: both figures are one exact quotient. -/
theorem figuresAreExactOrAbsent : Obligations.FiguresAreExactOrAbsent :=
  fun _ => ⟨ratio_eq_none_iff _ _, fun _ => mul_of_ratio, ratio_eq_none_iff _ _, fun _ => mul_of_ratio⟩

/-! The host's placement of a word -/

theorem decodeTableWord_encode (i : Instr) : decodeTableWord 64 (encode i).toNat = some i := by
  have hword : BitVec.ofNat 64 ((encode i).toNat % 2 ^ 64) = encode i := by
    rw [Nat.mod_eq_of_lt (encode i).isLt, BitVec.ofNat_toNat, BitVec.setWidth_eq]
  rw [decodeTableWord, if_pos (Nat.le_refl _), hword, decodeOfEncodeIsTheInstruction i]
  rfl

theorem labelTarget_append_self (m : LabelMap) (l t : Word) : (labelTarget (m ++ [(l, t)]) l).isSome = true := by
  induction m with
  | nil => simp [labelTarget]
  | cons e m ih =>
    obtain ⟨k, u⟩ := e
    by_cases hk : k = l
    · simp [labelTarget, hk]
    · simpa [labelTarget, hk] using ih

/-- The placed word's label has an entry. -/
theorem wellFormed_withLabelOf {d : Diw} {i : Instr} (h : decode d = .ok i) (labels : LabelMap) (n : Nat) :
    i.wellFormed (withLabelOf labels n d) = true := by
  rw [withLabelOf, h]
  cases hl : i.label? with
  | none => simp [Instr.wellFormed, hl]
  | some l =>
    simp only [Instr.wellFormed, hl]
    split
    · assumption
    · exact labelTarget_append_self _ _ _

theorem drained_iff {s : State} : drained s = true ↔
    s.slotIF = none ∧ s.slotID = none ∧ s.slotEX = none ∧ s.slotMEM = none ∧ s.slotWB = none := by
  simp [drained, and_assoc]

/-- The state that the fetch of an instruction leaves (R112 to R116). -/
def fetchDone (i : Instr) (s : State) : State :=
  { countFetch i s with slotIF := some (fetchedRecord i s.pc), fb := i.isControlFlow }

theorem fetchSlot_of_word {s : State} {d : Diw} {i : Instr} (hfb : s.fb = false) (hd : fetchedWord s = some d) (hi : decode d = .ok i) :
    fetchSlot s = .next (fetchDone i s) := by
  simp only [fetchSlot, hfb, hd, hi]
  rfl

/-- A cycle of the empty pipeline is a fetch. -/
theorem cycle_of_drained {s : State} {d : Diw} {i : Instr} (hdr : drained s = true) (hfb : s.fb = false)
    (hd : fetchedWord s = some d) (hi : decode d = .ok i) : cycle s = .next (endCycle (fetchDone i s)) := by
  cases s
  obtain ⟨rfl, rfl, rfl, rfl, rfl⟩ := drained_iff.1 hdr
  exact congrArg (andThen · fun u => .next (endCycle u)) (fetchSlot_of_word hfb hd hi)

/-- Settles O59: the store of the placed state is the one word, its configuration is accepted, and its pipeline is empty. -/
theorem placedWordIsFetchedNext : Obligations.PlacedWordIsFetchedNext := by
  intro i
  have hword : BitVec.ofNat 64 ((encode i).toNat % 2 ^ 64) = encode i := by
    rw [Nat.mod_eq_of_lt (encode i).isLt, BitVec.ofNat_toNat, BitVec.setWidth_eq]
  have hi := decodeOfEncodeIsTheInstruction i
  have hplaced : State.reset.withFetchWord 64 (encode i).toNat = { State.reset with
      prog := [encode i]
      labels := withLabelOf [] 1 (encode i)
      status := .running } := by
    rw [State.withFetchWord, hword]
    rfl
  have hwf := wellFormed_withLabelOf hi [] 1
  have hconf : configured (State.reset.withFetchWord 64 (encode i).toNat) = true := by
    rw [hplaced]
    simp [configured, preRunRefusal, storeSizeOk, Config.storeLimit, firstIllegal, firstUnresolved, hi, hwf, State.reset,
      State.resetWith, Config.resetMaxCycles]
  have hcycle := cycle_of_drained (s := State.reset.withFetchWord 64 (encode i).toNat) (d := encode i)
    (by rw [hplaced]; rfl) (by rw [hplaced]; rfl) (by rw [hplaced]; simp [fetchedWord, toNat_imemIndex, State.reset, State.resetWith]) hi
  refine ⟨_, (step_running hconf (by rw [hplaced])).trans hcycle, ?_, decodeTableWord_encode i⟩
  rw [endCycle_slotIF, hplaced]
  rfl

end Sys2Proof.Machine

/-! ## What one cycle does to the counters, the log, the slots and the register file: the inversions that the invariants rest on -/

namespace Sys2Proof.Machine

/-- The execute stage function reads everything of a record but its result, for what it does to the state. -/
theorem execute_fst (s : State) (r : Record) : ((stagesOf r.instr).execute s r).1 = executeDone s r := by
  have hsame : ((stagesOf r.instr).execute s r).1 = ((stagesOf r.instr).execute s { r with result := none }).1 := by
    obtain ⟨i, pc, a, b, res⟩ := r
    cases i
    case div rs rt =>
      simp only [stagesOf, divStages, divExecute]
      split <;> rfl
    case' sll rt rs imm => simp only [stagesOf, sllStages, shiftExecute]; split
    case' srl rt rs imm => simp only [stagesOf, srlStages, shiftExecute]; split
    case' sra rt rs imm => simp only [stagesOf, sraStages, shiftExecute]; split
    all_goals rfl
  rw [hsame]
  exact congrArg Prod.fst (execute_eq s (r := { r with result := none }) rfl)

/-- Execute makes at most one report. -/
theorem reportsOf_cases (r : Record) (cycle : Nat) :
    reportsOf r cycle = [] ∨ ∃ e : Report, reportsOf r cycle = [e] ∧ e.cycle = cycle := by
  cases h : Claims.reportOf r.instr r.rtVal with
  | none => exact .inl (by simp [reportsOf, h])
  | some k => exact .inr ⟨_, by simp [reportsOf, h]; rfl, rfl⟩

theorem executeSlot_log (s : State) (x0 m0 m1 w0 : Slot) :
    (executeSlot s x0 m0 m1 w0).1.log = s.log ∨
      ∃ e : Report, (executeSlot s x0 m0 m1 w0).1.log = s.log ++ [e] ∧ e.cycle = s.cycles + 1 := by
  cases x0 with
  | none => exact .inl rfl
  | some r =>
    have hlog : (executeSlot s (some r) m0 m1 w0).1.log = s.log ++ reportsOf (forwardInto m0 m1 w0 r) (s.cycles + 1) :=
      congrArg State.log (execute_fst s (forwardInto m0 m1 w0 r))
    rw [hlog]
    obtain e | ⟨e, he, hcycle⟩ := reportsOf_cases (forwardInto m0 m1 w0 r) (s.cycles + 1)
    · exact .inl (by rw [e, List.append_nil])
    · exact .inr ⟨e, by rw [he], hcycle⟩

/-- Stalled or not, a cycle writes back, reads memory and executes in the same way (R132, R153). -/
theorem cycle_back {s t : State} (h : cycle s = .next t) :
    ∃ u, memorySlot (commitSlot s s.slotWB) s.slotMEM = .next (u, t.slotWB) ∧ t.dmem = u.dmem ∧
      t.slotMEM = (executeSlot u s.slotEX s.slotMEM t.slotWB s.slotWB).2 ∧
      t.hi = (executeSlot u s.slotEX s.slotMEM t.slotWB s.slotWB).1.hi ∧
      t.lo = (executeSlot u s.slotEX s.slotMEM t.slotWB s.slotWB).1.lo ∧
      t.log = (executeSlot u s.slotEX s.slotMEM t.slotWB s.slotWB).1.log ∧
      t.instructionsRetired = s.instructionsRetired + (if s.slotWB = none then 0 else 1) ∧ t.cycles = s.cycles + 1 := by
  obtain ⟨u, m1, hm, ⟨-, rfl⟩ | ⟨-, y, z, hd, hf, rfl⟩⟩ := cycle_fields h
  · rw [endCycle_touches]
    exact ⟨u, hm, rfl, rfl, rfl, rfl, rfl, rfl, rfl⟩
  · rw [endCycle_touches, decode_fetch_touches hd hf]
    exact ⟨u, hm, rfl, rfl, rfl, rfl, rfl, rfl, rfl⟩

/-- Settles O38: both moves and the count happen ahead of the stall decision. -/
theorem backEndDrainsAndRetiresEveryCycle : Obligations.BackEndDrainsAndRetiresEveryCycle := by
  intro s t hlive hstep
  have hc := cycle_of_step hlive.running hstep
  obtain ⟨hMEM, hWB⟩ := cycle_keys hc
  obtain ⟨-, -, -, -, -, -, -, hret, -⟩ := cycle_back hc
  exact ⟨hMEM, hWB, hret⟩

theorem cycle_log {s t : State} (h : cycle s = .next t) :
    t.log = s.log ∨ ∃ e : Report, t.log = s.log ++ [e] ∧ e.cycle = s.cycles + 1 := by
  obtain ⟨u, hm, -, -, -, -, hlog, -⟩ := cycle_back h
  have hu : u.log = s.log ∧ u.cycles = s.cycles := by
    rw [(memorySlot_touches hm).1, commitSlot_touches]
    exact ⟨rfl, rfl⟩
  rw [hlog, ← hu.1, ← hu.2]
  exact executeSlot_log u s.slotEX s.slotMEM t.slotWB s.slotWB

/-! The advance: decode, then fetch -/

theorem eq_resolved_of_resolve {s : State} {r : Record} {p : State × Option Word} (h : (stagesOf r.instr).resolve s r = .next p) :
    p = (resolved s r, Claims.targetOf r.instr r.rsVal r.rtVal s.labels) := by
  rw [resolve_eq] at h
  split at h
  · rename_i l hl
    unfold takeLabel at h
    split at h
    · rename_i t ht
      have ht' : labelTarget s.labels l = some t := ht
      rw [targetOf_of_taken hl, ht']
      exact (next_inj h).symm
    · cases h
  · exact (next_inj h).symm

/-- The state that the decode of a slot leaves, from the record with its operands. -/
def slotDecoded (s : State) (e : Slot) : State :=
  match e with
  | none => { s with slotEX := none }
  | some r => { decodeDone s r with slotEX := some r }

theorem decodeSlot_eq_slotDecoded {s t : State} {d x1 m1 w0 : Slot} (h : decodeSlot s d x1 m1 w0 = .next t) :
    t = slotDecoded s (d.map (capture s x1 m1 w0)) := by
  obtain ⟨rfl, rfl⟩ | ⟨r, p, rfl, hres, rfl⟩ := decodeSlot_cases h
  · rfl
  · rw [eq_resolved_of_resolve (r := capture s x1 m1 w0 r) hres]
    rfl

/-- Where the fetch reads the store after the decode of `e` (R143). -/
def redirectedPc (s : State) (e : Slot) : Word := (e.bind fun r => Claims.targetOf r.instr r.rsVal r.rtVal s.labels).getD s.pc

/-- A bubble is armed when the fetch comes: before the cycle, or by a `jr` in decode (R144, R145). -/
def bubbleArmed (s : State) : Bool := s.fb || slotHas s.slotID fun r => isJr r.instr

/-- `t` is `s` with a bubble inserted at `p` and consumed (R144). -/
def InsertsBubbleAt (s t : State) (p : Word) : Prop :=
  t.slotIF = none ∧ t.fb = false ∧ t.pc = p ∧ t.fetched = s.fetched ∧ t.branchFetched = s.branchFetched

theorem slotDecoded_fields (s : State) (e : Slot) :
    (slotDecoded s e).regs = regsWith s.regs 31 (e.bind linkOf) ∧ (slotDecoded s e).pc = redirectedPc s e ∧
      (slotDecoded s e).fb = (s.fb || slotHas e fun r => isJr r.instr) ∧ (slotDecoded s e).slotEX = e := by
  cases e with
  | none => exact ⟨rfl, rfl, (Bool.or_false _).symm, rfl⟩
  | some r => exact ⟨rfl, rfl, rfl, rfl⟩

theorem fetchSlot_answers {s t : State} (h : fetchSlot s = .next t) :
    (s.fb = true ∧ InsertsBubbleAt s t s.pc) ∨ (s.fb = false ∧ Claims.FetchesAt s t s.pc) := by
  obtain ⟨hfb, rfl⟩ | ⟨hfb, hw, rfl⟩ | ⟨d, i, hfb, hw, hi, rfl⟩ := fetchSlot_cases h
  · exact .inl ⟨hfb, rfl, rfl, rfl, rfl, rfl⟩
  all_goals
    rw [fetchedWord, toNat_imemIndex] at hw
    refine .inr ⟨hfb, ?_⟩
    rw [Claims.FetchesAt, hw]
  · exact ⟨rfl, rfl, hfb, rfl, rfl⟩
  · refine ⟨i, hi, ?_, word_uval_add_four s.pc, rfl, rfl, ?_⟩
    · rw [Claims.ownAddress, ← fetchedRecord_pc i]
      rfl
    · rw [countFetch_branchFetched]
      split <;> rfl

theorem capture_congr {s t : State} (h : s.regs = t.regs) (x1 m1 w0 : Slot) : capture s x1 m1 w0 = capture t x1 m1 w0 := by
  funext r
  simp [capture, operand, readReg_congr h]

theorem insertsBubbleAt_endCycle {s t : State} {p : Word} : InsertsBubbleAt s (endCycle t) p ↔ InsertsBubbleAt s t p := by
  simp [InsertsBubbleAt]

theorem fetchesAt_endCycle {s t : State} {p : Word} : Claims.FetchesAt s (endCycle t) p ↔ Claims.FetchesAt s t p := by
  simp [Claims.FetchesAt]

/-- Decode and fetch, from the state `v` that the back of the pipeline leaves. -/
theorem decode_fetch_answers {v y z : State} {x1 m1 w0 : Slot} (hd : decodeSlot v v.slotID x1 m1 w0 = .next y)
    (hf : fetchSlot { y with slotID := y.slotIF } = .next z) :
    z.slotID = v.slotIF ∧ z.slotEX = v.slotID.map (capture v x1 m1 w0) ∧ z.regs = regsWith v.regs 31 (z.slotEX.bind linkOf) ∧
      ((bubbleArmed v = true ∧ InsertsBubbleAt v z (redirectedPc v z.slotEX)) ∨
        (bubbleArmed v = false ∧ Claims.FetchesAt v z (redirectedPc v z.slotEX))) := by
  have hz := decode_fetch_touches hd hf
  have hy := (decodeSlot_touches hd).1
  obtain ⟨hregs, hpc, hfb, hEX⟩ := slotDecoded_fields v (v.slotID.map (capture v x1 m1 w0))
  rw [← decodeSlot_eq_slotDecoded hd] at hregs hpc hfb hEX
  have hzEX : z.slotEX = v.slotID.map (capture v x1 m1 w0) := by rw [hz]; exact hEX
  have harmed : y.fb = bubbleArmed v := by
    rw [hfb, bubbleArmed]
    cases v.slotID <;> rfl
  refine ⟨by rw [hz], hzEX, ?_, ?_⟩
  · rw [hzEX, hz]
    exact hregs
  · rw [hzEX, ← hpc, ← harmed]
    have hans := fetchSlot_answers hf
    simp only [InsertsBubbleAt, Claims.FetchesAt] at hans ⊢
    rw [hy] at hans
    exact hans

/-- A cycle without a stall (R142): IF moves into ID, the record in ID captures its operands and moves into EX, and the fetch reads the
store where decode left `pc`, or inserts the bubble that is armed. -/
theorem cycle_advance {s t : State} (h : cycle s = .next t) (hno : Claims.NoStall s) :
    t.slotID = s.slotIF ∧ t.slotEX = s.slotID.map (capture (commitSlot s s.slotWB) t.slotMEM t.slotWB s.slotWB) ∧
      t.regs = regsWith (commitSlot s s.slotWB).regs 31 (t.slotEX.bind linkOf) ∧ t.stalls = s.stalls ∧
      ((bubbleArmed s = true ∧ InsertsBubbleAt s t (redirectedPc s t.slotEX)) ∨
        (bubbleArmed s = false ∧ Claims.FetchesAt s t (redirectedPc s t.slotEX))) := by
  obtain ⟨u, m1, -, ⟨hstall, -⟩ | ⟨-, y, z, hd, hf, rfl⟩⟩ := cycle_fields h
  · exact absurd (hno.symm.trans hstall) Bool.false_ne_true
  have hz := decode_fetch_touches hd hf
  obtain ⟨hID, hEX, hregs, hfetch⟩ := decode_fetch_answers hd hf
  rw [insertsBubbleAt_endCycle, fetchesAt_endCycle, endCycle_slotID, endCycle_slotEX, endCycle_slotMEM, endCycle_slotWB,
    endCycle_regs, endCycle_stalls]
  have hMEM : z.slotMEM = (executeSlot u s.slotEX s.slotMEM m1 s.slotWB).2 := by rw [hz]
  have hWB : z.slotWB = m1 := by rw [hz]
  refine ⟨hID, ?_, hregs, by rw [hz], hfetch⟩
  rw [hEX, hMEM, hWB, capture_congr (t := commitSlot s s.slotWB)]
  rfl

end Sys2Proof.Machine

/-! ## The invariants: every step keeps each of them -/

namespace Sys2Proof.Machine

/-- A step either makes a cycle or changes nothing, so what every cycle keeps, every step keeps. -/
theorem step_keeps {P : State → Prop} {s t : State} (h : step s = .next t) (hP : P s) (hcycle : cycle s = .next t → P t) : P t := by
  obtain ⟨-, ⟨-, hc⟩ | ⟨-, rfl⟩⟩ := step_cases h
  · exact hcycle hc
  · exact hP

/-- A record with the same identity in another slot. -/
theorem exists_of_key_eq {p q : Slot} (h : Claims.key p = Claims.key q) {r : Record} (hr : r ∈ p) :
    ∃ r' ∈ q, r'.instr = r.instr ∧ r'.pc = r.pc := by
  obtain rfl : p = some r := hr
  cases q with
  | none => cases h
  | some r' =>
    obtain ⟨hi, hpc⟩ := Prod.mk.inj (Option.some.inj h)
    exact ⟨r', rfl, hi.symm, hpc.symm⟩

theorem slotAll_some {r : Record} {φ : Record → Prop} (h : φ r) : slotAll (some r) φ := by
  intro r' hr'
  obtain rfl := Option.some.inj hr'
  exact h

/-- Every cycle is a stall or an advance. -/
theorem stall_or_advance (s : State) : loadUseStall s.slotID s.slotEX s.slotMEM = true ∨ Claims.NoStall s := by
  unfold Claims.NoStall
  cases loadUseStall s.slotID s.slotEX s.slotMEM <;> simp

theorem cycle_regs_of_stall {s t : State} (h : cycle s = .next t) (hstall : loadUseStall s.slotID s.slotEX s.slotMEM = true) :
    t.regs = (commitSlot s s.slotWB).regs := by
  obtain ⟨u, m1, -, ⟨-, rfl⟩ | ⟨hno, -⟩⟩ := cycle_fields h
  · simp
  · simp [hstall] at hno

/-! The data memory and the stored register 0 -/

theorem regsWith_stored_zero (regs : Vector Word 32) (d : Reg) (res : Option Word) : (regsWith regs d res)[0] = regs[0] := by
  cases res with
  | none => rfl
  | some v =>
    rw [regsWith]
    split
    · rfl
    · rename_i hd
      exact Vector.getElem_set_ne _ _ fun h0 => hd (BitVec.eq_of_toNat_eq h0)

theorem commitSlot_regs (s : State) (w0 : Slot) :
    (commitSlot s w0).regs = match w0 with
      | none => s.regs
      | some r => regsWith s.regs r.instr.dest r.result := by
  cases w0 with
  | none => rfl
  | some r => exact congrArg State.regs (retire_eq s r)

theorem commitSlot_stored_zero (s : State) (w0 : Slot) : (commitSlot s w0).regs[0] = s.regs[0] := by
  rw [commitSlot_regs]
  cases w0 with
  | none => rfl
  | some r => exact regsWith_stored_zero s.regs r.instr.dest r.result

theorem memorySlot_keeps_wf {s t : State} {m0 m1 : Slot} (h : memorySlot s m0 = .next (t, m1)) (hwf : MemoryOk s) : MemoryOk t := by
  obtain ⟨-, rfl, -⟩ | ⟨_, _, _, _, _, -, -, -, rfl, -⟩ | ⟨_, _, _, _, _, -, -, -, rfl, -⟩ | ⟨_, -, -, -, rfl, -⟩ := memorySlot_cases h
  · exact hwf
  · exact hwf
  · exact storeWord_wf hwf _ _
  · exact hwf

theorem cycle_keeps_memory {s t : State} (h : cycle s = .next t) (hwf : MemoryOk s) : MemoryOk t := by
  obtain ⟨u, hm, hdmem⟩ := cycle_memory h
  have hu := memorySlot_keeps_wf hm (by rw [MemoryOk, commitSlot_dmem]; exact hwf)
  rw [MemoryOk, hdmem]
  exact hu

theorem cycle_keeps_zeroRegister {s t : State} (h : cycle s = .next t) (h0 : ZeroRegisterOk s) : ZeroRegisterOk t := by
  rw [ZeroRegisterOk, ← h0, ← commitSlot_stored_zero s s.slotWB]
  obtain hstall | hno := stall_or_advance s
  · rw [cycle_regs_of_stall h hstall]
  · obtain ⟨-, -, hregs, -⟩ := cycle_advance h hno
    rw [hregs, regsWith_stored_zero]

/-- Settles O50: only the memory stage writes memory, and no register write reaches the stored register 0. -/
theorem stepKeepsMemoryCanonicalAndRegisterZero : Obligations.StepKeepsMemoryCanonicalAndRegisterZero :=
  fun _ _ hwf h0 hstep =>
    ⟨step_keeps hstep hwf fun hc => cycle_keeps_memory hc hwf, step_keeps hstep h0 fun hc => cycle_keeps_zeroRegister hc h0⟩

/-! The fetch-bubble flag and the records -/

/-- What a fetch leaves in IF, armed or not. -/
theorem slotIF_of_fetchesAt {s t : State} {p : Word} (h : Claims.FetchesAt s t p) :
    (InsertsBubbleAt s t p ∧ s.prog[p.toNat / 4]? = none) ∨
      ∃ d i, s.prog[p.toNat / 4]? = some d ∧ decode d = .ok i ∧ t.slotIF = some (fetchedRecord i p) ∧ t.pc = p + 4 ∧
        t.fb = i.isControlFlow ∧ t.fetched = s.fetched + 1 ∧
        t.branchFetched = s.branchFetched + (if i.isControlFlow then 1 else 0) := by
  unfold Claims.FetchesAt at h
  split at h
  · rename_i hw
    obtain ⟨hIF, hpc, hfb, hfetched, hbranch⟩ := h
    exact .inl ⟨⟨hIF, hfb, hpc, hfetched, hbranch⟩, hw⟩
  · rename_i d hw
    obtain ⟨i, hi, hIF, hpc, hfb, hfetched, hbranch⟩ := h
    refine .inr ⟨d, i, hw, hi, ?_, hpc, hfb, hfetched, hbranch⟩
    rw [hIF, Claims.ownAddress, ← fetchedRecord_pc i]
    rfl

/-- The front of the pipeline after a cycle without a stall: a bubble, or the instruction fetched. -/
theorem cycle_fetch {s t : State} (h : cycle s = .next t) (hno : Claims.NoStall s) :
    InsertsBubbleAt s t (redirectedPc s t.slotEX) ∨
      (bubbleArmed s = false ∧ ∃ d i, s.prog[(redirectedPc s t.slotEX).toNat / 4]? = some d ∧ decode d = .ok i ∧
        t.slotIF = some (fetchedRecord i (redirectedPc s t.slotEX)) ∧ t.pc = redirectedPc s t.slotEX + 4 ∧
        t.fb = i.isControlFlow ∧ t.fetched = s.fetched + 1 ∧
        t.branchFetched = s.branchFetched + (if i.isControlFlow then 1 else 0)) := by
  obtain ⟨-, -, -, -, ⟨-, hb⟩ | ⟨harmed, hf⟩⟩ := cycle_advance h hno
  · exact .inl hb
  · obtain ⟨hb, -⟩ | hf := slotIF_of_fetchesAt hf
    · exact .inl hb
    · exact .inr ⟨harmed, hf⟩

theorem cycle_keeps_fetchFlag {s t : State} (h : cycle s = .next t) (hok : FetchFlagOk s) : FetchFlagOk t := by
  obtain ⟨hflag, hbehind⟩ := hok
  obtain hstall | hno := stall_or_advance s
  · obtain ⟨-, -, hID, hIF, -, hfb, -⟩ := cycle_stalled h hstall
    rw [FetchFlagOk, hID, hIF, hfb]
    exact ⟨hflag, hbehind⟩
  · obtain ⟨hID, -⟩ := cycle_advance h hno
    obtain ⟨hIF, hfb, -⟩ | ⟨harmed, d, i, -, -, hIF, -, hfb, -⟩ := cycle_fetch h hno
    · rw [FetchFlagOk, hIF, hfb]
      exact ⟨rfl, fun _ => rfl⟩
    · refine ⟨by rw [hfb, hIF]; rfl, fun hcf => ?_⟩
      rw [hID, ← hflag] at hcf
      simp [bubbleArmed, hcf] at harmed

theorem fromStore_of_key_eq {prog : List Diw} {p q : Slot} (h : Claims.key p = Claims.key q) (hq : slotAll q (fromStore prog)) :
    slotAll p (fromStore prog) := by
  intro r hr
  obtain ⟨r', hr', hi, hpc⟩ := exists_of_key_eq h hr
  have hs := hq r' hr'
  rwa [fromStore, hi, hpc] at hs

theorem fromStore_fetchedRecord {prog : List Diw} {d : Diw} {i : Instr} {p : Word} (hd : prog[p.toNat / 4]? = some d)
    (hi : decode d = .ok i) : fromStore prog (fetchedRecord i p) := by
  have hindex := imemIndex_fetchedRecord i p
  refine ⟨by rw [hindex]; rfl, ?_⟩
  rw [hindex, toNat_imemIndex, hd]
  exact congrArg Except.toOption hi

theorem cycle_keeps_records {s t : State} (h : cycle s = .next t) (hok : RecordsOk s) : RecordsOk t := by
  obtain ⟨hIF, hID, hEX, hMEM, hWB⟩ := hok
  obtain ⟨hkMEM, hkWB⟩ := cycle_keys h
  have hprog : t.prog = s.prog := (configuration_eq_iff.1 (cycle_configuration h)).1
  rw [RecordsOk, hprog]
  have hback := And.intro (fromStore_of_key_eq hkMEM hEX) (fromStore_of_key_eq hkWB hMEM)
  obtain hstall | hno := stall_or_advance s
  · obtain ⟨htEX, -, htID, htIF, -⟩ := cycle_stalled h hstall
    rw [htIF, htID, htEX]
    exact ⟨hIF, hID, slotAll_none _, hback⟩
  · obtain ⟨htID, hkEX⟩ := cycle_advances h hno
    refine ⟨?_, htID ▸ hIF, fromStore_of_key_eq hkEX hID, hback⟩
    obtain ⟨htIF, -⟩ | ⟨-, d, i, hd, hi, htIF, -⟩ := cycle_fetch h hno
    · rw [htIF]
      exact slotAll_none _
    · rw [htIF]
      exact slotAll_some (fromStore_fetchedRecord hd hi)

/-- Execute leaves every load and store with its address, whatever the record carries (R210). -/
theorem execute_isSome {i : Instr} (h : isLoadOrStore i = true) (s : State) (r : Record) :
    ((stagesOf i).execute s r).2.isSome = true := by
  cases i <;> simp_all [isLoadOrStore, stagesOf, lwStages, swStages, addressExecute]

theorem executeSlot_isSome (s : State) (x0 m0 m1 w0 : Slot) :
    slotAll (executeSlot s x0 m0 m1 w0).2 fun r => isLoadOrStore r.instr = true → r.result.isSome = true := by
  cases x0 with
  | none => exact slotAll_none _
  | some r => exact slotAll_some fun hls => execute_isSome hls s (forwardInto m0 m1 w0 r)

theorem cycle_keeps_runtimeFields {s t : State} (h : cycle s = .next t) (hok : RuntimeFieldsOk s) : RuntimeFieldsOk t := by
  obtain ⟨hIF, hID, hEX, hMEM⟩ := hok
  obtain ⟨u, -, -, htMEM, -⟩ := cycle_back h
  have hback : slotAll t.slotMEM fun r => isLoadOrStore r.instr = true → r.result.isSome = true := by
    rw [htMEM]
    exact executeSlot_isSome _ _ _ _ _
  obtain hstall | hno := stall_or_advance s
  · obtain ⟨htEX, -, htID, htIF, -⟩ := cycle_stalled h hstall
    rw [RuntimeFieldsOk, htIF, htID, htEX]
    exact ⟨hIF, hID, slotAll_none _, hback⟩
  · obtain ⟨htID, htEX, -⟩ := cycle_advance h hno
    refine ⟨?_, htID ▸ hIF, ?_, hback⟩
    · obtain ⟨htIF, -⟩ | ⟨-, d, i, -, -, htIF, -⟩ := cycle_fetch h hno
      · rw [htIF]
        exact slotAll_none _
      · rw [htIF]
        exact slotAll_some ⟨rfl, rfl, rfl⟩
    · rw [htEX]
      intro e he
      obtain ⟨r, hr, rfl⟩ := Option.map_eq_some_iff.1 he
      exact (hID r hr).2.2

/-- Settles O51: each of the three is kept by a stall, which holds the front, and by an advance, which fetches. -/
theorem stepKeepsTheFetchFlagAndTheRecords : Obligations.StepKeepsTheFetchFlagAndTheRecords :=
  fun _ _ hstep => ⟨fun h => step_keeps hstep h fun hc => cycle_keeps_fetchFlag hc h,
    fun h => step_keeps hstep h fun hc => cycle_keeps_records hc h,
    fun h => step_keeps hstep h fun hc => cycle_keeps_runtimeFields hc h⟩

/-! Operand coherence -/

/-- Decode-stage forwarding (R119) as one lookup: the nearest producer, else the register. -/
theorem operand_eq (s : State) (x1 m1 w0 : Slot) (q : Reg) :
    operand s x1 m1 w0 q = ((producerOf x1 q).or ((producerOf m1 q).or (producerOf w0 q))).getD (readReg s q) := by
  unfold operand
  split
  · rename_i hq
    subst hq
    simp only [producerOf_zero]
    rfl
  · cases producerOf x1 q <;> cases producerOf m1 q <;> cases producerOf w0 q <;> rfl

theorem readReg_of_regs_eq {s t : State} {d : Reg} {res : Option Word} (h : t.regs = regsWith s.regs d res) (q : Reg) :
    readReg t q = if q = d ∧ q ≠ 0 then res.getD (readReg s q) else readReg s q := by
  rw [← readReg_regsWith]
  exact readReg_congr h q

/-- `jal` has no register field (R85), so what it links is no operand of its own. -/
theorem fields_of_isJal {i : Instr} (h : isJal i = true) : i.rs = 0 ∧ i.rt = 0 := by
  cases i <;> simp_all [isJal, Instr.rs, Instr.rt]

/-- A register field of a record, and the value captured for it. -/
def IsOperand (e : Record) (q : Reg) (v : Word) : Prop := (q = e.instr.rs ∧ v = e.rsVal) ∨ (q = e.instr.rt ∧ v = e.rtVal)

/-- The register that a decoding record reads is not the one it links. -/
theorem readReg_of_linked {s t : State} {e : Record} {q : Reg} {v : Word} (h : t.regs = regsWith s.regs 31 (linkOf e))
    (hq : IsOperand e q v) : readReg t q = readReg s q := by
  rw [readReg_of_regs_eq h]
  by_cases hjal : isJal e.instr = true
  · obtain ⟨hrs, hrt⟩ := fields_of_isJal hjal
    have hq0 : q = 0 := hq.elim (fun h => h.1.trans hrs) fun h => h.1.trans hrt
    exact if_neg fun h31 => h31.2 hq0
  · simp [linkOf, hjal]

/-- What a record that decodes has captured, read off the state after the cycle (R118, R119). -/
theorem cycle_captures {s t : State} {e : Record} {q : Reg} {v : Word} (h : cycle s = .next t) (hno : Claims.NoStall s)
    (he : t.slotEX = some e) (hq : IsOperand e q v) :
    v = ((producerOf t.slotMEM q).or (producerOf t.slotWB q)).getD ((producerOf s.slotWB q).getD (readReg s q)) ∧
      readReg t q = (producerOf s.slotWB q).getD (readReg s q) := by
  obtain ⟨-, hEX, hregs, -⟩ := cycle_advance h hno
  obtain ⟨r, -, rfl⟩ := Option.map_eq_some_iff.1 (hEX.symm.trans he)
  have hv : v = operand (commitSlot s s.slotWB) t.slotMEM t.slotWB s.slotWB q := by
    obtain ⟨rfl, rfl⟩ | ⟨rfl, rfl⟩ := hq <;> rfl
  rw [he] at hregs
  refine ⟨?_, (readReg_of_linked hregs hq).trans (readReg_commitSlot s s.slotWB q)⟩
  rw [hv, operand_eq, readReg_commitSlot]
  cases producerOf t.slotMEM q <;> cases producerOf t.slotWB q <;> cases producerOf s.slotWB q <;> rfl

theorem dest_of_isLw {i : Instr} (h : i.isLw = true) : i.dest = i.rt := by
  cases i <;> simp_all [Instr.isLw, Instr.dest, Instr.rt]

theorem loadMatches_some_iff {d p : Record} : loadMatches d (some p) = true ↔
    p.instr.isLw = true ∧ p.instr.rt ≠ 0 ∧ (p.instr.rt = d.instr.rs ∨ p.instr.rt = d.instr.rt) := by
  simp [loadMatches, and_assoc]

/-- The load just ahead of a record that decodes is none of its operands (R133): with it in EX, the record would have stalled. -/
theorem cycle_no_load_ahead {s t : State} {e : Record} {q : Reg} {v : Word} (h : cycle s = .next t) (hno : Claims.NoStall s)
    (he : t.slotEX = some e) (hq : IsOperand e q v) (hq0 : q ≠ 0) :
    slotAll t.slotMEM fun p => p.instr.isLw = true → p.instr.dest ≠ q := by
  intro p hp hlw hdest
  obtain ⟨hMEM, -⟩ := cycle_keys h
  obtain ⟨-, hEX⟩ := cycle_advances h hno
  obtain ⟨x, hx, hxi, -⟩ := exists_of_key_eq hMEM hp
  obtain ⟨d, hd, hdi, -⟩ := exists_of_key_eq hEX he
  rw [← hxi] at hlw hdest
  rw [dest_of_isLw hlw] at hdest
  have hmatch : loadMatches d s.slotEX = true := by
    rw [hx, loadMatches_some_iff, hdi, hdest]
    exact ⟨hlw, hq0, hq.imp And.left And.left⟩
  have hstall : loadUseStall s.slotID s.slotEX s.slotMEM = true := by
    rw [hd, loadUseStall, hmatch, Bool.true_or]
  exact absurd (hno.symm.trans hstall) Bool.false_ne_true

theorem cycle_keeps_operands {s t : State} (h : cycle s = .next t) : OperandsOk t := by
  obtain hstall | hno := stall_or_advance s
  · rw [OperandsOk, (cycle_stalled h hstall).1]
    exact slotAll_none _
  · intro e he
    have hcaptured : ∀ {q : Reg} {v : Word}, IsOperand e q v → capturedOk t q v := by
      intro q v hq
      obtain ⟨hv, hread⟩ := cycle_captures h hno he hq
      refine ⟨?_, cycle_no_load_ahead h hno he hq⟩
      rw [hv, operand_eq, hread]
      rfl
    exact ⟨hcaptured (.inl ⟨rfl, rfl⟩), hcaptured (.inr ⟨rfl, rfl⟩)⟩

/-- Settles O52: a stall leaves a bubble in EX, and an advance captures by the same order of producers. -/
theorem stepKeepsTheOperandsCoherent : Obligations.StepKeepsTheOperandsCoherent :=
  fun _ _ hok hstep => step_keeps hstep hok cycle_keeps_operands

/-! Counters, log and status -/

theorem occupancy_of_key_eq {p q : Slot} (h : Claims.key p = Claims.key q) : occupancy p = occupancy q := by
  cases p <;> cases q <;> simp_all [Claims.key, occupancy]

theorem occupancy_eq_ite (p : Slot) : occupancy p = if p = none then 0 else 1 := by
  cases p <;> rfl

/-- What a cycle adds to the counters (R301). -/
theorem cycle_counts {s t : State} (h : cycle s = .next t) :
    (t.stalls = s.stalls + 1 ∧ t.fetched = s.fetched ∧ t.branchFetched = s.branchFetched) ∨
    (t.stalls = s.stalls ∧ t.fetched = s.fetched + occupancy t.slotIF ∧ s.branchFetched ≤ t.branchFetched ∧
      t.branchFetched ≤ s.branchFetched + occupancy t.slotIF) := by
  obtain hstall | hno := stall_or_advance s
  · obtain ⟨-, hstalls, -, -, -, -, hfetched, hbranch⟩ := cycle_stalled h hstall
    exact .inl ⟨hstalls, hfetched, hbranch⟩
  · obtain ⟨-, -, -, hstalls, -⟩ := cycle_advance h hno
    refine .inr ⟨hstalls, ?_⟩
    obtain ⟨hIF, -, -, hfetched, hbranch⟩ | ⟨-, d, i, -, -, hIF, -, -, hfetched, hbranch⟩ := cycle_fetch h hno
    · rw [hIF, hfetched, hbranch]
      exact ⟨rfl, Nat.le_refl _, Nat.le_refl _⟩
    · rw [hIF, hfetched, hbranch]
      refine ⟨rfl, Nat.le_add_right _ _, Nat.add_le_add_left ?_ _⟩
      split
      · exact Nat.le_refl _
      · exact Nat.zero_le _

theorem cycle_keeps_counters {s t : State} (h : cycle s = .next t) (hok : CountersOk s) : CountersOk t := by
  obtain ⟨hall, hcf, hcycles⟩ := hok
  obtain ⟨-, -, -, -, -, -, -, hret, htcycles⟩ := cycle_back h
  obtain ⟨hkMEM, hkWB⟩ := cycle_keys h
  rw [← occupancy_eq_ite] at hret
  have hMEM := occupancy_of_key_eq hkMEM
  have hWB := occupancy_of_key_eq hkWB
  have hone : occupancy t.slotIF ≤ 1 := by
    rw [occupancy_eq_ite]
    split <;> omega
  obtain hstall | hno := stall_or_advance s
  · obtain ⟨htEX, hstalls, htID, htIF, -, -, hfetched, hbranch⟩ := cycle_stalled h hstall
    have hEX : occupancy t.slotEX = 0 := by rw [htEX]; rfl
    rw [CountersOk, htID, htIF]
    exact ⟨by omega, by omega, by omega⟩
  · obtain ⟨htID, hkEX⟩ := cycle_advances h hno
    have hEX := occupancy_of_key_eq hkEX
    obtain ⟨hno', -⟩ | ⟨hstalls, hfetched, -, hbranch⟩ := cycle_counts h
    · obtain ⟨-, -, -, hstalls, -⟩ := cycle_advance h hno
      omega
    · rw [CountersOk, htID]
      exact ⟨by omega, by omega, by omega⟩

theorem cycle_keeps_log {s t : State} (h : cycle s = .next t) (hok : LogOk s) : LogOk t := by
  obtain ⟨hsorted, hpast⟩ := hok
  obtain ⟨-, -, -, -, -, -, -, -, hcycles⟩ := cycle_back h
  obtain hlog | ⟨e, hlog, he⟩ := cycle_log h
  · rw [LogOk, hlog, hcycles]
    exact ⟨hsorted, fun a ha => ⟨(hpast a ha).1, Nat.le_succ_of_le (hpast a ha).2⟩⟩
  · rw [LogOk, hlog, hcycles, List.pairwise_append]
    refine ⟨⟨hsorted, List.pairwise_singleton _ _, fun a ha b hb => ?_⟩, fun a ha => ?_⟩
    · obtain rfl := List.mem_singleton.1 hb
      have := (hpast a ha).2
      omega
    · obtain ha | hb := List.mem_append.1 ha
      · exact ⟨(hpast a ha).1, Nat.le_succ_of_le (hpast a ha).2⟩
      · obtain rfl := List.mem_singleton.1 hb
        omega

/-- The end of a cycle of a running block, for the status (R147, R148). -/
theorem cycle_status {s t : State} (h : cycle s = .next t) (hrun : s.status = .running) :
    (t.status = .done ∧ exhausted t = true ∧ drained t = true) ∨
    ((exhausted t && drained t) = false ∧ t.status = .cycleLimit ∧ t.maxCycles ≤ t.cycles) ∨
    ((exhausted t && drained t) = false ∧ t.status = .running ∧ t.cycles < t.maxCycles) := by
  obtain ⟨z, hz, rfl⟩ := cycle_eq_endCycle h
  rw [exhausted_endCycle, drained_endCycle]
  obtain ⟨he, hd, e⟩ | ⟨hno, hlim, e⟩ | ⟨hno, hlim, e⟩ := endCycle_cases z
  · exact .inl ⟨by rw [e], he, hd⟩
  · exact .inr (.inl ⟨hno, by rw [e], by rw [e]; exact hlim⟩)
  · exact .inr (.inr ⟨hno, by rw [e]; exact hz.trans hrun, by rw [e]; exact hlim⟩)

theorem cycle_keeps_status {s t : State} (h : cycle s = .next t) (hrun : s.status = .running) : StatusOk t := by
  obtain ⟨hst, he, hd⟩ | ⟨-, hst, -⟩ | ⟨hno, hst, hlim⟩ := cycle_status h hrun
  · simp [StatusOk, hst, he, hd]
  · simp [StatusOk, hst]
  · simp [StatusOk, hst, hlim, hno]

/-- Settles O53: a cycle adds one to the cycles, at most one fetch or stall and at most one report, and then tests for the end. -/
theorem stepKeepsCountersLogAndStatus : Obligations.StepKeepsCountersLogAndStatus := by
  intro s t hcounters hlog hstatus hstep
  obtain ⟨-, ⟨hrun, hc⟩ | ⟨-, rfl⟩⟩ := step_cases hstep
  · exact ⟨cycle_keeps_counters hc hcounters, cycle_keeps_log hc hlog, cycle_keeps_status hc hrun⟩
  · exact ⟨hcounters, hlog, hstatus⟩

/-! All of them -/

theorem cycle_keeps_inv {s t : State} (h : cycle s = .next t) (hrun : s.status = .running) (hinv : Inv s) : Inv t where
  memory := cycle_keeps_memory h hinv.memory
  zeroRegister := cycle_keeps_zeroRegister h hinv.zeroRegister
  fetchFlag := cycle_keeps_fetchFlag h hinv.fetchFlag
  records := cycle_keeps_records h hinv.records
  runtimeFields := cycle_keeps_runtimeFields h hinv.runtimeFields
  operands := cycle_keeps_operands h
  counters := cycle_keeps_counters h hinv.counters
  log := cycle_keeps_log h hinv.log
  status := cycle_keeps_status h hrun

theorem configured_congr {s t : State} (h : configuration t = configuration s) : configured t = configured s := by
  obtain ⟨hprog, hlabels, hmax⟩ := configuration_eq_iff.1 h
  rw [configured, hprog, hlabels, hmax, configured]

theorem Live.next {s t : State} (h : Live s) (hc : cycle s = .next t) (hrun : t.status = .running) : Live t :=
  ⟨(configured_congr (cycle_configuration hc)).trans h.accepted, hrun, cycle_keeps_inv hc h.running h.inv⟩

/-- Settles O54: a running block makes a cycle, which keeps every invariant. -/
theorem stepKeepsTheInvariants : Obligations.StepKeepsTheInvariants := by
  intro s t hlive hstep
  have hc := cycle_of_step hlive.running hstep
  exact ⟨cycle_keeps_inv hc hlive.running hlive.inv, hlive.next hc⟩

end Sys2Proof.Machine

/-! ## One cycle from a live state: stalls, execute, decode, fetch and the end test -/

namespace Sys2Proof.Machine

/-! The stall decision -/

theorem isLw_iff {i : Instr} : i.isLw = true ↔ ∃ rt rs imm, i = .lw rt rs imm := by
  cases i <;> simp [Instr.isLw]

theorem loadMatches_iff {d : Record} {p : Slot} : loadMatches d p = true ↔
    ∃ r rt rs imm, p = some r ∧ r.instr = .lw rt rs imm ∧ rt ≠ 0 ∧ (rt = d.instr.rs ∨ rt = d.instr.rt) := by
  cases p with
  | none => simp [loadMatches]
  | some r =>
    rw [loadMatches_some_iff, isLw_iff]
    constructor
    · rintro ⟨⟨rt, rs, imm, hi⟩, hmatch⟩
      rw [hi] at hmatch
      exact ⟨r, rt, rs, imm, rfl, hi, hmatch⟩
    · rintro ⟨_, rt, rs, imm, hr, hi, hmatch⟩
      obtain rfl := Option.some.inj hr
      rw [hi]
      exact ⟨⟨rt, rs, imm, rfl⟩, hmatch⟩

/-- Settles O35: the decision asks both slots the one question. -/
theorem stallDecisionComparesBothFields : Obligations.StallDecisionComparesBothFields := by
  intro d x0 m0
  cases d with
  | none => simp [loadUseStall]
  | some e =>
    rw [loadUseStall, Bool.or_eq_true, loadMatches_iff, loadMatches_iff]
    constructor
    · rintro (⟨p, rt, rs, imm, hp, h⟩ | ⟨p, rt, rs, imm, hp, h⟩)
      · exact ⟨e, p, rt, rs, imm, rfl, .inl hp, h⟩
      · exact ⟨e, p, rt, rs, imm, rfl, .inr hp, h⟩
    · rintro ⟨_, p, rt, rs, imm, he, hp, h⟩
      obtain rfl := Option.some.inj he
      exact hp.imp (fun hp => ⟨p, rt, rs, imm, hp, h⟩) fun hp => ⟨p, rt, rs, imm, hp, h⟩

theorem loadMatches_of_key_eq {d : Record} {p q : Slot} (h : Claims.key p = Claims.key q) : loadMatches d p = loadMatches d q := by
  cases p with
  | none =>
    cases q with
    | none => rfl
    | some r => cases h
  | some r =>
    obtain ⟨r', rfl, hi, -⟩ := exists_of_key_eq h rfl
    simp [loadMatches, hi]

/-- Settles O36: the load stalls its user from EX and then from MEM, and behind it come the two bubbles of those stalls. -/
theorem adjacentLoadUseStallsTwice : Obligations.AdjacentLoadUseStallsTwice := by
  intro s t u d p hlive hID hEX hmatch hstep hrun hstep'
  have hc := cycle_of_step hlive.running hstep
  have hc' := cycle_of_step hrun hstep'
  have hstall : loadUseStall s.slotID s.slotEX s.slotMEM = true := by rw [hID, hEX, loadUseStall, hmatch, Bool.true_or]
  obtain ⟨htEX, htstalls, htID, -⟩ := cycle_stalled hc hstall
  have htMEM : loadMatches d t.slotMEM = true := by rw [loadMatches_of_key_eq (cycle_keys hc).1, hEX, hmatch]
  have hstall' : loadUseStall t.slotID t.slotEX t.slotMEM = true := by rw [htID, hID, loadUseStall, htMEM, Bool.or_true]
  obtain ⟨huEX, hustalls, huID, -⟩ := cycle_stalled hc' hstall'
  have huMEM : loadMatches d u.slotMEM = false := by rw [loadMatches_of_key_eq (cycle_keys hc').1, htEX, loadMatches]
  have huID : u.slotID = some d := huID.trans (htID.trans hID)
  refine ⟨htstalls, by rw [hustalls, htstalls], huID, ?_⟩
  rw [huID, huEX, loadUseStall, huMEM, loadMatches, Bool.or_false]

/-! Execute -/

/-- A producer in MEM that is no load carries its result through the memory stage (R126, R136). -/
theorem slotResult_of_producer {s t : State} {m0 m1 : Slot} {q : Reg} {v : Word} (h : memorySlot s m0 = .next (t, m1))
    (hp : producerOf m0 q = some v) (hlw : slotAll m0 fun p => p.instr.isLw = true → p.instr.dest ≠ q) : slotResult m1 = some v := by
  cases m0 with
  | none => cases hp
  | some p =>
    have hdest : p.instr.dest = q ∧ p.result = some v := by
      rw [producerOf] at hp
      split at hp
      · exact ⟨‹_ ∧ _›.2, hp⟩
      · cases hp
    obtain ⟨h0, -⟩ | ⟨r, rt, rs, imm, a, hr, hi, -⟩ | ⟨r, _, _, _, _, hr, -, -, -, rfl⟩ | ⟨r, hr, -, -, -, rfl⟩ := memorySlot_cases h
    · cases h0
    · obtain rfl := Option.some.inj hr
      exact absurd hdest.1 (hlw p rfl (by rw [hi]; rfl))
    all_goals
      obtain rfl := Option.some.inj hr
      exact hdest.2

theorem slotResult_of_producerOf {p : Slot} {q : Reg} {v : Word} (h : producerOf p q = some v) : slotResult p = some v := by
  cases p with
  | none => cases h
  | some r =>
    rw [producerOf] at h
    split at h
    · exact h
    · cases h

/-- Execute-stage forwarding of a coherent operand gives the value it has (R129). -/
theorem forwardValue_of_capturedOk {s u : State} {m1 : Slot} {q : Reg} {v : Word}
    (hm : memorySlot (commitSlot s s.slotWB) s.slotMEM = .next (u, m1)) (hok : capturedOk s q v) :
    forwardValue (exTag s.slotMEM s.slotWB q) m1 s.slotWB v = v := by
  obtain ⟨hv, hlw⟩ := hok
  rw [operand_eq, producerOf, Option.none_or] at hv
  cases hM : producerOf s.slotMEM q with
  | some w =>
    have hq : q ≠ 0 := by
      rintro rfl
      simp only [producerOf_zero, reduceCtorEq] at hM
    have hres := slotResult_of_producer hm hM (hlw hq)
    have hvw : v = w := by rw [hv, hM]; rfl
    simp [exTag, hM, forwardValue, hres, hvw]
  | none =>
    cases hW : producerOf s.slotWB q with
    | some w =>
      have hvw : v = w := by rw [hv, hM, hW]; rfl
      simp [exTag, hM, hW, forwardValue, slotResult_of_producerOf hW, hvw]
    | none => simp [exTag, hM, hW, forwardValue]

theorem forwardInto_of_operandsOk {s u : State} {m1 : Slot} {r : Record}
    (hm : memorySlot (commitSlot s s.slotWB) s.slotMEM = .next (u, m1)) (hok : OperandsOk s) (hr : s.slotEX = some r) :
    forwardInto s.slotMEM m1 s.slotWB r = r := by
  obtain ⟨hrs, hrt⟩ := hok r hr
  rw [forwardInto, forwardValue_of_capturedOk hm hrs, forwardValue_of_capturedOk hm hrt]

/-- Settles O41: each captured operand is what its nearest producer gives, and no load is in between. -/
theorem executeForwardingNeverChangesAnOperand : Obligations.ExecuteForwardingNeverChangesAnOperand :=
  fun _ _ _ _ hlive hr hm => forwardInto_of_operandsOk hm hlive.inv.operands hr

/-- Writeback and memory leave what execute reads. -/
theorem memory_commit_fields {s u : State} {m1 : Slot} (hm : memorySlot (commitSlot s s.slotWB) s.slotMEM = .next (u, m1)) :
    u.hi = s.hi ∧ u.lo = s.lo ∧ u.log = s.log ∧ u.cycles = s.cycles := by
  rw [(memorySlot_touches hm).1, commitSlot_touches]
  exact ⟨rfl, rfl, rfl, rfl⟩

/-- The execute stage of a cycle from a live state runs on the record as it stands in EX. -/
theorem Live.executeSlot_eq {s u : State} {m1 : Slot} {r : Record} (hlive : Live s)
    (hm : memorySlot (commitSlot s s.slotWB) s.slotMEM = .next (u, m1)) (hr : s.slotEX = some r) :
    executeSlot u s.slotEX s.slotMEM m1 s.slotWB = (executeDone u r, some (executed r u.hi u.lo)) := by
  obtain ⟨-, -, hres, -⟩ := hlive.inv.runtimeFields
  have hex := execute_eq u (hres r hr)
  rw [hr, executeSlot]
  simp only [forwardInto_of_operandsOk hm hlive.inv.operands hr, hex]
  rfl

theorem Live.cycle_execute {s t : State} {r : Record} (hlive : Live s) (h : cycle s = .next t) (hr : s.slotEX = some r) :
    t.slotMEM = some (executed r s.hi s.lo) ∧ (t.hi, t.lo) = Claims.accumulatorsOf r.instr r.rsVal r.rtVal s.hi s.lo ∧
      t.log = s.log ++ reportsOf r t.cycles := by
  obtain ⟨u, hm, -, hMEM, hhi, hlo, hlog, -, hcycles⟩ := cycle_back h
  obtain ⟨huhi, hulo, hulog, hucycles⟩ := memory_commit_fields hm
  rw [hlive.executeSlot_eq hm hr] at hMEM hhi hlo hlog
  rw [hMEM, hhi, hlo, hlog, executeDone, huhi, hulo, hulog, hucycles, hcycles]
  exact ⟨rfl, rfl, rfl⟩

/-- A bubble in EX executes nothing (R134). -/
theorem cycle_execute_bubble {s t : State} (h : cycle s = .next t) (hEX : s.slotEX = none) :
    t.slotMEM = none ∧ t.hi = s.hi ∧ t.lo = s.lo ∧ t.log = s.log := by
  obtain ⟨u, hm, -, hMEM, hhi, hlo, hlog, -⟩ := cycle_back h
  obtain ⟨huhi, hulo, hulog, -⟩ := memory_commit_fields hm
  rw [hEX] at hMEM hhi hlo hlog
  exact ⟨hMEM, hhi.trans huhi, hlo.trans hulo, hlog.trans hulog⟩

/-- Settles O33: the record keeps its operands, and its execute stage is the tables'. -/
theorem executeStageComputesEveryResult : Obligations.ExecuteStageComputesEveryResult := by
  intro s t hlive hstep
  have hc := cycle_of_step hlive.running hstep
  refine ⟨cycle_execute_bubble hc, fun r hr => ?_⟩
  obtain ⟨hMEM, hacc, hlog⟩ := hlive.cycle_execute hc hr
  refine ⟨hMEM, hacc, ?_⟩
  rw [hlog, reportsOf]
  split <;> rename_i hk <;> rw [hk] <;> rfl

/-! Decode and fetch -/

/-- Settles O39: the value that a decoding record captures is the first that one of the producers has. -/
theorem decodeTakesTheNearestProducer : Obligations.DecodeTakesTheNearestProducer := by
  intro s t e hlive hno hstep he q v hq
  obtain ⟨hv, -⟩ := cycle_captures (cycle_of_step hlive.running hstep) hno he hq
  refine ⟨?_, fun w hM => ?_, fun w hM hW => ?_, fun hM hW => ?_⟩
  · rintro rfl
    simp only [producerOf_zero] at hv
    exact hv
  · rw [hv, hM]
    rfl
  · rw [hv, hM, hW]
    rfl
  · rw [hv, hM, hW]
    rfl

theorem isJr_of_not_controlFlow {i : Instr} (h : i.isControlFlow = false) : isJr i = false := by
  cases i <;> simp_all [Instr.isControlFlow, isJr]

/-- With no control-flow record in decode the fetch reads the store at `pc`, and the flag alone tells of a bubble. -/
theorem cycle_sequential {s t : State} (h : cycle s = .next t) (hno : Claims.NoStall s) (hcf : holdsControlFlow s.slotID = false) :
    redirectedPc s t.slotEX = s.pc ∧ bubbleArmed s = s.fb := by
  obtain ⟨-, hEX, -⟩ := cycle_advance h hno
  rw [hEX, bubbleArmed]
  cases hd : s.slotID with
  | none => exact ⟨rfl, Bool.or_false _⟩
  | some r =>
    rw [hd] at hcf
    have hcf : r.instr.isControlFlow = false := hcf
    refine ⟨?_, ?_⟩
    · exact congrArg (Option.getD · s.pc) (targetOf_of_not_controlFlow hcf _ _ _)
    · rw [slotHas, isJr_of_not_controlFlow hcf, Bool.or_false]

/-- Settles O42: nothing in decode moves `pc` or arms a bubble. -/
theorem fetchReadsTheStoreOrInsertsTheBubble : Obligations.FetchReadsTheStoreOrInsertsTheBubble := by
  intro s hlive hno hcf
  obtain ⟨t, hstep, hc⟩ := hlive.exists_cycle
  obtain ⟨-, -, -, -, hfetch⟩ := cycle_advance hc hno
  obtain ⟨hpc, harmed⟩ := cycle_sequential hc hno hcf
  rw [hpc, harmed] at hfetch
  obtain ⟨hfb, hIF, htfb, htpc, hfetched, hbranch⟩ | ⟨hfb, hf⟩ := hfetch
  · exact ⟨fun hfb' => by simp [hfb] at hfb', fun _ => ⟨t, hstep, hIF, htfb, htpc, hfetched, hbranch⟩⟩
  · exact ⟨fun _ => ⟨t, hstep, hf⟩, fun hfb' => by simp [hfb] at hfb'⟩

/-- Behind a control-flow record in ID stands a bubble, and none is armed (R152). -/
theorem Live.front_of_controlFlow {s : State} {r : Record} (hlive : Live s) (hID : s.slotID = some r)
    (hcf : r.instr.isControlFlow = true) : s.slotIF = none ∧ s.fb = false := by
  obtain ⟨hflag, hbehind⟩ := hlive.inv.fetchFlag
  have hIF := hbehind (by rw [hID]; exact hcf)
  rw [hflag, hIF]
  exact ⟨rfl, rfl⟩

/-- The cycle in which a control-flow record decodes. -/
theorem Live.cycle_of_controlFlow {s t : State} {r : Record} (hlive : Live s) (h : cycle s = .next t) (hno : Claims.NoStall s)
    (hID : s.slotID = some r) (hcf : r.instr.isControlFlow = true) :
    t.slotID = none ∧ ∃ e, t.slotEX = some e ∧ e.instr = r.instr ∧ e.pc = r.pc ∧
      ((isJr r.instr = true ∧ InsertsBubbleAt s t ((Claims.targetOf r.instr e.rsVal e.rtVal s.labels).getD s.pc)) ∨
        (isJr r.instr = false ∧ Claims.FetchesAt s t ((Claims.targetOf r.instr e.rsVal e.rtVal s.labels).getD s.pc))) := by
  obtain ⟨hIF, hfb⟩ := hlive.front_of_controlFlow hID hcf
  obtain ⟨htID, hEX, -, -, hfetch⟩ := cycle_advance h hno
  rw [hID] at hEX
  have harmed : bubbleArmed s = isJr r.instr := by rw [bubbleArmed, hfb, hID, slotHas, Bool.false_or]
  rw [harmed, hEX] at hfetch
  exact ⟨htID.trans hIF, _, hEX, rfl, rfl, hfetch⟩

/-- Settles O44: decode leaves `pc` at the target before the fetch reads it. -/
theorem branchRedirectsTheFetchOfItsCycle : Obligations.BranchRedirectsTheFetchOfItsCycle := by
  intro s r hlive hno hID hcf hjr
  obtain ⟨t, hstep, hc⟩ := hlive.exists_cycle
  obtain ⟨-, e, he, -, -, ⟨hj, -⟩ | ⟨-, hf⟩⟩ := hlive.cycle_of_controlFlow hc hno hID hcf
  · obtain ⟨q, hq⟩ := isJr_iff.1 hj
    exact absurd hq (hjr q)
  · exact ⟨t, e, hstep, he, hf⟩

/-- Settles O45: `jr` arms the bubble that the fetch of its decode cycle inserts. -/
theorem jumpRegisterInsertsASecondBubble : Obligations.JumpRegisterInsertsASecondBubble := by
  intro s r q hlive hno hID hi
  obtain ⟨t, hstep, hc⟩ := hlive.exists_cycle
  obtain ⟨htID, e, he, -, -, ⟨-, hIF, hfb, hpc, hfetched, -⟩ | ⟨hj, -⟩⟩ :=
    hlive.cycle_of_controlFlow hc hno hID (by rw [hi]; rfl)
  · rw [hi] at hpc
    exact ⟨t, e, hstep, he, hpc, hIF, htID, hfb, hfetched⟩
  · simp [hi, isJr] at hj

/-! The link of `jal` -/

theorem noStall_of_isJal {s : State} {r : Record} (hID : s.slotID = some r) (hjal : isJal r.instr = true) : Claims.NoStall s := by
  obtain ⟨hrs, hrt⟩ := fields_of_isJal hjal
  have hnone : ∀ p : Slot, loadMatches r p = false := by
    intro p
    by_contra hmatch
    obtain ⟨_, rt, _, _, -, -, h0, hrt' | hrt'⟩ := loadMatches_iff.1 (Bool.eq_true_of_not_eq_false hmatch)
    · exact h0 (hrt'.trans hrs)
    · exact h0 (hrt'.trans hrt)
  rw [Claims.NoStall, hID, loadUseStall, hnone, hnone, Bool.or_false]

/-- A `jal` in decode leaves register 31 the address behind its own (R229). -/
theorem cycle_links {s t : State} {r : Record} {l : Word} (h : cycle s = .next t) (hID : s.slotID = some r) (hi : r.instr = .jal l) :
    readReg t 31 = r.pc + 4 := by
  have hjal : isJal r.instr = true := by rw [hi]; rfl
  obtain ⟨-, hEX, hregs, -⟩ := cycle_advance h (noStall_of_isJal hID hjal)
  rw [hID] at hEX
  have hlink : t.slotEX.bind linkOf = some (r.pc + 4) := by
    rw [hEX]
    exact if_pos hjal
  rw [hlink] at hregs
  rw [readReg_of_regs_eq hregs]
  rfl

/-- Settles O46: the two cycles after the link commit the records that were ahead of the `jal`, and only another `jal` can be in decode by
then, in the second of them. -/
theorem jalLinksInDecodeAndAnOlderWriterOverwrites : Obligations.JalLinksInDecodeAndAnOlderWriterOverwrites := by
  intro s t r l hlive hno hID hi hstep
  have hc := cycle_of_step hlive.running hstep
  obtain ⟨htID, -⟩ := hlive.cycle_of_controlFlow hc hno hID (by rw [hi]; rfl)
  obtain ⟨hkMEM, hkWB⟩ := cycle_keys hc
  refine ⟨cycle_links hc hID hi, hkWB, fun u hrun hstep' => ?_⟩
  have hc' := cycle_of_step hrun hstep'
  refine ⟨cycle_readReg hc' (.inr ?_), (cycle_keys hc').2.trans hkMEM, fun v hrun' hstep'' => ?_⟩
  · rw [htID]
    exact fun _ hr => nomatch hr
  have hc'' := cycle_of_step hrun' hstep''
  exact ⟨fun hno' => cycle_readReg hc'' (.inr hno'), fun e he l' hl' => cycle_links hc'' he hl'⟩

/-! The end of a cycle -/

/-- Settles O48: the three ends of a cycle exclude each other. -/
theorem runStopsAtTheCycleLimit : Obligations.RunStopsAtTheCycleLimit := by
  intro s t hlive hstep
  have hc := cycle_of_step hlive.running hstep
  obtain ⟨-, -, -, -, -, -, -, -, hcycles⟩ := cycle_back hc
  rw [← Bool.and_eq_true]
  refine ⟨hcycles, ?_⟩
  obtain ⟨hst, he, hd⟩ | ⟨hend, hst, hlim⟩ | ⟨hend, hst, hlim⟩ := cycle_status hc hlive.running
  · simp [hst, he, hd]
  · simp [hst, hend, hlim]
  · simp [hst, hend, hlim]

/-- Settles O49: a stall and an instruction fetched are counted, and otherwise a bubble was armed or the fetch found nothing. -/
theorem everyCycleIsOneOfFour : Obligations.EveryCycleIsOneOfFour := by
  intro s t hlive hstep
  have hc := cycle_of_step hlive.running hstep
  obtain hstall | hno := stall_or_advance s
  · obtain ⟨-, hstalls, -, -, -, -, hfetched, -⟩ := cycle_stalled hc hstall
    exact .inl ⟨hstalls, hfetched, hstall⟩
  obtain ⟨-, -, -, hstalls, ⟨harmed, hIF, hfb, -, hfetched, -⟩ | ⟨-, hf⟩⟩ := cycle_advance hc hno
  · refine .inr (.inr ⟨hstalls, hfetched, hIF, hfb, ?_⟩)
    rw [bubbleArmed, Bool.or_eq_true] at harmed
    refine harmed.imp_right fun hjr => .inl ?_
    cases hd : s.slotID with
    | none => simp [hd, slotHas] at hjr
    | some r =>
      rw [hd, slotHas] at hjr
      obtain ⟨q, hq⟩ := isJr_iff.1 hjr
      exact ⟨r, q, rfl, hq⟩
  · obtain ⟨⟨hIF, hfb, hpc, hfetched, -⟩, hw⟩ | ⟨d, i, -, -, hIF, -, -, hfetched, -⟩ := slotIF_of_fetchesAt hf
    · refine .inr (.inr ⟨hstalls, hfetched, hIF, hfb, .inr (.inr ?_)⟩)
      have hprog : t.prog = s.prog := (configuration_eq_iff.1 (cycle_configuration hc)).1
      rw [exhausted, hprog, hpc, toNat_imemIndex]
      exact decide_eq_true (List.getElem?_eq_none_iff.1 hw)
    · exact .inr (.inl ⟨hstalls, hfetched, by simp [hIF]⟩)

end Sys2Proof.Machine

/-! ## The architectural effect of the records in flight

`Arch` leaves the timing out, so the effect of each stage of a record is a total function on it, and effects on different parts of the
state commute by computation. -/

namespace Sys2Proof.Machine

namespace Arch

def read (A : Arch) (q : Reg) : Word := if q = 0 then 0 else A.regs[q.toNat]'q.isLt

/-- The record leaves WB (R138, R139). -/
def commit (A : Arch) (r : Record) : Arch :=
  { A with regs := regsWith A.regs r.instr.dest r.result, instructionsRetired := A.instructionsRetired + 1 }

/-- The memory stage of the record (R136). -/
def memory (A : Arch) (r : Record) : Arch := { A with dmem := cellsAfter A.dmem r }

/-- The execute stage of the record (R134). -/
def execute (A : Arch) (r : Record) : Arch :=
  { A with
    hi := (Claims.accumulatorsOf r.instr r.rsVal r.rtVal A.hi A.lo).1
    lo := (Claims.accumulatorsOf r.instr r.rsVal r.rtVal A.hi A.lo).2
    reports := A.reports ++ (Claims.reportOf r.instr r.rtVal).toList.map fun k => (k, r.pc) }

/-- The decode of the record, with the operands it carries (R143, R229). -/
def decode (labels : LabelMap) (A : Arch) (r : Record) : Arch :=
  { A with
    regs := regsWith A.regs 31 (linkOf r)
    pc := (Claims.targetOf r.instr r.rsVal r.rtVal labels).getD A.pc }

/-- The fetch of an instruction (R115). -/
def fetch (i : Instr) (A : Arch) : Arch :=
  { A with
    pc := A.pc + 4
    fetched := A.fetched + 1
    branchFetched := A.branchFetched + (if i.isControlFlow then 1 else 0) }

/-- The record with its operands as the registers have them. -/
def operands (A : Arch) (r : Record) : Record := { r with rsVal := A.read r.instr.rs, rtVal := A.read r.instr.rt }

def finishMemory (A : Arch) (r : Record) : Arch := (A.memory r).commit (loaded A.dmem r)

def finishExecute (A : Arch) (r : Record) : Arch := (A.execute r).finishMemory (executed r A.hi A.lo)

def finishDecode (labels : LabelMap) (A : Arch) (r : Record) : Arch :=
  (A.decode labels (A.operands r)).finishExecute (A.operands r)

/-- An effect of the record in a slot: none for a bubble. -/
def onSlot (f : Arch → Record → Arch) (A : Arch) (p : Slot) : Arch :=
  match p with
  | none => A
  | some r => f A r

end Arch

open Arch (onSlot)

/-! The stages of a record alone, seen without timing -/

theorem map_reportsOf (r : Record) (cycle : Nat) :
    (reportsOf r cycle).map (fun e => (e.kind, e.pc)) = (Claims.reportOf r.instr r.rtVal).toList.map fun k => (k, r.pc) := by
  simp [reportsOf, Function.comp_def]

theorem archOf_memoryFinished (s : State) (r : Record) : archOf (memoryFinished s r) = (archOf s).finishMemory r := rfl

theorem archOf_executeDone (s : State) (r : Record) : archOf (executeDone s r) = (archOf s).execute r := by
  simp only [archOf, executeDone, List.map_append, map_reportsOf]
  rfl

theorem archOf_executeFinished (s : State) (r : Record) : archOf (executeFinished s r) = (archOf s).finishExecute r := by
  rw [executeFinished, archOf_memoryFinished]
  exact congrArg (Arch.finishMemory · _) (archOf_executeDone s r)

theorem archOf_decodeFinished (s : State) (r : Record) : archOf (decodeFinished s r) = (archOf s).finishDecode s.labels r := by
  rw [decodeFinished, archOf_executeFinished]
  rfl

theorem archOf_commitSlot (s : State) (w0 : Slot) : archOf (commitSlot s w0) = onSlot Arch.commit (archOf s) w0 := by
  cases w0 with
  | none => rfl
  | some r => exact congrArg archOf (retire_eq s r)

theorem archOf_ranAlone (i : Instr) (s : State) :
    archOf (ranAlone i s) = ((archOf s).fetch i).finishDecode s.labels (fetchedRecord i s.pc) := by
  rw [← decodeFinished_fetched, archOf_decodeFinished, fetchedAlone_eq]
  rfl

/-! Draining -/

/-- The architectural state once the records in flight have finished in program order. -/
def drainedArch (s : State) : Arch :=
  onSlot (Arch.finishDecode s.labels)
    (onSlot (Arch.finishDecode s.labels)
      (onSlot Arch.finishExecute (onSlot Arch.finishMemory (archOf (commitSlot s s.slotWB)) s.slotMEM) s.slotEX) s.slotID) s.slotIF

theorem drainMemory_eq (s : State) {p : Slot} (h : slotAll p fun r => isLoadOrStore r.instr = true → r.result.isSome = true) :
    ∃ a, drainMemory s p = .next a ∧ archOf a = onSlot Arch.finishMemory (archOf s) p ∧ a.labels = s.labels := by
  cases p with
  | none => exact ⟨s, rfl, rfl, rfl⟩
  | some r => exact ⟨_, finishFromMemory_eq s (h r rfl), rfl, rfl⟩

theorem drainExecute_eq (s : State) {p : Slot} (h : slotAll p fun r => r.result = none) :
    ∃ a, drainExecute s p = .next a ∧ archOf a = onSlot Arch.finishExecute (archOf s) p ∧ a.labels = s.labels := by
  cases p with
  | none => exact ⟨s, rfl, rfl, rfl⟩
  | some r => exact ⟨_, finishFromExecute_eq s (h r rfl), archOf_executeFinished s r, rfl⟩

theorem drainDecode_eq (s : State) {p : Slot} (h : slotAll p fun r => r.result = none ∧ r.instr.wellFormed s.labels = true) :
    ∃ a, drainDecode s p = .next a ∧ archOf a = onSlot (Arch.finishDecode s.labels) (archOf s) p ∧ a.labels = s.labels := by
  cases p with
  | none => exact ⟨s, rfl, rfl, rfl⟩
  | some r =>
    obtain ⟨hres, hwf⟩ := h r rfl
    exact ⟨_, finishFromDecode_eq hres (taken_of_wellFormed hwf _ _), archOf_decodeFinished s r, rfl⟩

/-- A state with the invariants drains (R298). -/
theorem drain_eq {s : State} (hconf : configured s = true) (hrecords : RecordsOk s) (hruntime : RuntimeFieldsOk s) :
    ∃ a, drain s = .next a ∧ archOf a = drainedArch s ∧ a.labels = s.labels := by
  obtain ⟨hrIF, hrID, -, -, -⟩ := hrecords
  obtain ⟨hIF, hID, hEX, hMEM⟩ := hruntime
  have hcommit : (commitSlot s s.slotWB).labels = s.labels := by rw [commitSlot_touches]
  obtain ⟨a, ha, haA, hal⟩ := drainMemory_eq (commitSlot s s.slotWB) hMEM
  obtain ⟨b, hb, hbA, hbl⟩ := drainExecute_eq a hEX
  have hbl' : b.labels = s.labels := hbl.trans (hal.trans hcommit)
  obtain ⟨c, hc, hcA, hcl⟩ := drainDecode_eq b (p := s.slotID) fun r hr =>
    ⟨(hID r hr).2.2, hbl' ▸ wellFormed_of_fromStore hconf (hrID r hr)⟩
  have hcl' : c.labels = s.labels := hcl.trans hbl'
  obtain ⟨d, hd, hdA, hdl⟩ := drainDecode_eq c (p := s.slotIF) fun r hr =>
    ⟨(hIF r hr).2.2, hcl' ▸ wellFormed_of_fromStore hconf (hrIF r hr)⟩
  refine ⟨d, ?_, ?_, hdl.trans hcl'⟩
  · simp only [drain, ha, hb, hc, hd, andThen_next]
  · rw [hdA, hcA, hbA, haA, hcl', hbl', drainedArch]

end Sys2Proof.Machine

/-! ## The pipeline and the instructions: one cycle, drained, is nothing or one instruction run alone -/

namespace Sys2Proof.Machine
open Arch (onSlot)

@[simp] theorem archOf_endCycle (s : State) : archOf (endCycle s) = archOf s := by
  rw [endCycle_touches]
  rfl

theorem archOf_fetchDone (i : Instr) (s : State) : archOf (fetchDone i s) = (archOf s).fetch i := by
  simp only [archOf, fetchDone, countFetch, word_uval_add_four, Arch.fetch]
  cases i.isControlFlow <;> rfl

theorem recordsOk_of_drained {s : State} (h : drained s = true) : RecordsOk s ∧ RuntimeFieldsOk s := by
  obtain ⟨hIF, hID, hEX, hMEM, hWB⟩ := drained_iff.1 h
  rw [RecordsOk, RuntimeFieldsOk, hIF, hID, hEX, hMEM, hWB]
  exact ⟨⟨slotAll_none _, slotAll_none _, slotAll_none _, slotAll_none _, slotAll_none _⟩, slotAll_none _, slotAll_none _,
    slotAll_none _, slotAll_none _⟩

/-- Settles O55: the fetch is the first part of the instruction run alone, and draining is the rest. -/
theorem stepRunsTheDecodedInstruction : Obligations.StepRunsTheDecodedInstruction := by
  intro s c d i hconf hrun hdr hfb hd hi hexec
  have hc := cycle_of_drained hdr hfb hd hi
  obtain ⟨-, hID, hEX, hMEM, hWB⟩ := drained_iff.1 hdr
  obtain ⟨-, -, -, -, -, -, -, -, hcycles⟩ := cycle_back hc
  obtain ⟨hrecords, hruntime⟩ := recordsOk_of_drained hdr
  have hconfig := cycle_configuration hc
  obtain ⟨b, hb, hbA, -⟩ := drain_eq ((configured_congr hconfig).trans hconf) (cycle_keeps_records hc hrecords)
    (cycle_keeps_runtimeFields hc hruntime)
  refine ⟨_, b, (step_running hconf hrun).trans hc, endCycle_slotIF _, (endCycle_pc _).trans (word_uval_add_four s.pc), hcycles,
    endCycle_regs _, endCycle_dmem _, hb, ?_⟩
  have hslots : (fetchDone i s).slotIF = some (fetchedRecord i s.pc) ∧ (fetchDone i s).slotID = none ∧ (fetchDone i s).slotEX = none ∧
      (fetchDone i s).slotMEM = none ∧ (fetchDone i s).slotWB = none := ⟨rfl, hID, hEX, hMEM, hWB⟩
  obtain ⟨htIF, htID, htEX, htMEM, htWB⟩ := hslots
  rw [hbA, eq_ranAlone_of_exec hexec, archOf_ranAlone, drainedArch, endCycle_slotIF, endCycle_slotID, endCycle_slotEX, endCycle_slotMEM,
    endCycle_slotWB, htIF, htID, htEX, htMEM, htWB, archOf_commitSlot, archOf_endCycle, archOf_fetchDone]
  simp only [onSlot, (configuration_eq_iff.1 hconfig).2.1]

/-! Effects on different parts of the state commute -/

theorem regsWith_comm (regs : Vector Word 32) {d e : Reg} (h : d ≠ e) (a b : Option Word) :
    regsWith (regsWith regs d a) e b = regsWith (regsWith regs e b) d a := by
  cases a with
  | none => rfl
  | some v =>
    cases b with
    | none => rfl
    | some w =>
      simp only [regsWith]
      split <;> split
      · rfl
      · rfl
      · rfl
      · exact Vector.set_comm _ _ fun hde => h (BitVec.eq_of_toNat_eq hde)

/-- No record in the slot has the link register as its destination (R294). -/
def NoLinkAhead (p : Slot) : Prop := slotAll p fun r => r.instr.dest ≠ 31

section
variable {labels : LabelMap} {e : Record}

theorem commit_decode {r : Record} (h : linkOf e = none ∨ r.instr.dest ≠ 31) (A : Arch) :
    (A.decode labels e).commit r = (A.commit r).decode labels e := by
  have hregs : regsWith (regsWith A.regs 31 (linkOf e)) r.instr.dest r.result =
      regsWith (regsWith A.regs r.instr.dest r.result) 31 (linkOf e) := by
    obtain hnone | hdest := h
    · rw [hnone]
      rfl
    · exact regsWith_comm A.regs hdest.symm _ _
  simp only [Arch.commit, Arch.decode, hregs]

theorem finishMemory_decode {r : Record} (h : linkOf e = none ∨ r.instr.dest ≠ 31) (A : Arch) :
    (A.decode labels e).finishMemory r = (A.finishMemory r).decode labels e :=
  commit_decode (r := loaded A.dmem r) h (A.memory r)

end

/-- What the back of the pipeline has still to do after a cycle commutes with the decode of that cycle. -/
theorem back_commutes {labels : LabelMap} {M X E : Slot} (h : E.bind linkOf = none ∨ (NoLinkAhead M ∧ NoLinkAhead X)) (A : Arch) :
    onSlot Arch.finishMemory
        (onSlot Arch.commit (onSlot (Arch.decode labels) (onSlot Arch.execute (onSlot Arch.memory A M) X) E) (M.map (loaded A.dmem)))
        (X.map fun x => executed x A.hi A.lo) =
      onSlot (Arch.decode labels) (onSlot Arch.finishExecute (onSlot Arch.finishMemory A M) X) E := by
  cases E with
  | none => cases M <;> cases X <;> rfl
  | some e =>
    have hM : ∀ m, M = some m → linkOf e = none ∨ m.instr.dest ≠ 31 := fun m hm => h.imp_right fun h => h.1 m hm
    have hX : ∀ x, X = some x → linkOf e = none ∨ x.instr.dest ≠ 31 := fun x hx => h.imp_right fun h => h.2 x hx
    cases M with
    | none =>
      cases X with
      | none => rfl
      | some x => exact finishMemory_decode (r := executed x A.hi A.lo) (hX x rfl) (A.execute x)
    | some m =>
      have hcommit := fun B => commit_decode (labels := labels) (r := loaded A.dmem m) (hM m rfl) B
      cases X with
      | none => exact hcommit (A.memory m)
      | some x =>
        simp only [onSlot, Option.map_some, hcommit]
        exact finishMemory_decode (r := executed x A.hi A.lo) (hX x rfl) ((A.finishMemory m).execute x)

/-! The fetch commutes with everything but a redirect -/

section
variable (i : Instr) (A : Arch)

theorem fetch_onSlot {f : Arch → Record → Arch} (h : ∀ A r, f (A.fetch i) r = (f A r).fetch i) (p : Slot) :
    onSlot f (A.fetch i) p = (onSlot f A p).fetch i := by
  cases p with
  | none => rfl
  | some r => exact h A r

theorem commit_fetch (r : Record) : (A.fetch i).commit r = (A.commit r).fetch i := rfl

theorem finishMemory_fetch (r : Record) : (A.fetch i).finishMemory r = (A.finishMemory r).fetch i := rfl

theorem finishExecute_fetch (r : Record) : (A.fetch i).finishExecute r = (A.finishExecute r).fetch i := rfl

theorem finishDecode_fetch {labels : LabelMap} {r : Record} (h : r.instr.isControlFlow = false) :
    (A.fetch i).finishDecode labels r = (A.finishDecode labels r).fetch i := by
  have hdecode : (A.fetch i).decode labels (A.operands r) = (A.decode labels (A.operands r)).fetch i := by
    simp [Arch.decode, Arch.fetch, (targetOf_of_not_controlFlow (i := (A.operands r).instr) h _ _ _)]
  exact congrArg (Arch.finishExecute · (A.operands r)) hdecode

end

end Sys2Proof.Machine

/-! ## A cycle from a live state, seen without timing, and the refinement -/

namespace Sys2Proof.Machine
open Arch (onSlot)

/-- The memory stage of a slot, as the effect of its record. -/
theorem memorySlot_answers {s t : State} {m0 m1 : Slot} (h : memorySlot s m0 = .next (t, m1)) :
    t.dmem = m0.elim s.dmem (cellsAfter s.dmem) ∧ m1 = m0.map (loaded s.dmem) := by
  obtain ⟨rfl, rfl, rfl⟩ | ⟨r, rt, rs, imm, a, rfl, hi, hres, rfl, rfl⟩ | ⟨r, rt, rs, imm, a, rfl, hi, hres, rfl, rfl⟩ |
    ⟨r, rfl, hlw, hsw, rfl, rfl⟩ := memorySlot_cases h
  · exact ⟨rfl, rfl⟩
  · simp [cellsAfter, loaded, hi, hres, loadWord]
  · refine ⟨by simp [cellsAfter, hi, hres], ?_⟩
    rw [Option.map_some, loaded_of_not_lw (by rw [hi]; rfl)]
  · exact ⟨(cellsAfter_of_not_sw hsw _).symm, by rw [Option.map_some, loaded_of_not_lw hlw]⟩

/-- What writeback, memory and execute leave in a cycle from `s`. -/
def backArch (s : State) : Arch :=
  onSlot Arch.execute (onSlot Arch.memory (archOf (commitSlot s s.slotWB)) s.slotMEM) s.slotEX

theorem onSlot_memory_eq (A : Arch) (p : Slot) : onSlot Arch.memory A p = { A with dmem := p.elim A.dmem (cellsAfter A.dmem) } := by
  cases p <;> rfl

theorem commitSlot_arch_eq (s : State) (w0 : Slot) : archOf (commitSlot s w0) = { archOf s with
    regs := (commitSlot s w0).regs
    instructionsRetired := s.instructionsRetired + (if w0 = none then 0 else 1) } :=
  congrArg archOf (commitSlot_touches s w0)

/-- The records behind the back of the pipeline, and its effect. -/
theorem Live.cycle_back_arch {s t : State} (hlive : Live s) (h : cycle s = .next t) :
    t.slotWB = s.slotMEM.map (loaded s.dmem) ∧ t.slotMEM = s.slotEX.map (fun r => executed r s.hi s.lo) ∧
      archOf t = { backArch s with regs := t.regs, pc := t.pc, fetched := t.fetched, branchFetched := t.branchFetched } := by
  obtain ⟨u, hm, hdmem, -, -, -, -, hret, -⟩ := cycle_back h
  obtain ⟨humem, hWB⟩ := memorySlot_answers hm
  rw [commitSlot_dmem] at humem hWB
  have hdmem := hdmem.trans humem
  refine ⟨hWB, ?_⟩
  rw [backArch, onSlot_memory_eq, commitSlot_arch_eq]
  cases hEX : s.slotEX with
  | none =>
    obtain ⟨hMEM, hhi, hlo, hlog⟩ := cycle_execute_bubble h hEX
    refine ⟨hMEM, ?_⟩
    rw [archOf, hhi, hlo, hlog, hdmem, hret]
    rfl
  | some r =>
    obtain ⟨hMEM, hacc, hlog⟩ := hlive.cycle_execute h hEX
    refine ⟨hMEM, ?_⟩
    obtain ⟨hhi, hlo⟩ := Prod.ext_iff.1 hacc
    dsimp only at hhi hlo
    rw [archOf, hhi, hlo, hlog, hdmem, hret, List.map_append, map_reportsOf]
    rfl

theorem backArch_front (s : State) : (backArch s).regs = (commitSlot s s.slotWB).regs ∧ (backArch s).pc = s.pc ∧
    (backArch s).fetched = s.fetched ∧ (backArch s).branchFetched = s.branchFetched := by
  rw [backArch, onSlot_memory_eq, commitSlot_arch_eq]
  cases s.slotEX <;> exact ⟨rfl, rfl, rfl, rfl⟩

theorem Live.archOf_stall {s t : State} (hlive : Live s) (h : cycle s = .next t)
    (hstall : loadUseStall s.slotID s.slotEX s.slotMEM = true) : archOf t = backArch s := by
  obtain ⟨-, -, hback⟩ := hlive.cycle_back_arch h
  obtain ⟨-, -, -, -, hpc, -, hfetched, hbranch⟩ := cycle_stalled h hstall
  obtain ⟨hregs, hpc', hfetched', hbranch'⟩ := backArch_front s
  rw [hback, cycle_regs_of_stall h hstall, hpc, hfetched, hbranch, ← hregs, ← hpc', ← hfetched', ← hbranch']

/-- What decode leaves in a cycle from `s` without a stall, with `e` in EX after it. -/
def decodedArch (s : State) (e : Slot) : Arch := onSlot (Arch.decode s.labels) (backArch s) e

theorem decodedArch_eq (s : State) (e : Slot) : decodedArch s e = { backArch s with
    regs := regsWith (commitSlot s s.slotWB).regs 31 (e.bind linkOf), pc := redirectedPc s e } := by
  obtain ⟨hregs, hpc, -⟩ := backArch_front s
  rw [decodedArch, ← hregs, redirectedPc, ← hpc]
  cases e <;> rfl

theorem Live.archOf_advance {s t : State} (hlive : Live s) (h : cycle s = .next t) (hno : Claims.NoStall s) :
    (t.fetched = s.fetched ∧ t.slotIF = none ∧ archOf t = decodedArch s t.slotEX) ∨
      (bubbleArmed s = false ∧ ∃ d i, d ∈ s.prog ∧ decode d = .ok i ∧ t.fetched = s.fetched + 1 ∧
        t.slotIF = some (fetchedRecord i (redirectedPc s t.slotEX)) ∧ archOf t = (decodedArch s t.slotEX).fetch i) := by
  obtain ⟨-, -, hback⟩ := hlive.cycle_back_arch h
  obtain ⟨-, -, hregs, -⟩ := cycle_advance h hno
  obtain ⟨-, -, hfetched', hbranch'⟩ := backArch_front s
  rw [decodedArch_eq, hback, ← hregs]
  obtain ⟨hIF, -, hpc, hfetched, hbranch⟩ | ⟨harmed, d, i, hd, hi, hIF, hpc, -, hfetched, hbranch⟩ := cycle_fetch h hno
  · refine .inl ⟨hfetched, hIF, ?_⟩
    rw [hpc, hfetched, hbranch, ← hfetched', ← hbranch']
  · refine .inr ⟨harmed, d, i, List.mem_of_getElem? hd, hi, hfetched, hIF, ?_⟩
    rw [hpc, hfetched, hbranch, ← hfetched', ← hbranch']
    rfl

/-! The operands that decode captures are those of the registers once the records ahead have retired -/

theorem read_commit (A : Arch) (r : Record) (q : Reg) : (A.commit r).read q = (producerOf (some r) q).getD (A.read q) :=
  readReg_writeback { State.reset with regs := A.regs } r q ▸ by
    rw [writeback_eq]
    rfl

theorem read_finishMemory (A : Arch) (p : Slot) (q : Reg) :
    (onSlot Arch.finishMemory A p).read q = (producerOf (p.map (loaded A.dmem)) q).getD (A.read q) := by
  cases p with
  | none => rfl
  | some r => exact read_commit (A.memory r) (loaded A.dmem r) q

theorem read_finishExecute (A : Arch) (p : Slot) (q : Reg) :
    (onSlot Arch.finishExecute A p).read q =
      (producerOf ((p.map fun r => executed r A.hi A.lo).map (loaded A.dmem)) q).getD (A.read q) := by
  cases p with
  | none => rfl
  | some r => exact read_finishMemory (A.execute r) (some (executed r A.hi A.lo)) q

/-- A record that is no load of the register carries its result through the memory stage. -/
theorem producerOf_loaded {p : Slot} {q : Reg} (h : q ≠ 0 → slotAll p fun r => r.instr.isLw = true → r.instr.dest ≠ q)
    (m : Memory) :
    producerOf (p.map (loaded m)) q = producerOf p q := by
  cases p with
  | none => rfl
  | some r =>
    have hinstr : (loaded m r).instr = r.instr := rfl
    simp only [Option.map_some, producerOf, hinstr]
    split
    · rename_i hq
      have hlw : r.instr.isLw ≠ true := fun hlw => h hq.1 r rfl hlw hq.2
      rw [loaded_of_not_lw (Bool.eq_false_of_not_eq_true hlw)]
    · rfl

/-- The architectural state once the records ahead of ID have retired. -/
def aheadArch (s : State) : Arch :=
  onSlot Arch.finishExecute (onSlot Arch.finishMemory (archOf (commitSlot s s.slotWB)) s.slotMEM) s.slotEX

theorem archOf_commitSlot_fields (s : State) : (archOf (commitSlot s s.slotWB)).dmem = s.dmem ∧
    (archOf (commitSlot s s.slotWB)).hi = s.hi ∧ (archOf (commitSlot s s.slotWB)).lo = s.lo := by
  rw [commitSlot_arch_eq]
  exact ⟨rfl, rfl, rfl⟩

theorem finishMemory_acc (A : Arch) (p : Slot) :
    (onSlot Arch.finishMemory A p).hi = A.hi ∧ (onSlot Arch.finishMemory A p).lo = A.lo := by
  cases p <;> exact ⟨rfl, rfl⟩

/-- Forwarding is invisible (R290): decode captures what the registers hold once the records ahead have retired. -/
theorem Live.captured_eq {s t : State} (hlive : Live s) (h : cycle s = .next t) (hno : Claims.NoStall s) :
    t.slotEX = s.slotID.map (aheadArch s).operands := by
  obtain ⟨hWB, hMEM, -⟩ := hlive.cycle_back_arch h
  obtain ⟨hdmem, hhi, hlo⟩ := archOf_commitSlot_fields s
  obtain ⟨-, hEX, -⟩ := cycle_advance h hno
  have hread : ∀ (e : Record) (q : Reg) (v : Word), t.slotEX = some e → IsOperand e q v → v = (aheadArch s).read q := by
    intro e q v he hq
    obtain ⟨hv, -⟩ := cycle_captures h hno he hq
    have hload := cycle_no_load_ahead h hno he hq
    obtain ⟨hhi', hlo'⟩ := finishMemory_acc (archOf (commitSlot s s.slotWB)) s.slotMEM
    rw [aheadArch, read_finishExecute, hhi', hlo', hhi, hlo, ← hMEM, producerOf_loaded hload, read_finishMemory, hdmem, ← hWB, hv]
    change _ = (producerOf t.slotMEM q).getD ((producerOf t.slotWB q).getD (readReg (commitSlot s s.slotWB) q))
    rw [readReg_commitSlot]
    cases producerOf t.slotMEM q <;> rfl
  rw [hEX]
  cases hd : s.slotID with
  | none => rfl
  | some d =>
    rw [hd] at hEX
    have hrs := hread _ _ _ hEX (.inl ⟨rfl, rfl⟩)
    have hrt := hread _ _ _ hEX (.inr ⟨rfl, rfl⟩)
    simp only [Option.map_some, Arch.operands, Option.some.injEq]
    rw [capture]
    exact congrArg₂ (fun a b => ({ d with rsVal := a, rtVal := b } : Record)) hrs hrt

/-! The refinement -/

theorem slotHas_dest_eq_false {p : Slot} {d : Reg} (h : slotHas p (fun r => decide (r.instr.dest = d)) = false) :
    slotAll p fun r => r.instr.dest ≠ d := by
  cases p with
  | none => exact slotAll_none _
  | some r => exact slotAll_some (of_decide_eq_false h)

/-- Outside the hazard of R294 no record ahead of a `jal` in decode writes the link register. -/
theorem noLinkAhead_of_no_hazard {s : State} {e : Slot} (h : linkHazard s = false) (he : Claims.key e = Claims.key s.slotID) :
    e.bind linkOf = none ∨ (NoLinkAhead s.slotMEM ∧ NoLinkAhead s.slotEX) := by
  cases e with
  | none => exact .inl rfl
  | some r =>
    obtain ⟨d, hd, hi, -⟩ := exists_of_key_eq he rfl
    by_cases hjal : isJal r.instr = true
    · refine .inr ?_
      have hd : s.slotID = some d := hd
      rw [linkHazard, hd, slotHas, hi, hjal, Bool.true_and, Bool.or_eq_false_iff] at h
      exact ⟨slotHas_dest_eq_false h.2, slotHas_dest_eq_false h.1⟩
    · exact .inl (by simp [linkOf, hjal])

theorem drainedArch_eq (s : State) : drainedArch s =
    onSlot (Arch.finishDecode s.labels) (onSlot (Arch.finishDecode s.labels) (aheadArch s) s.slotID) s.slotIF := rfl

/-- After a cycle the records behind ID retire to where they would have retired without it, and the decode of that cycle is made. -/
theorem Live.retires_behind {s t : State} (hlive : Live s) (h : cycle s = .next t) {e : Slot}
    (hlink : e.bind linkOf = none ∨ (NoLinkAhead s.slotMEM ∧ NoLinkAhead s.slotEX)) :
    onSlot Arch.finishMemory (onSlot Arch.commit (decodedArch s e) t.slotWB) t.slotMEM =
      onSlot (Arch.decode s.labels) (aheadArch s) e := by
  obtain ⟨hWB, hMEM, -⟩ := hlive.cycle_back_arch h
  obtain ⟨hdmem, hhi, hlo⟩ := archOf_commitSlot_fields s
  have hback := back_commutes (labels := s.labels) hlink (archOf (commitSlot s s.slotWB))
  rw [hdmem, hhi, hlo, ← hWB, ← hMEM] at hback
  exact hback

/-- Decode with the operands of the registers, and then the rest, is all of a record. -/
theorem finishExecute_decode (labels : LabelMap) (A : Arch) (p : Slot) :
    onSlot Arch.finishExecute (onSlot (Arch.decode labels) A (p.map A.operands)) (p.map A.operands) =
      onSlot (Arch.finishDecode labels) A p := by
  cases p <;> rfl

theorem finishDecode_pc (labels : LabelMap) (A : Arch) (p : Slot) :
    (onSlot (Arch.finishDecode labels) A p).pc =
      ((p.map A.operands).bind fun r => Claims.targetOf r.instr r.rsVal r.rtVal labels).getD A.pc := by
  cases p <;> rfl

theorem finishDecode_pc_of_sequential {labels : LabelMap} {A : Arch} {p : Slot} (h : holdsControlFlow p = false) :
    (onSlot (Arch.finishDecode labels) A p).pc = A.pc := by
  rw [finishDecode_pc]
  cases p with
  | none => rfl
  | some r => exact congrArg (Option.getD · A.pc) (targetOf_of_not_controlFlow (i := r.instr) h _ _ _)

theorem aheadArch_pc (s : State) : (aheadArch s).pc = s.pc := by
  rw [aheadArch, commitSlot_arch_eq]
  cases s.slotMEM <;> cases s.slotEX <;> rfl

/-- A stall is invisible (R290). -/
theorem Live.drainedArch_stall {s t : State} (hlive : Live s) (h : cycle s = .next t)
    (hstall : loadUseStall s.slotID s.slotEX s.slotMEM = true) : drainedArch t = drainedArch s := by
  obtain ⟨htEX, -, htID, htIF, -⟩ := cycle_stalled h hstall
  have hlabels := (configuration_eq_iff.1 (cycle_configuration h)).2.1
  have hbehind := hlive.retires_behind h (e := none) (.inl rfl)
  have hdecoded : archOf t = decodedArch s none := hlive.archOf_stall h hstall
  have hahead : aheadArch t = aheadArch s := by
    rw [aheadArch, archOf_commitSlot, hdecoded, htEX]
    exact hbehind
  rw [drainedArch_eq, drainedArch_eq, hahead, hlabels, htID, htIF]

/-- An advance is invisible but for the fetch (R290, R295). -/
theorem Live.drainedArch_advance {s t : State} (hlive : Live s) (h : cycle s = .next t) (hno : Claims.NoStall s)
    (hhaz : linkHazard s = false) :
    (t.fetched = s.fetched ∧ drainedArch t = drainedArch s) ∨
      ∃ d i, d ∈ s.prog ∧ decode d = .ok i ∧ t.fetched = s.fetched + 1 ∧
        t.slotIF = some (fetchedRecord i (drainedArch s).pc) ∧
        drainedArch t = ((drainedArch s).fetch i).finishDecode s.labels (fetchedRecord i (drainedArch s).pc) := by
  have hlabels := (configuration_eq_iff.1 (cycle_configuration h)).2.1
  obtain ⟨htID, hkey⟩ := cycle_advances h hno
  have hbehind := hlive.retires_behind h (noLinkAhead_of_no_hazard hhaz hkey)
  have hEX := hlive.captured_eq h hno
  have hrest : onSlot Arch.finishExecute (onSlot (Arch.decode s.labels) (aheadArch s) t.slotEX) t.slotEX =
      onSlot (Arch.finishDecode s.labels) (aheadArch s) s.slotID := by
    rw [hEX]
    exact finishExecute_decode s.labels (aheadArch s) s.slotID
  obtain ⟨hfetched, htIF, hA⟩ | ⟨harmed, d, i, hd, hi, hfetched, htIF, hA⟩ := hlive.archOf_advance h hno
  · refine .inl ⟨hfetched, ?_⟩
    rw [drainedArch_eq, drainedArch_eq, aheadArch, archOf_commitSlot, hA, hbehind, hrest, hlabels, htID, htIF]
    rfl
  · have hcf : holdsControlFlow s.slotIF = false := by
      rw [← hlive.inv.fetchFlag.1]
      rw [bubbleArmed, Bool.or_eq_false_iff] at harmed
      exact harmed.1
    have hpc : (drainedArch s).pc = redirectedPc s t.slotEX := by
      rw [drainedArch_eq, finishDecode_pc_of_sequential hcf, finishDecode_pc, ← hEX, aheadArch_pc]
      rfl
    refine .inr ⟨d, i, hd, hi, hfetched, by rw [hpc]; exact htIF, ?_⟩
    have hahead : aheadArch t = (onSlot (Arch.finishDecode s.labels) (aheadArch s) s.slotID).fetch i := by
      rw [aheadArch, archOf_commitSlot, hA, fetch_onSlot i _ (commit_fetch i), fetch_onSlot i _ (finishMemory_fetch i),
        fetch_onSlot i _ (finishExecute_fetch i), hbehind, hrest]
    have hIF : ∀ A : Arch, onSlot (Arch.finishDecode s.labels) (A.fetch i) s.slotIF =
        (onSlot (Arch.finishDecode s.labels) A s.slotIF).fetch i := by
      intro A
      cases hf : s.slotIF with
      | none => rfl
      | some r =>
        rw [hf] at hcf
        exact finishDecode_fetch i A hcf
    rw [drainedArch_eq t, hahead, hlabels, htID, htIF, hIF, hpc]
    rfl

/-- Settles O57: the states drain to their architectural effects, and there the cycle is nothing or the one instruction. -/
theorem pipelineRefinesSequentialExecution : Obligations.PipelineRefinesSequentialExecution := by
  intro s t hlive hhaz hstep
  have hc := cycle_of_step hlive.running hstep
  have hinv := cycle_keeps_inv hc hlive.running hlive.inv
  have hconf := (configured_congr (cycle_configuration hc)).trans hlive.accepted
  obtain ⟨a, ha, haA, hal⟩ := drain_eq hlive.accepted hlive.inv.records hlive.inv.runtimeFields
  obtain ⟨b, hb, hbA, -⟩ := drain_eq hconf hinv.records hinv.runtimeFields
  refine ⟨a, b, ha, hb, ?_⟩
  rw [haA, hbA]
  obtain hstall | hno := stall_or_advance s
  · obtain ⟨-, -, -, -, -, -, hfetched, -⟩ := cycle_stalled hc hstall
    exact .inl ⟨hfetched, hlive.drainedArch_stall hc hstall⟩
  refine (hlive.drainedArch_advance hc hno hhaz).imp_right ?_
  rintro ⟨d, i, hd, hi, hfetched, htIF, hdrained⟩
  obtain ⟨j, hj, hwf⟩ := configured_accepts hlive.accepted d hd
  obtain rfl : i = j := by simpa [hi] using hj
  have hexec : exec i a = .next (ranAlone i a) := exec_eq (taken_of_wellFormed (hal ▸ hwf) _ _)
  have hapc : (drainedArch s).pc = a.pc := by
    rw [← haA]
    rfl
  refine ⟨_, _, hfetched, htIF, hexec, ?_⟩
  rw [hdrained, archOf_ranAlone, haA, hal, hapc]

end Sys2Proof.Machine

/-! ## An instruction alone in the pipeline: six cycles that are exactly `exec` -/

namespace Sys2Proof.Machine

/-- With nothing to fetch, IF gets a bubble (R115). -/
theorem fetchSlot_exhausted {s : State} (hfb : s.fb = false) (h : exhausted s = true) : fetchSlot s = .next { s with slotIF := none } := by
  have hw : fetchedWord s = none := List.getElem?_eq_none_iff.2 (of_decide_eq_true h)
  simp only [fetchSlot, hfb, hw, Bool.false_eq_true, if_false]

/-- With a bubble armed or nothing to fetch, IF gets a bubble and none stays armed (R115, R144). -/
theorem fetchSlot_empty {s : State} (h : s.fb = true ∨ exhausted s = true) :
    fetchSlot s = .next { s with slotIF := none, fb := false } := by
  cases hfb : s.fb with
  | true => simp only [fetchSlot, hfb, if_true]
  | false => rw [fetchSlot_exhausted hfb (h.resolve_left (by simp [hfb])), ← hfb]

/-- A cycle without a stall, from what its memory and execute stages answer (R140). -/
theorem cycle_eq_advance {s u v : State} {m1 x1 : Slot} (hm : memorySlot (commitSlot s s.slotWB) s.slotMEM = .next (u, m1))
    (hx : executeSlot u s.slotEX s.slotMEM m1 s.slotWB = (v, x1)) (hno : loadUseStall v.slotID s.slotEX s.slotMEM = false) :
    cycle s = andThen (advance { v with slotWB := m1, slotMEM := x1 } x1 m1 s.slotWB) fun z => .next (endCycle z) := by
  rw [cycle, hm, andThen_next]
  dsimp only
  rw [hx]
  simp [hno]

/-- `s` with the records of the five slots given. -/
def withSlots (s : State) (p q x m w : Slot) : State := { s with slotIF := p, slotID := q, slotEX := x, slotMEM := m, slotWB := w }

/-! The cycle of a pipeline that holds one record, by the slot that holds it, when nothing is fetched. -/

section
variable {s : State} {r : Record}

theorem cycle_lone_IF (hfetch : s.fb = true ∨ exhausted s = true) :
    cycle (withSlots s (some r) none none none none) =
      .next (endCycle (withSlots { s with fb := false } none (some r) none none none)) :=
  congrArg (andThen · fun u => .next (endCycle u)) (fetchSlot_empty (s := withSlots s (some r) (some r) none none none) hfetch)

theorem cycle_lone_ID
    (hl : ∀ l ∈ takenLabel r.instr (readReg s r.instr.rs) (readReg s r.instr.rt), (labelTarget s.labels l).isSome = true)
    (hfetch : exhausted (decodeDone s (readOperands s r)) = true) :
    cycle (withSlots s none (some r) none none none) =
      .next (endCycle (withSlots { decodeDone s (readOperands s r) with fb := false } none none (some (readOperands s r)) none none)) := by
  have hdecode : decodeSlot (withSlots s none (some r) none none none) (some r) none none none =
      .next (withSlots (decodeDone s (readOperands s r)) none (some r) (some (readOperands s r)) none none) := by
    rw [decodeSlot, capture_alone]
    exact congrArg (andThen · _) (resolve_of_labels (s := withSlots s none (some r) none none none) (r := readOperands s r) hl)
  have hadvance : advance (withSlots s none (some r) none none none) none none none =
      .next (withSlots { decodeDone s (readOperands s r) with fb := false } none none (some (readOperands s r)) none none) :=
    (congrArg (andThen · _) hdecode).trans
      (fetchSlot_empty (s := withSlots (decodeDone s (readOperands s r)) none none (some (readOperands s r)) none none) (.inr hfetch))
  exact congrArg (andThen · fun u => .next (endCycle u)) hadvance

theorem cycle_lone_EX (hr : r.result = none) (hfb : s.fb = false) (hfetch : exhausted s = true) :
    cycle (withSlots s none none (some r) none none) =
      .next (endCycle (withSlots (executeDone s r) none none none (some (executed r s.hi s.lo)) none)) := by
  have hex : executeSlot (withSlots s none none (some r) none none) (some r) none none none =
      (withSlots (executeDone s r) none none (some r) none none, some (executed r s.hi s.lo)) := by
    have hfwd : forwardInto none none none r = r := by simp [forwardInto, exTag, producerOf, forwardValue]
    rw [executeSlot, hfwd, execute_eq _ hr]
    rfl
  refine (cycle_eq_advance rfl hex rfl).trans ?_
  exact congrArg (andThen · _)
    (fetchSlot_exhausted (s := withSlots (executeDone s r) none none none (some (executed r s.hi s.lo)) none) hfb hfetch)

theorem cycle_lone_MEM (h : isLoadOrStore r.instr = true → r.result.isSome = true) (hfb : s.fb = false) (hfetch : exhausted s = true) :
    cycle (withSlots s none none none (some r) none) =
      .next (endCycle (withSlots { s with dmem := cellsAfter s.dmem r } none none none none (some (loaded s.dmem r)))) := by
  have hm : memorySlot (withSlots s none none none (some r) none) (some r) =
      .next (withSlots { s with dmem := cellsAfter s.dmem r } none none none (some r) none, some (loaded s.dmem r)) := by
    rw [memorySlot, memory_eq _ h]
    rfl
  refine (cycle_eq_advance (s := withSlots s none none none (some r) none) hm rfl rfl).trans ?_
  exact congrArg (andThen · _)
    (fetchSlot_exhausted (s := withSlots { s with dmem := cellsAfter s.dmem r } none none none none (some (loaded s.dmem r))) hfb hfetch)

theorem cycle_lone_WB (hfb : s.fb = false) (hfetch : exhausted s = true) :
    cycle (withSlots s none none none none (some r)) =
      .next (endCycle (withSlots { s with
        regs := regsWith s.regs r.instr.dest r.result
        instructionsRetired := s.instructionsRetired + 1 } none none none none none)) := by
  have hm : memorySlot (commitSlot (withSlots s none none none none (some r)) (some r)) none =
      .next (withSlots { s with
        regs := regsWith s.regs r.instr.dest r.result
        instructionsRetired := s.instructionsRetired + 1 } none none none none (some r), none) := by
    rw [commitSlot, retire_eq]
    rfl
  refine (cycle_eq_advance (s := withSlots s none none none none (some r)) hm rfl rfl).trans ?_
  exact congrArg (andThen · _)
    (fetchSlot_exhausted (s := withSlots { s with
      regs := regsWith s.regs r.instr.dest r.result
      instructionsRetired := s.instructionsRetired + 1 } none none none none none) hfb hfetch)

end

/-- While a record is in flight and the limit is not reached, the end of a cycle only counts it (R147, R148). -/
theorem endCycle_running {s : State} (hdr : drained s = false) (hlim : s.cycles + 1 < s.maxCycles) : endCycle s = countCycle s := by
  obtain ⟨-, hdr', -⟩ | ⟨-, hlim', -⟩ | ⟨-, -, h⟩ := endCycle_cases s
  · simp [hdr] at hdr'
  · omega
  · exact h

theorem run_succ {s t : State} (h : step s = .next t) (k : Nat) :
    Host.Core.run Sys2Proof.core (k + 1) s = Host.Core.run Sys2Proof.core k t := by
  have h' : Host.Core.step Sys2Proof.core s = .next t := h
  simp [Host.Core.run, h']

/-- The block can run `k` more cycles: its configuration is accepted, it runs, and the limit is that far away. -/
structure CanRun (s : State) (k : Nat) : Prop where
  accepted : configured s = true
  running : s.status = .running
  limit : s.cycles + k ≤ s.maxCycles

theorem run_withSlots {s t : State} {p q x m w p' q' x' m' w' : Slot} {k : Nat} (h : CanRun s (k + 2))
    (hc : cycle (withSlots s p q x m w) = .next (endCycle (withSlots t p' q' x' m' w')))
    (hdr : drained (withSlots t p' q' x' m' w') = false) (hcycles : t.cycles = s.cycles) (hmax : t.maxCycles = s.maxCycles) :
    Host.Core.run Sys2Proof.core (k + 2) (withSlots s p q x m w) =
      Host.Core.run Sys2Proof.core (k + 1) (withSlots (countCycle t) p' q' x' m' w') := by
  have hlim := h.limit
  rw [endCycle_running hdr (by rw [withSlots, hcycles, hmax]; omega)] at hc
  exact run_succ ((step_running (s := withSlots s p q x m w) h.accepted h.running).trans hc) (k + 1)

/-! The cycles of a lone record, from each of its slots on, are those of the record alone. -/

/-- The block at its end: no record in flight, status Done. -/
def finished (s : State) : State := { withSlots s none none none none none with status := .done }

/-- With nothing in flight and nothing to fetch, the end of a cycle is the normal end (R147). -/
theorem endCycle_finished {s : State} (hex : exhausted s = true) :
    endCycle (withSlots s none none none none none) = finished (countCycle s) := by
  have hex' : exhausted (withSlots s none none none none none) = true := hex
  obtain ⟨-, -, h⟩ | ⟨h, -⟩ | ⟨h, -⟩ := endCycle_cases (withSlots s none none none none none)
  · exact h
  all_goals
    rw [hex'] at h
    cases h

section
variable {s : State} {r : Record}

theorem run_from_WB (h : CanRun s 1) (hfb : s.fb = false) (hex : exhausted s = true) :
    Host.Core.run Sys2Proof.core 1 (withSlots s none none none none (some r)) =
      .next (finished { s with
        regs := regsWith s.regs r.instr.dest r.result
        instructionsRetired := s.instructionsRetired + 1
        cycles := s.cycles + 1 }) := by
  have hc := (cycle_lone_WB (r := r) hfb hex).trans (congrArg Host.Outcome.next (endCycle_finished (by exact hex)))
  exact run_succ ((step_running (s := withSlots s none none none none (some r)) h.accepted h.running).trans hc) 0

theorem run_from_MEM (h : CanRun s 2) (hfb : s.fb = false) (hls : isLoadOrStore r.instr = true → r.result.isSome = true)
    (hex : exhausted s = true) :
    Host.Core.run Sys2Proof.core 2 (withSlots s none none none (some r) none) = .next (finished (memoryFinished s r)) := by
  have hlim := h.limit
  rw [run_withSlots (k := 0) h (cycle_lone_MEM hls hfb hex) rfl rfl rfl]
  exact run_from_WB (s := countCycle { s with dmem := cellsAfter s.dmem r }) (r := loaded s.dmem r)
    ⟨h.accepted, h.running, by simp only [countCycle]; omega⟩ hfb hex

theorem run_from_EX (h : CanRun s 3) (hfb : s.fb = false) (hr : r.result = none) (hex : exhausted s = true) :
    Host.Core.run Sys2Proof.core 3 (withSlots s none none (some r) none none) = .next (finished (executeFinished s r)) := by
  have hlim := h.limit
  rw [run_withSlots (k := 1) h (cycle_lone_EX hr hfb hex) rfl rfl rfl]
  exact run_from_MEM (s := countCycle (executeDone s r)) (r := executed r s.hi s.lo)
    ⟨h.accepted, h.running, by simp only [countCycle, executeDone]; omega⟩ hfb (executed_isSome r s.hi s.lo) hex

theorem run_from_ID (h : CanRun s 4) (hfb : s.fb = false) (hr : r.result = none)
    (hl : ∀ l ∈ takenLabel r.instr (readReg s r.instr.rs) (readReg s r.instr.rt), (labelTarget s.labels l).isSome = true)
    (hex : exhausted (decodeDone s (readOperands s r)) = true) :
    Host.Core.run Sys2Proof.core 4 (withSlots s none (some r) none none none) = .next (finished (decodeFinished s r)) := by
  have hlim := h.limit
  rw [run_withSlots (k := 2) h (cycle_lone_ID hl hex) rfl rfl rfl, decodeFinished, hfb]
  exact run_from_EX (s := countCycle { decodeDone s (readOperands s r) with fb := false }) (r := readOperands s r)
    ⟨h.accepted, h.running, by simp only [countCycle, decodeDone, resolved]; omega⟩ rfl hr hex

end

theorem withSlots_of_drained {s : State} (h : drained s = true) : withSlots s none none none none none = s := by
  obtain ⟨hIF, hID, hEX, hMEM, hWB⟩ := drained_iff.1 h
  cases s
  simp_all [withSlots]

/-- Settles O56: a fetch, a cycle in IF, and the four cycles from ID on, which end in what the instruction leaves alone. -/
theorem sixStepsOfALoneInstructionAreExec : Obligations.SixStepsOfALoneInstructionAreExec := by
  intro s c d i hconf hrun hdr hfb hd hi hexec hex hlim
  have hl := labels_of_exec hexec
  obtain rfl := eq_ranAlone_of_exec hexec
  have hs := withSlots_of_drained hdr
  -- the fetch
  have hfetch : cycle (withSlots s none none none none none) =
      .next (endCycle (withSlots { countFetch i s with fb := i.isControlFlow } (some (fetchedRecord i s.pc)) none none none none)) := by
    rw [hs, cycle_of_drained hdr hfb hd hi, fetchDone, ← congrArg (countFetch i) hs]
    rfl
  have hone := run_withSlots (k := 4) ⟨hconf, hrun, hlim⟩ hfetch rfl rfl rfl
  -- the cycle in IF: behind a control-flow instruction stands a bubble, and behind any other there is nothing to fetch
  have hempty : i.isControlFlow = true ∨ exhausted (countFetch i s) = true := by
    cases hcf : i.isControlFlow with
    | true => exact .inl rfl
    | false =>
      refine .inr ?_
      have hpc : (ranAlone i s).pc = s.pc + 4 := congrArg (Option.getD · (s.pc + 4)) (targetOf_of_not_controlFlow hcf _ _ _)
      rw [exhausted, countFetch_pc, word_uval_add_four, ← hpc]
      exact hex
  have htwo := run_withSlots (s := countCycle { countFetch i s with fb := i.isControlFlow }) (k := 3)
    ⟨hconf, hrun, by simp only [countCycle, countFetch]; omega⟩ (cycle_lone_IF (r := fetchedRecord i s.pc) hempty) rfl rfl rfl
  have hfetched : (countCycle { countCycle { countFetch i s with fb := i.isControlFlow } with fb := false }) = fetchedAlone i s := by
    rw [← hfb]
    rfl
  -- decode to writeback
  have hexID : exhausted (decodeDone (fetchedAlone i s) (readOperands (fetchedAlone i s) (fetchedRecord i s.pc))) = true := by
    rw [readOperands_fetched, fetchedAlone_eq]
    exact hex
  have hrest := run_from_ID (s := fetchedAlone i s) (r := fetchedRecord i s.pc)
    ⟨hconf, hrun, by simp only [fetchedAlone, countCycle, countFetch]; omega⟩ hfb rfl hl hexID
  rw [hs] at hone
  rw [hone, htwo, hfetched, hrest, decodeFinished_fetched, finished, withSlots_of_drained (s := ranAlone i s) hdr]

end Sys2Proof.Machine

/-! ## Straight-line code: N instructions in N + 5 cycles -/

namespace Sys2Proof.Machine

/-- The instruction that stands `o` slots behind the fetch after `k` cycles of straight-line code without a stall. -/
def inFlight (code : List Instr) (k o : Nat) : Option Instr := if k ≤ o then none else code[k - 1 - o]?

theorem inFlight_succ_succ (code : List Instr) (k o : Nat) : inFlight code (k + 1) (o + 1) = inFlight code k o := by
  have hindex : k + 1 - 1 - (o + 1) = k - 1 - o := by omega
  simp only [inFlight, Nat.add_le_add_iff_right, hindex]

theorem inFlight_succ_zero (code : List Instr) (k : Nat) : inFlight code (k + 1) 0 = code[k]? := by
  simp [inFlight]

theorem mem_of_inFlight {code : List Instr} {k o : Nat} {i : Instr} (h : inFlight code k o = some i) : i ∈ code := by
  unfold inFlight at h
  split at h
  · cases h
  · exact List.mem_of_getElem? h

/-- The instruction of a slot. -/
def slotInstr (p : Slot) : Option Instr := p.map Record.instr

theorem slotInstr_of_key_eq {p q : Slot} (h : Claims.key p = Claims.key q) : slotInstr p = slotInstr q := by
  have h' := congrArg (Option.map Prod.fst) h
  simpa [slotInstr, Claims.key, Function.comp_def] using h'

theorem slotInstr_eq_none {p : Slot} : slotInstr p = none ↔ p = none := Option.map_eq_none_iff

theorem decodedStore_getElem? {prog : List Diw} (h : ∀ d ∈ prog, ∃ i, decode d = .ok i) (k : Nat) :
    (Claims.decodedStore prog)[k]? = prog[k]?.bind fun d => (decode d).toOption := by
  induction prog generalizing k with
  | nil => rfl
  | cons d ds ih =>
    obtain ⟨⟨i, hi⟩, hds⟩ := List.forall_mem_cons.1 h
    have hcons : Claims.decodedStore (d :: ds) = i :: Claims.decodedStore ds := by
      simp [Claims.decodedStore, hi, Except.toOption]
    rw [hcons]
    cases k with
    | zero => simp [hi, Except.toOption]
    | succ k => simpa using ih hds k

theorem length_decodedStore {prog : List Diw} (h : ∀ d ∈ prog, ∃ i, decode d = .ok i) :
    (Claims.decodedStore prog).length = prog.length := by
  induction prog with
  | nil => rfl
  | cons d ds ih =>
    obtain ⟨⟨i, hi⟩, hds⟩ := List.forall_mem_cons.1 h
    simpa [Claims.decodedStore, hi, Except.toOption] using ih hds

/-- Straight-line code without load-use at distance 1 or 2 (R150). -/
structure StraightLine (code : List Instr) : Prop where
  noControlFlow : ∀ i ∈ code, i.isControlFlow = false
  noLoadUse : ∀ (k : Nat) (a b : Instr), code[k]? = some a → (code[k + 1]? = some b ∨ code[k + 2]? = some b) →
    Claims.usesLoad a b = false

/-- How the front and the slots stand after `k` cycles of straight-line code: `k` fetches or all of them, no stall, the instructions one
slot apart. -/
structure After (code : List Instr) (k : Nat) (s : State) : Prop where
  cycles : s.cycles = k
  stalls : s.stalls = 0
  fetched : s.fetched = min k code.length
  pc : s.pc.toNat = 4 * min k code.length
  fb : s.fb = false
  slotIF : slotInstr s.slotIF = inFlight code k 0
  slotID : slotInstr s.slotID = inFlight code k 1
  slotEX : slotInstr s.slotEX = inFlight code k 2
  slotMEM : slotInstr s.slotMEM = inFlight code k 3
  slotWB : slotInstr s.slotWB = inFlight code k 4

theorem loadMatches_of_slotInstr {d : Record} {p : Slot} {o k : Nat} {code : List Instr} (hcode : StraightLine code)
    (hd : inFlight code k 1 = some d.instr) (hp : slotInstr p = inFlight code k o) (ho : o = 2 ∨ o = 3) : loadMatches d p = false := by
  cases p with
  | none => rfl
  | some r =>
    have hr : inFlight code k o = some r.instr := hp.symm
    have huse : Claims.usesLoad r.instr d.instr = false := by
      unfold inFlight at hd hr
      split at hd
      · cases hd
      split at hr
      · cases hr
      refine hcode.noLoadUse (k - 1 - o) _ _ hr ?_
      obtain rfl | rfl := ho
      · rw [show k - 1 - 2 + 1 = k - 1 - 1 by omega]
        exact .inl hd
      · rw [show k - 1 - 3 + 2 = k - 1 - 1 by omega]
        exact .inr hd
    exact huse

theorem After.noStall {code : List Instr} {k : Nat} {s : State} (hcode : StraightLine code) (h : After code k s) : Claims.NoStall s := by
  rw [Claims.NoStall]
  cases hd : s.slotID with
  | none => rfl
  | some d =>
    have hd' : inFlight code k 1 = some d.instr := by rw [← h.slotID, hd]; rfl
    rw [loadUseStall, loadMatches_of_slotInstr hcode hd' h.slotEX (.inl rfl), loadMatches_of_slotInstr hcode hd' h.slotMEM (.inr rfl),
      Bool.or_false]

/-- One cycle of straight-line code. -/
theorem After.next {code : List Instr} {k : Nat} {s t : State} (hcode : StraightLine code) (h : After code k s)
    (hstore : ∀ j : Nat, code[j]? = s.prog[j]?.bind fun d => (decode d).toOption) (hlen : s.prog.length = code.length)
    (hsize : code.length < 2 ^ 30) (hc : cycle s = .next t) : After code (k + 1) t := by
  have hno := h.noStall hcode
  obtain ⟨htID, -, -, hstalls, hfetch⟩ := cycle_advance hc hno
  obtain ⟨hkMEM, hkWB⟩ := cycle_keys hc
  obtain ⟨-, hkEX⟩ := cycle_advances hc hno
  obtain ⟨-, -, -, -, -, -, -, -, hcycles⟩ := cycle_back hc
  have hcf : holdsControlFlow s.slotID = false := by
    cases hd : s.slotID with
    | none => rfl
    | some d =>
      refine hcode.noControlFlow d.instr (mem_of_inFlight (k := k) (o := 1) ?_)
      rw [← h.slotID, hd]
      rfl
  obtain ⟨hpc, harmed⟩ := cycle_sequential hc hno hcf
  have hpcs := h.pc
  rw [hpc, harmed, h.fb] at hfetch
  obtain ⟨hfalse, -⟩ | ⟨-, hf⟩ := hfetch
  · cases hfalse
  have hindex : s.pc.toNat / 4 = min k code.length := by omega
  have hback : slotInstr t.slotID = inFlight code (k + 1) 1 ∧ slotInstr t.slotEX = inFlight code (k + 1) 2 ∧
      slotInstr t.slotMEM = inFlight code (k + 1) 3 ∧ slotInstr t.slotWB = inFlight code (k + 1) 4 := by
    simp only [inFlight_succ_succ]
    exact ⟨htID ▸ h.slotIF, (slotInstr_of_key_eq hkEX).trans h.slotID, (slotInstr_of_key_eq hkMEM).trans h.slotEX,
      (slotInstr_of_key_eq hkWB).trans h.slotMEM⟩
  obtain ⟨hID, hEX, hMEM, hWB⟩ := hback
  have hstalls := hstalls.trans h.stalls
  have hcycles : t.cycles = k + 1 := by rw [hcycles, h.cycles]
  obtain ⟨⟨htIF, htfb, htpc, htfetched, -⟩, hw⟩ | ⟨d, i, hw, hi, htIF, htpc, htfb, htfetched, -⟩ := slotIF_of_fetchesAt hf
  · rw [hindex] at hw
    have hge : code.length ≤ k := by
      have := List.getElem?_eq_none_iff.1 hw
      omega
    refine ⟨hcycles, hstalls, ?_, ?_, htfb, ?_, hID, hEX, hMEM, hWB⟩
    · rw [htfetched, h.fetched]
      omega
    · rw [htpc, hpcs]
      omega
    · rw [htIF, inFlight_succ_zero]
      exact (List.getElem?_eq_none_iff.2 hge).symm
  · rw [hindex] at hw
    have hlt : k < code.length := by
      obtain ⟨hlt, -⟩ := List.getElem?_eq_some_iff.1 hw
      omega
    rw [Nat.min_eq_left hlt.le] at hw
    have hcodek : code[k]? = some i := by
      rw [hstore, hw]
      exact congrArg Except.toOption hi
    refine ⟨hcycles, hstalls, ?_, ?_, ?_, ?_, hID, hEX, hMEM, hWB⟩
    · rw [htfetched, h.fetched]
      omega
    · rw [htpc, BitVec.toNat_add, hpcs]
      have : (4 : Word).toNat = 4 := rfl
      omega
    · rw [htfb]
      exact hcode.noControlFlow i (List.mem_of_getElem? hcodek)
    · rw [htIF, inFlight_succ_zero, hcodek]
      rfl

/-! From reset to the end -/

theorem run_succ_of_run {s t u : State} {k : Nat} (h : Host.Core.run Sys2Proof.core k s = .next t) (hstep : step t = .next u) :
    Host.Core.run Sys2Proof.core (k + 1) s = .next u := by
  induction k generalizing s with
  | zero =>
    obtain rfl : s = t := by injection h
    exact run_succ hstep 0
  | succ k ih =>
    cases hs : Host.Core.step Sys2Proof.core s with
    | next s' =>
      rw [run_succ hs] at h
      exact (run_succ hs (k + 1)).trans (ih h)
    | fault f => simp [Host.Core.run, hs] at h
    | refused r => simp [Host.Core.run, hs] at h

theorem after_resetWith (code : List Instr) (prog : List Diw) (labels : LabelMap) (mc : Nat) :
    After code 0 (State.resetWith prog labels mc) := by
  constructor <;> simp [State.resetWith, inFlight, slotInstr]

/-- While fewer than N + 5 cycles have run there is a record in flight. -/
theorem After.not_drained {code : List Instr} {k : Nat} {s : State} (h : After code k s) (hpos : 0 < k) (hne : code ≠ [])
    (hk : k < code.length + 5) : drained s = false := by
  have hlen := List.length_pos_iff.2 hne
  by_contra hdr
  obtain ⟨hIF, hID, hEX, hMEM, hWB⟩ := drained_iff.1 (Bool.eq_true_of_not_eq_false hdr)
  have hnone : ∀ o < 5, inFlight code k o = none := by
    intro o ho
    interval_cases o
    · rw [← h.slotIF, hIF]; rfl
    · rw [← h.slotID, hID]; rfl
    · rw [← h.slotEX, hEX]; rfl
    · rw [← h.slotMEM, hMEM]; rfl
    · rw [← h.slotWB, hWB]; rfl
  -- the youngest instruction in flight: the one fetched last
  have hyoungest := hnone (k - min k code.length) (by omega)
  rw [inFlight, if_neg (by omega), List.getElem?_eq_none_iff] at hyoungest
  omega

/-- After N + 5 cycles everything has retired and there is nothing left to fetch. -/
theorem After.ended {code : List Instr} {s : State} (h : After code (code.length + 5) s) (hlen : s.prog.length = code.length) :
    drained s = true ∧ exhausted s = true := by
  have hnone : ∀ o < 5, inFlight code (code.length + 5) o = none := by
    intro o ho
    rw [inFlight, if_neg (by omega), List.getElem?_eq_none_iff]
    omega
  refine ⟨drained_iff.2 ⟨?_, ?_, ?_, ?_, ?_⟩, ?_⟩
  · exact slotInstr_eq_none.1 (h.slotIF.trans (hnone 0 (by omega)))
  · exact slotInstr_eq_none.1 (h.slotID.trans (hnone 1 (by omega)))
  · exact slotInstr_eq_none.1 (h.slotEX.trans (hnone 2 (by omega)))
  · exact slotInstr_eq_none.1 (h.slotMEM.trans (hnone 3 (by omega)))
  · exact slotInstr_eq_none.1 (h.slotWB.trans (hnone 4 (by omega)))
  · have hpc := h.pc
    rw [exhausted, toNat_imemIndex, hlen]
    exact decide_eq_true (by omega)

section
variable {prog : List Diw} {labels : LabelMap} {mc : Nat}

theorem prog_of_configuration {s : State} (h : configuration s = (prog, labels, mc)) : s.prog = prog ∧ s.maxCycles = mc :=
  ⟨congrArg Prod.fst h, congrArg (fun c => c.2.2) h⟩

/-- One cycle of accepted straight-line code, from a live state. -/
theorem After.next_of_live {k : Nat} {s : State} (hcheck : preRunRefusal prog labels mc = none)
    (hcode : StraightLine (Claims.decodedStore prog)) (hlive : Live s) (hconfig : configuration s = (prog, labels, mc))
    (h : After (Claims.decodedStore prog) k s) :
    ∃ t, step s = .next t ∧ cycle s = .next t ∧ configuration t = (prog, labels, mc) ∧
      After (Claims.decodedStore prog) (k + 1) t := by
  obtain ⟨t, hstep, hc⟩ := hlive.exists_cycle
  obtain ⟨hprog, -⟩ := prog_of_configuration hconfig
  have hlegal : ∀ d ∈ prog, ∃ i, decode d = .ok i := fun d hd =>
    (configured_accepts hlive.accepted d (hprog ▸ hd)).imp fun _ h => h.1
  refine ⟨t, hstep, hc, (cycle_configuration hc).trans hconfig, ?_⟩
  refine h.next hcode ?_ ?_ ?_ hc
  · intro j
    rw [hprog]
    exact decodedStore_getElem? hlegal j
  · rw [hprog, length_decodedStore hlegal]
  · rw [length_decodedStore hlegal]
    exact (preRunRefusal_eq_none hcheck).1

/-- Up to cycle N + 4 the run is live. -/
theorem run_straightLine (hcheck : preRunRefusal prog labels mc = none) (hne : prog ≠ [])
    (hcode : StraightLine (Claims.decodedStore prog)) (hlen : (Claims.decodedStore prog).length = prog.length)
    (hmc : prog.length + 5 ≤ mc) (k : Nat) (hk : k < prog.length + 5) :
    ∃ s, Host.Core.run Sys2Proof.core k (State.resetWith prog labels mc) = .next s ∧ Live s ∧ configuration s = (prog, labels, mc) ∧
      After (Claims.decodedStore prog) k s := by
  induction k with
  | zero => exact ⟨_, rfl, live_resetWith hcheck hne, rfl, after_resetWith _ _ _ _⟩
  | succ k ih =>
    obtain ⟨s, hrun, hlive, hconfig, hafter⟩ := ih (by omega)
    obtain ⟨t, hstep, hc, htconfig, htafter⟩ := hafter.next_of_live hcheck hcode hlive hconfig
    refine ⟨t, run_succ_of_run hrun hstep, hlive.next hc ?_, htconfig, htafter⟩
    have hne' : Claims.decodedStore prog ≠ [] := by
      rw [← List.length_pos_iff, hlen]
      exact List.length_pos_iff.2 hne
    have hdr := htafter.not_drained (Nat.succ_pos k) hne' (by omega)
    have hcycles := htafter.cycles
    have hmax := (prog_of_configuration htconfig).2
    obtain ⟨-, -, hdr'⟩ | ⟨-, -, hlim⟩ | ⟨-, hst, -⟩ := cycle_status hc hlive.running
    · simp [hdr] at hdr'
    · omega
    · exact hst

end

/-- Settles O58: after N + 4 cycles the run is live with the last instruction in WB, and the next cycle retires it and ends the run. -/
theorem straightLineCodeTakesNPlusFiveCycles : Obligations.StraightLineCodeTakesNPlusFiveCycles := by
  intro prog labels mc hcheck hne hcf huse hmc
  have hcode : StraightLine (Claims.decodedStore prog) := ⟨hcf, huse⟩
  have hlegal : ∀ d ∈ prog, ∃ i, decode d = .ok i := fun d hd =>
    (configured_accepts (live_resetWith hcheck hne).accepted d hd).imp fun _ h => h.1
  have hlen := length_decodedStore hlegal
  obtain ⟨s, hrun, hlive, hconfig, hafter⟩ := run_straightLine hcheck hne hcode hlen hmc (prog.length + 4) (by omega)
  obtain ⟨t, hstep, hc, htconfig, htafter⟩ := hafter.next_of_live hcheck hcode hlive hconfig
  have htprog := (prog_of_configuration htconfig).1
  obtain ⟨hdr, hex⟩ := After.ended (s := t) (code := Claims.decodedStore prog) (by rw [hlen]; exact htafter) (by rw [htprog, hlen])
  refine ⟨t, run_succ_of_run hrun hstep, ?_, htafter.cycles, ?_, htafter.stalls⟩
  · obtain ⟨hst, -⟩ | ⟨hend, -⟩ | ⟨hend, -⟩ := cycle_status hc hlive.running
    · exact hst
    all_goals simp [hdr, hex] at hend
  · obtain ⟨hIF, hID, hEX, hMEM, hWB⟩ := drained_iff.1 hdr
    obtain ⟨hcounts, -⟩ := cycle_keeps_counters hc hlive.inv.counters
    have hfetched := htafter.fetched
    rw [hIF, hID, hEX, hMEM, hWB] at hcounts
    simp only [occupancy, Option.isSome_none, Bool.false_eq_true, if_false, Nat.add_zero] at hcounts
    omega

end Sys2Proof.Machine
